-- ==== Sys2Proof/Word.lean ====
section
/-! DEFINITION. The words of the Farfalle permutation engine (FPE): bus words, byte offsets, slot contents,
field elements and the width-4 tuple (spec/00_scope.md R9, spec/10_state.md R33, spec/20_memory.md R60, R62). -/

namespace Sys2Proof

/-- One byte of the host port space. -/
abbrev Byte := BitVec 8

/-- One 32-bit bus word, the only access width of the host port (R62). -/
abbrev Word := BitVec 32

/-- A byte offset in the 18-bit host port space (R60). -/
abbrev Offset := BitVec 18

/-- The contents of one element slot (R33): up to eight words. A slot of an instance whose elements take `EW` words
holds its `32*EW` raw bits in the low end; the bits above them are not storage and stay 0. -/
abbrev Raw := BitVec 256

/-- A field element, written as the non-negative integer of rule R9. -/
abbrev Elem := Nat

/-- Four like things in coordinate order: a state vector, the registers S and MK, the four constants of a round (R9). -/
structure Quad (α : Type) where
  c0 : α
  c1 : α
  c2 : α
  c3 : α
  deriving DecidableEq, Repr, Inhabited

/-- Which permutation instance: the large or the small one (R120); the value of `rf_sel` (R126). -/
inductive Sel where
  | large
  | small
  deriving DecidableEq, Repr, Inhabited

/-- The field family and its parameters (R7): `PRIME` with modulus `p`, or `BINARY` with degree `n` and polynomial `poly`
(the bits of `poly` are its coefficients, the `x^n` term among them, R12). -/
inductive Field where
  | prime (p : Nat)
  | binary (n poly : Nat)
  deriving DecidableEq, Repr, Inhabited

end Sys2Proof
end

