-- ==== Sys2Proof/Config.lean ====
section
/-! DEFINITION. What one FPE instance fixes and no command changes (spec/00_scope.md R7), and the free values of the
model: constants without a body, so that no proof can know them (spec/93_implementation_defined.md rows 1, 2, 6). -/

namespace Sys2Proof.Config

/-- `MAX_ROUNDS`, the largest round count a permutation commits with (R7, R23). -/
def maxRounds : Nat := 256

/-- `MAX_BLOCKS`, the largest length operand and the depth of a bank (R7, R23). -/
def maxBlocks : Nat := 1024

/-- The carry-less product of two coefficient strings, `k` bits of the second, without reduction (R9, R12). -/
def polyMul : Nat → Nat → Nat → Nat
  | 0, _, _ => 0
  | k + 1, a, b => polyMul k a b ^^^ (if b.testBit k then a <<< k else 0)

/-- A polynomial of degree `n` is irreducible (R7): no two polynomials of lower degree have it as their product. -/
def irreducible (n poly : Nat) : Bool := decide (∀ a < 2 ^ n, ∀ b < 2 ^ n, polyMul n a b ≠ poly)

/-- The legal values of `FIELD` (R7): a prime modulus, or an irreducible polynomial of degree `n`, with an element width
`W` of 2 to 256 bits. -/
def fieldWf : Field → Bool
  | .prime p => decide p.Prime && decide (p < 2 ^ 256)
  | .binary n poly =>
    decide (2 ≤ n) && decide (n ≤ 256) && decide (2 ^ n ≤ poly) && decide (poly < 2 ^ (n + 1)) && irreducible n poly

/-- The field this instance was elaborated with, before the legality rule: OPEN (R7, R10; 93 row 1). A free value, log
entry 1. -/
opaque rawField : Field

/-- `FIELD` of the instance: open, but one of the legal values of rule R7; where the free value is none, the prime of the
source's fixture (log entry 1). -/
def instanceField : Field :=
  if fieldWf rawField then rawField else .prime 258439831533290445326983084816294483837

/-- The round function behind the round-function port, before its range is cut to elements: OPEN (R127; 93 row 2).
Nothing is assumed of it, not even that it is a bijection. A free value, log entry 2. -/
opaque rawMix : Field → Sel → Quad Elem → Quad Elem → Quad Elem

/-- What the RAM of the banks holds at a byte address that nothing has written since the last reset: UNSPECIFIED, perhaps
what it held before (R81, R262; 93 row 6). The first argument says of each earlier reset, the latest first, whether power
had held until then (R247, R265) and what had been written. A free value, log entry 3. -/
opaque unwrittenByte : List (Bool × List (Nat × Byte)) → Nat → Byte

end Sys2Proof.Config
end

