-- ==== Sys2Proof/Syntax.lean ====
section
/-! DEFINITION. The commands of the FPE, one constructor per row of spec/opcode_table.json (spec/30_encoding.md R93).
`n` and `m` are the length operand LEN (R92); the operands of a command are otherwise implicit (R94). -/

namespace Sys2Proof

inductive Instr where
  /-- NOP (R210). -/
  | nop
  /-- COMMIT_L: construct the large permutation (R121). -/
  | commitL
  /-- COMMIT_S: construct the small permutation (R122). -/
  | commitS
  /-- PERM_L: apply the large permutation to S (R131). -/
  | permL
  /-- PERM_S: apply the small permutation to S (R132). -/
  | permS
  /-- ROLL: advance S by one rolling step (R152). -/
  | roll
  /-- KEYSTATE: build the key state into S (R161). -/
  | keystate
  /-- SCHEDULE n: expand S into EK (R163). -/
  | schedule (n : Nat)
  /-- ENCRYPT m (R183). -/
  | encrypt (m : Nat)
  /-- DECRYPT m (R186). -/
  | decrypt (m : Nat)
  /-- ZEROIZE (R211). -/
  | zeroize
  deriving DecidableEq, Repr, Inhabited

end Sys2Proof
end

