-- ==== Sys2Proof/WellFormed.lean ====
section
/-! DEFINITION. Which terms of Instr are commands: the length operand fits the 16-bit field LEN (spec/30_encoding.md
R90, R92). A length above MAX_BLOCKS is well formed: it decodes, and the command completes with LengthError (R222). -/

namespace Sys2Proof

/-- The value of the length operand; 0 for a command that takes none (R92, R93). -/
def Instr.len : Instr → Nat
  | .schedule n => n
  | .encrypt m => m
  | .decrypt m => m
  | .nop | .commitL | .commitS | .permL | .permS | .roll | .keystate | .zeroize => 0

/-- LEN is an unsigned 16-bit field (R90, R92). -/
def Instr.wf (i : Instr) : Bool := decide (i.len < 65536)

end Sys2Proof
end

