-- ==== Sys2Proof/Decode.lean ====
section
/-! DEFINITION. Decoding a command word (spec/30_encoding.md R90, R91, R101), total on every word and on every byte
string, rejecting by name; and the encoder, written from the same tables (R90, R93). -/

namespace Sys2Proof

/-- Why a word is Illegal (R97, R98, R99); `truncated` is a byte string shorter than one command word (R91). -/
inductive IllegalWord where
  | reservedField
  | reservedOpcode
  | lengthNotAllowed
  | truncated
  deriving DecidableEq, Repr

/-- The answer of the decoder. -/
inductive Decoded where
  | command (i : Instr)
  | illegal (why : IllegalWord)
  deriving DecidableEq, Repr

/-- `OP`, bits [7:0] (R90). -/
def opField (w : Word) : BitVec 8 := w.extractLsb' 0 8

/-- `RSV`, bits [15:8] (R90). -/
def rsvField (w : Word) : BitVec 8 := w.extractLsb' 8 8

/-- `LEN`, bits [31:16] (R90). -/
def lenField (w : Word) : BitVec 16 := w.extractLsb' 16 16

/-- A command that takes no LEN operand is legal only with LEN = 0 (R99). -/
def withoutLength (len : Nat) (i : Instr) : Decoded :=
  if len = 0 then .command i else .illegal .lengthNotAllowed

/-- Decoding of one command word (R101). -/
def decode (w : Word) : Decoded :=
  let len := (lenField w).toNat
  if rsvField w = 0 then
    match (opField w).toNat with
    | 0x00 => withoutLength len .nop
    | 0x01 => withoutLength len .commitL
    | 0x02 => withoutLength len .commitS
    | 0x03 => withoutLength len .permL
    | 0x04 => withoutLength len .permS
    | 0x05 => withoutLength len .roll
    | 0x06 => withoutLength len .keystate
    | 0x07 => .command (.schedule len)
    | 0x08 => .command (.encrypt len)
    | 0x09 => .command (.decrypt len)
    | 0x0A => withoutLength len .zeroize
    | _ => .illegal .reservedOpcode
  else .illegal .reservedField

/-- The bus word of four bytes, the first at the lowest address: little-endian (R63). -/
def wordOfBytes (b0 b1 b2 b3 : Byte) : Word := b3 ++ b2 ++ b1 ++ b0

/-- Decoding of a byte string: one command word and the bytes after it (R91: every command is exactly 32 bits). -/
def decodeBytes : List Byte → Decoded × List Byte
  | b0 :: b1 :: b2 :: b3 :: rest => (decode (wordOfBytes b0 b1 b2 b3), rest)
  | bs => (.illegal .truncated, bs)

/-- The bytes of a bus word at increasing addresses (R63). -/
def bytesOfWord (w : Word) : List Byte :=
  [w.extractLsb' 0 8, w.extractLsb' 8 8, w.extractLsb' 16 8, w.extractLsb' 24 8]

/-- The opcode of a command (R93). -/
def opcode : Instr → BitVec 8
  | .nop => 0x00
  | .commitL => 0x01
  | .commitS => 0x02
  | .permL => 0x03
  | .permS => 0x04
  | .roll => 0x05
  | .keystate => 0x06
  | .schedule _ => 0x07
  | .encrypt _ => 0x08
  | .decrypt _ => 0x09
  | .zeroize => 0x0A

/-- The command word of a command (R90): LEN, then RSV = 0, then OP. -/
def encode (i : Instr) : Word := BitVec.ofNat 16 i.len ++ 0x00#8 ++ opcode i

/-- The host's question on one row of spec/opcode_table.json: the word's bytes as the port lays them out, decoded. -/
def decodeTableWord (nbits w : Nat) : Option Instr :=
  if nbits ≤ 32 then
    match (decodeBytes (bytesOfWord (BitVec.ofNat 32 (w % 2 ^ nbits)))).1 with
    | .command i => some i
    | .illegal _ => none
  else none

end Sys2Proof
end

