-- ==== Sys2Proof/Machine/State.lean ====
section
/-! DEFINITION. The state of one FPE instance (spec/10_state.md R20 to R50), as plain data, and the state right after
reset (spec/70_reset_and_hazards.md R260 to R264). INVENTORY.md lists every field with the rule that names it. -/

namespace Sys2Proof.Machine

/-- The five banks (R39 to R43). -/
inductive Bank where
  | rcL
  | rcS
  | din
  | dout
  | ek
  deriving DecidableEq, Repr

/-- The result of a command (R221). -/
inductive ResultCode where
  | ok
  | configError
  | dimensionError
  | fieldMismatch
  | illegalCommand
  | lengthError
  | roundFault
  deriving DecidableEq, Repr

/-- Where the sequencer stands inside the pending command: not started (or no command), the one permutation of PERM_x,
the bootstrap permutation, the mask of block `blk`, or the permutation of the tag (R163, R183, R184). The rules give the
order of these phases; the name for "which one" is the model's own (log entry 4). -/
inductive Phase where
  | idle
  | perm
  | boot
  | block
  | tagging
  deriving DecidableEq, Repr

/-- One round request as the round-function port carries it (R126). -/
structure RfRequest where
  sel : Sel
  round : Nat
  state : Quad Elem
  rc : Quad Elem
  deriving DecidableEq, Repr

/-- The round-function unit, the third agent (R20). `script` holds its coming answers, oldest first: an entry gives the
bits of `rf_rsp_state0..3`; `none`, or an empty script, is the answer of the contract, `MIX` (R127, R128; 93 rows 10, 11).
`trace` holds the requests that have transferred, oldest first: what the port has shown (R129, R184). `silent` is a unit
that takes no request and gives no response any more (R130; 93 row 9). Log entry 5. -/
structure Rfu where
  script : List (Option (Quad Raw))
  trace : List RfRequest
  silent : Bool
  deriving DecidableEq, Repr

/-- What an agent does next (R20). `write` and `read` are completed host transfers (R62). `engine` is the engine's turn
(R243, R244: the pending command runs as one step, or one round of a command already begun). `start` is the engine's start
of a command whose rounds then go one by one, with `rfuTake` and `rfuRespond` the two edges of R126. `assertReset` and
`deassertReset` are the edges of `rst_n` (R260). `rfuFallSilent` is the round-function unit going dead (R130).
`powerCycle` takes power away and gives it back (R247, R265; log entries 3 and 11). -/
inductive Move where
  | write (off : Offset) (v : Word)
  | read (off : Offset)
  | engine
  | start
  | rfuTake
  | rfuRespond
  | rfuFallSilent
  | assertReset
  | deassertReset
  | powerCycle
  deriving DecidableEq, Repr

/-- Why the machine stops. -/
inductive Fault where
  /-- Raised by `step`: an agent moves, other than by asserting `rst_n`, between power-up and the first assertion of
  `rst_n`, when the whole state is UNSPECIFIED (R265). Safe: the machine stops where the hardware would go on from an
  unknown state. -/
  | stateUnspecified
  deriving DecidableEq, Repr

/-- Why there is no meaning. -/
inductive Refusal where
  /-- Raised by an arm of `exec` that has no meaning yet. No arm is refused in this model. Safe. -/
  | notModelled (mnemonic : String)
  deriving DecidableEq, Repr

/-- The bytes of the banks that have been written since the last reset (R50: an absent one is "unspecified since reset"):
addresses of the host port space strictly rising, each with its byte. -/
abbrev Memory := List Host.Cell

/-- The state of one FPE instance (R50), its hidden state (R48), and the two agents outside it. -/
structure State where
  /-- `FIELD`, fixed at elaboration (R7, R10). -/
  field : Field
  /-- CTRL.IRQ_EN (R24). -/
  irqEn : Bool
  /-- STATUS fields (R25). -/
  busy : Bool
  done : Bool
  err : Bool
  wrDrop : Bool
  cmdDrop : Bool
  validL : Bool
  validS : Bool
  errCode : BitVec 4
  /-- CMD: the last accepted command word (R26). -/
  cmd : Word
  /-- ROUNDS_L, ROUNDS_S, RCLEN_L, RCLEN_S (R27 to R30). -/
  roundsL : BitVec 16
  roundsS : BitVec 16
  rclenL : BitVec 16
  rclenS : BitVec 16
  /-- KLEN (R31). -/
  klen : BitVec 3
  /-- S[0..3] (R34). -/
  sreg : Quad Raw
  /-- MK[0..3] (R35). -/
  mkey : Quad Raw
  /-- NONCE (R36). -/
  nonce : Raw
  /-- TAG (R37). -/
  tag : Raw
  /-- RC_L, RC_S, DIN, DOUT and EK (R39 to R43). -/
  mem : Memory
  /-- The accepted command word not yet completed (R48). -/
  pending : Option Word
  /-- `Rr`, the rolling register of the key-schedule pipeline (R48). -/
  rr : Quad Elem
  /-- `ACC`, the tag accumulator (R48). -/
  acc : Quad Elem
  /-- `T`, the state inside a permutation (R48). -/
  t : Quad Elem
  /-- `round`, `blk` and `sel`, the sequencer counters (R48). -/
  round : Nat
  blk : Nat
  sel : Sel
  /-- `rf_out`: a round request is outstanding (R48, R126). -/
  rfOut : Bool
  /-- The phase of the pending command (the model's own, log entry 4). -/
  phase : Phase
  /-- The output blocks computed so far, held until completion (R183; the model's own, log entry 4). -/
  outs : List Elem
  /-- `h_rdata`: the word of the last completed host read (R62, R263). -/
  hRdata : Word
  /-- `rst_n`: false while reset is asserted (R260). -/
  rstN : Bool
  /-- False between power-up and the first assertion of `rst_n` (R265). -/
  specified : Bool
  /-- Of each earlier reset, the latest first: whether power had held since the reset before it (R247, R265), and the bank
  bytes written until then. They select the free values of unwritten bank bytes (R262; the model's own, log entry 3). -/
  past : List (Bool × Memory)
  /-- The round-function unit (R20, R126). -/
  rfu : Rfu
  /-- The coming moves of the agents, oldest first; when none is left the engine moves (the model's own, log entry 6). -/
  schedule : List Move
  deriving DecidableEq, Repr

/-- Four equal coordinates. -/
def fillQuad {α : Type} (x : α) : Quad α := ⟨x, x, x, x⟩

/-- Right after reset (R263, R264), for an instance with field `f`: every register 0, nothing pending, hidden state all
zero, no bank byte specified (R262), reset deasserted, the agents silent. -/
def State.initial (f : Field) : State where
  field := f
  irqEn := false
  busy := false
  done := false
  err := false
  wrDrop := false
  cmdDrop := false
  validL := false
  validS := false
  errCode := 0
  cmd := 0
  roundsL := 0
  roundsS := 0
  rclenL := 0
  rclenS := 0
  klen := 0
  sreg := fillQuad 0
  mkey := fillQuad 0
  nonce := 0
  tag := 0
  mem := []
  pending := none
  rr := fillQuad 0
  acc := fillQuad 0
  t := fillQuad 0
  round := 0
  blk := 0
  sel := .large
  rfOut := false
  phase := .idle
  outs := []
  hRdata := 0
  rstN := true
  specified := true
  past := []
  rfu := ⟨[], [], false⟩
  schedule := []

/-- The machine right after reset (R263). -/
def State.reset : State := State.initial Config.instanceField

end Sys2Proof.Machine
end

