-- ==== Sys2Proof/Machine/FieldOps.lean ====
section
/-! DEFINITION. The field unit (spec/00_scope.md R9 to R16, R22): element width, canonical form, addition, subtraction,
multiplication and the byte encoding, for GF(p) and GF(2^n); and the coordinates of a width-4 tuple. -/

namespace Sys2Proof.Machine

/-- How many elements the field has: the canonical raw values are those below it (R15). -/
def fieldCard : Field → Nat
  | .prime p => p
  | .binary n _ => 2 ^ n

/-- `W`: the bit length of `p`, or `n` (R7). -/
def fieldWidth : Field → Nat
  | .prime p => Nat.log2 p + 1
  | .binary n _ => n

/-- `EW`: 32-bit words per element (R7). -/
def fieldWords (f : Field) : Nat := (fieldWidth f + 31) / 32

/-- Canonical raw values (R15). -/
def canonical (f : Field) (v : Nat) : Bool := decide (v < fieldCard f)

/-- `a +F b` (R11, R12). -/
def fieldAdd : Field → Elem → Elem → Elem
  | .prime p, a, b => (a + b) % p
  | .binary _ _, a, b => a ^^^ b

/-- `a -F b`: the non-negative residue (R11), or exclusive or (R12). -/
def fieldSub : Field → Elem → Elem → Elem
  | .prime p, a, b => (a + (p - b % p)) % p
  | .binary _ _, a, b => a ^^^ b

/-- One pass of the loop of `mulB` per bit of `b`: `k` bits of `b` are left (R12). -/
def mulLoop (n poly : Nat) : Nat → Nat → Nat → Nat → Nat
  | 0, _, _, r => r
  | k + 1, a, b, r =>
    mulLoop n poly k (if (a <<< 1).testBit n then (a <<< 1) ^^^ poly else a <<< 1) (b >>> 1)
      (if b % 2 = 1 then r ^^^ a else r)

/-- `a *F b` (R11, R12). -/
def fieldMul : Field → Elem → Elem → Elem
  | .prime p, a, b => (a * b) % p
  | .binary n poly, a, b => mulLoop n poly n a b 0

/-- The little-endian base-256 integer of a byte string (R16, R63). -/
def leNat : List Byte → Nat
  | [] => 0
  | b :: bs => b.toNat + 256 * leNat bs

/-- Reduction of a coefficient string modulo `poly`, the bits of `v` taken from bit `k - 1` down to bit 0 (R16). -/
def polyReduce (n poly v : Nat) : Nat → Nat → Nat
  | 0, r => r
  | k + 1, r =>
    polyReduce n poly v k
      ((if (r <<< 1).testBit n then (r <<< 1) ^^^ poly else r <<< 1) ^^^ (v >>> k) % 2)

/-- `fromBytes` (R16): the byte string's integer reduced mod `p`, or its coefficients reduced modulo `poly`. The FPE itself
never reduces (R15): this is the host's encoding, to which a slot's layout agrees. -/
def fromBytes : Field → List Byte → Elem
  | .prime p, bs => leNat bs % p
  | .binary n poly, bs => polyReduce n poly (leNat bs) (8 * bs.length) 0

/-- Coordinate `i` of a tuple; `i` is 0 to 3 wherever the rules use it. -/
def quadGet {α : Type} (q : Quad α) : Nat → α
  | 0 => q.c0
  | 1 => q.c1
  | 2 => q.c2
  | _ => q.c3

/-- A tuple with coordinate `i` replaced. -/
def quadSet {α : Type} (q : Quad α) (i : Nat) (x : α) : Quad α :=
  match i with
  | 0 => { q with c0 := x }
  | 1 => { q with c1 := x }
  | 2 => { q with c2 := x }
  | _ => { q with c3 := x }

/-- A function applied to each coordinate. -/
def quadMap {α β : Type} (g : α → β) (q : Quad α) : Quad β := ⟨g q.c0, g q.c1, g q.c2, g q.c3⟩

/-- The coordinates in order. -/
def quadList {α : Type} (q : Quad α) : List α := [q.c0, q.c1, q.c2, q.c3]

/-- Coordinate-wise addition of state vectors (R9). -/
def quadAdd (f : Field) (s t : Quad Elem) : Quad Elem :=
  ⟨fieldAdd f s.c0 t.c0, fieldAdd f s.c1 t.c1, fieldAdd f s.c2 t.c2, fieldAdd f s.c3 t.c3⟩

/-- Every coordinate is canonical. -/
def quadCanonical (f : Field) (q : Quad Elem) : Bool :=
  canonical f q.c0 && canonical f q.c1 && canonical f q.c2 && canonical f q.c3

/-- The integers of four slots (R9, R95). -/
def elemQuad (q : Quad Raw) : Quad Elem := quadMap BitVec.toNat q

/-- An element as a slot's raw value, zero-extended (R95). -/
def rawOf (v : Elem) : Raw := BitVec.ofNat 256 v

/-- A state vector as four slots (R95). -/
def rawQuad (q : Quad Elem) : Quad Raw := quadMap rawOf q

/-- `MIX` of the instance (R127): the open function, cut to the field so that it is a total function to state vectors.
Every such function is among the choices (log entry 2). -/
def mix (f : Field) (x : Sel) (t rc : Quad Elem) : Quad Elem :=
  quadMap (fun v => if canonical f v then v else 0) (Config.rawMix f x t rc)

/-- `ROLL_DEFAULT` (R150), the instance's rolling function (R7, R151). -/
def roll (f : Field) (s : Quad Elem) : Quad Elem :=
  ⟨fieldAdd f s.c3 (fieldMul f s.c0 s.c1), s.c0, s.c1, s.c2⟩

end Sys2Proof.Machine
end

