-- ==== Sys2Proof/Machine/Flags.lean ====
section
/-! DEFINITION. Every flag the FPE has (spec/10_state.md R24, R25, R47): the STATUS and CTRL words, write-1-to-clear,
the result codes (spec/60_exceptions.md R221), the VALID bits and the interrupt output (R232). -/

namespace Sys2Proof.Machine

/-- The number of a result code in STATUS.ERR_CODE (R221). -/
def ResultCode.code : ResultCode → BitVec 4
  | .ok => 0
  | .configError => 1
  | .dimensionError => 2
  | .fieldMismatch => 3
  | .illegalCommand => 4
  | .lengthError => 5
  | .roundFault => 6

/-- STATUS as the host reads it (R25): bits 7 and [31:12] are reserved and read 0. -/
def statusWord (s : State) : Word :=
  0#20 ++ s.errCode ++ 0#1 ++ BitVec.ofBool s.validS ++ BitVec.ofBool s.validL ++ BitVec.ofBool s.cmdDrop ++
    BitVec.ofBool s.wrDrop ++ BitVec.ofBool s.err ++ BitVec.ofBool s.done ++ BitVec.ofBool s.busy

/-- A host write to STATUS (R25): bits 1 to 4 are write-1-to-clear, every other bit is ignored. -/
def writeStatus (v : Word) (s : State) : State :=
  { s with
    done := s.done && !v.getLsbD 1
    err := s.err && !v.getLsbD 2
    wrDrop := s.wrDrop && !v.getLsbD 3
    cmdDrop := s.cmdDrop && !v.getLsbD 4 }

/-- CTRL as the host reads it (R24): SOFT_RESET and the reserved bits read 0. -/
def ctrlWord (s : State) : Word := 0#31 ++ BitVec.ofBool s.irqEn

/-- VALID_L or VALID_S (R25, R120). -/
def State.valid (s : State) : Sel → Bool
  | .large => s.validL
  | .small => s.validS

/-- VALID_L or VALID_S set to a value. -/
def setValid (x : Sel) (b : Bool) (s : State) : State :=
  match x with
  | .large => { s with validL := b }
  | .small => { s with validS := b }

/-- The interrupt output (R232); while reset is asserted DONE is 0, so it is 0 (R260). -/
def irq (s : State) : Bool := s.done && s.irqEn

end Sys2Proof.Machine
end

