-- ==== Sys2Proof/Machine/Ops.lean ====
section
/-! DEFINITION. The named operations over the banks and registers, the completion of a command (spec/60_exceptions.md
R242), which is also how an error is reported (R230, R234), and reset (spec/70_reset_and_hazards.md R260 to R263). -/

namespace Sys2Proof.Machine

/-! ### Memory: the bytes of the banks -/

/-- The canonical form of a memory: addresses strictly rising. An unlisted address has no value, so no entry repeats what
an unlisted address reads as. -/
def Memory.wf : Memory → Bool
  | [] => true
  | [_] => true
  | c :: d :: m => decide (c.1 < d.1) && Memory.wf (d :: m)

/-- The byte stored at an address, if any byte has been written there since the last reset (R50). -/
def Memory.byteAt : Memory → Nat → Option Byte
  | [], _ => none
  | c :: m, a => if c.1 = a then some c.2 else Memory.byteAt m a

/-- One byte stored, the form kept. -/
def Memory.put : Memory → Nat → Byte → Memory
  | [], a, x => [(a, x)]
  | c :: m, a, x =>
    if a < c.1 then (a, x) :: c :: m
    else if a = c.1 then (a, x) :: m
    else c :: Memory.put m a x

/-- Several bytes stored; of two for one address the first of the list stays. -/
def Memory.putAll (cells : List Host.Cell) (m : Memory) : Memory :=
  cells.foldr (fun c m => Memory.put m c.1 c.2) m

/-! ### Bank slots -/

/-- The base offset of a bank (R39 to R43, R61). -/
def Bank.base : Bank → Nat
  | .rcL => 0x08000
  | .rcS => 0x10000
  | .din => 0x18000
  | .dout => 0x20000
  | .ek => 0x28000

/-- The byte address of slot `j` of a bank (stride 0x20, spec/10_state.md section 6). -/
def slotAddr (b : Bank) (j : Nat) : Nat := b.base + 0x20 * j

/-- The bank of a permutation's round-constant table (R39, R40). -/
def rcBank : Sel → Bank
  | .large => .rcL
  | .small => .rcS

/-- The byte a bank address holds: the one stored there, or the free value of an address not written since the last reset
(R81, R262; log entry 3). -/
def bankByte (s : State) (a : Nat) : Byte :=
  (Memory.byteAt s.mem a).getD (Config.unwrittenByte s.past a)

/-- The integer of the `n` bytes from an address, the lowest address least significant (R63). -/
def bankNat (s : State) (a n : Nat) : Nat :=
  leNat ((List.range n).map fun k => bankByte s (a + k))

/-- The raw value of a bank slot as an integer: its `EW` storage words (R33). -/
def slotNat (s : State) (b : Bank) (j : Nat) : Nat :=
  bankNat s (slotAddr b j) (4 * fieldWords s.field)

/-- Byte `k` of an integer (R63). -/
def byteOfNat (v k : Nat) : Byte := BitVec.ofNat 8 (v >>> (8 * k))

/-- The cells of `n` bytes of an integer from an address. -/
def natCells (a n v : Nat) : List Host.Cell :=
  (List.range n).map fun k => (a + k, byteOfNat v k)

/-- The cells of consecutive slots of a bank from slot `j`, each with all its `EW` storage words (R33, R95). -/
def slotCells (ew : Nat) (b : Bank) : Nat → List Elem → List Host.Cell
  | _, [] => []
  | j, v :: vs => natCells (slotAddr b j) (4 * ew) v ++ slotCells ew b (j + 1) vs

/-- The engine's write of elements to slots 0, 1, … of a bank: exactly as many slots as elements (R42, R43, R80). -/
def writeBank (b : Bank) (vs : List Elem) (s : State) : State :=
  { s with mem := Memory.putAll (slotCells (fieldWords s.field) b 0 vs) s.mem }

/-- The first `n` slots of a bank as integers. -/
def bankList (s : State) (b : Bank) (n : Nat) : List Nat := (List.range n).map (slotNat s b)

/-! ### Register slots -/

/-- Word `w` of a slot register: a storage word for `w < EW`, else 0 (R33, R66). -/
def slotWord (f : Field) (r : Raw) (w : Nat) : Word :=
  if w < fieldWords f then r.extractLsb' (32 * w) 32 else 0

/-- A slot register with word `w` written: words `w ≥ EW` ignore the write (R33, R66). -/
def setSlotWord (f : Field) (r : Raw) (w : Nat) (v : Word) : Raw :=
  if w < fieldWords f then
    (r &&& ~~~(0xFFFFFFFF#256 <<< (32 * w))) ||| (v.setWidth 256 <<< (32 * w))
  else r

/-! ### Configuration registers -/

/-- `ROUNDS_x`, zero-extended (R96). -/
def State.rounds (s : State) : Sel → Nat
  | .large => s.roundsL.toNat
  | .small => s.roundsS.toNat

/-- `RCLEN_x`, zero-extended (R96). -/
def State.rclen (s : State) : Sel → Nat
  | .large => s.rclenL.toNat
  | .small => s.rclenS.toNat

/-! ### Completion, the error path and reset -/

/-- The hidden state at rest: all zero, no request outstanding (R48). -/
def clearHidden (s : State) : State :=
  { s with
    rr := fillQuad 0
    acc := fillQuad 0
    t := fillQuad 0
    round := 0
    blk := 0
    sel := .large
    rfOut := false
    phase := .idle
    outs := [] }

/-- Completion with a result code (R242), the one way a command ends. An error is a completion like any other: it saves no
state and transfers control nowhere (R230, R234), and there is no return from it (R235). -/
def complete (c : ResultCode) (s : State) : State :=
  { clearHidden s with
    errCode := c.code
    err := s.err || decide (c ≠ .ok)
    busy := false
    done := true
    pending := none }

/-- Acceptance of a command word by an idle engine (R241). -/
def accept (w : Word) (s : State) : State :=
  { s with cmd := w, pending := some w, busy := true, done := false }

/-- The effect of reset on everything but the agents outside (R260, R261, R263): the instance keeps its field (R10), the
banks hold UNSPECIFIED bytes anew (R262). The first reset after a loss of power is told apart from another one, so that their
bytes need not agree (R247, R265; log entry 3). -/
def resetState (s : State) : State :=
  { State.initial s.field with
    past := (s.specified, s.mem) :: s.past
    rfu := s.rfu
    schedule := s.schedule }

/-- The destinations of a command that ends with RoundFault, zeroed instead of written (R231). -/
def zeroDestinations (i : Instr) (s : State) : State :=
  match i with
  | .permL | .permS => { s with sreg := fillQuad 0 }
  | .schedule n => writeBank .ek (List.replicate n 0) s
  | .encrypt m | .decrypt m => { writeBank .dout (List.replicate m 0) s with tag := 0 }
  | .nop | .commitL | .commitS | .roll | .keystate | .zeroize => s

/-- A command that ends with RoundFault (R227, R231). -/
def roundFault (i : Instr) (s : State) : State := complete .roundFault (zeroDestinations i s)

end Sys2Proof.Machine
end

