-- ==== Sys2Proof/Machine/Operands.lean ====
section
/-! DEFINITION. The operands of each command (spec/30_encoding.md R92, R94 to R96; spec/60_exceptions.md R229) and the
checks made before a command computes, in their order (R222 to R225, R228). -/

namespace Sys2Proof.Machine

/-- The commands that read the master key and the nonce (R94, R223). -/
def readsKey : Instr → Bool
  | .keystate | .encrypt _ | .decrypt _ => true
  | .nop | .commitL | .commitS | .permL | .permS | .roll | .schedule _ | .zeroize => false

/-- The permutation a COMMIT command constructs (R121, R122). -/
def commitsTo : Instr → Option Sel
  | .commitL => some .large
  | .commitS => some .small
  | .nop | .permL | .permS | .roll | .keystate | .schedule _ | .encrypt _ | .decrypt _ | .zeroize => none

/-- The permutation instances a command needs constructed (R225 (b), R269). -/
def needsValid : Instr → List Sel
  | .permL | .schedule _ => [.large]
  | .permS => [.small]
  | .encrypt _ | .decrypt _ => [.large, .small]
  | .nop | .commitL | .commitS | .roll | .keystate | .zeroize => []

/-- The master-key slots in use, MK[0 .. KLEN-1], as integers (R35, R229). -/
def keyElems (s : State) : List Nat := ((quadList s.mkey).map BitVec.toNat).take s.klen.toNat

/-- The raw values, as integers, of the slots a command reads as elements and checks for canonical form (R229). -/
def elementOperands (i : Instr) (s : State) : List Nat :=
  match i with
  | .commitL => bankList s .rcL (s.rclen .large)
  | .commitS => bankList s .rcS (s.rclen .small)
  | .permL | .permS | .roll | .schedule _ => (quadList s.sreg).map BitVec.toNat
  | .keystate => keyElems s ++ [s.nonce.toNat]
  | .encrypt m | .decrypt m => keyElems s ++ [s.nonce.toNat] ++ bankList s .din m
  | .nop | .zeroize => []

/-- The configuration error of COMMIT_x: no round, too many, or a table of the wrong declared length (R121, R225 (a)). -/
def badConfig (s : State) (x : Sel) : Bool :=
  decide (s.rounds x = 0) || decide (Config.maxRounds < s.rounds x) || decide (s.rclen x ≠ 4 * s.rounds x)

/-- The checks of a decoded command in their order; the first that fails gives the code (R228). -/
def check (i : Instr) (s : State) : ResultCode :=
  if Config.maxBlocks < i.len then .lengthError
  else if readsKey i && decide (4 < s.klen.toNat) then .dimensionError
  else if (commitsTo i).any (badConfig s) then .configError
  else if (needsValid i).any (fun x => !s.valid x) then .configError
  else if (elementOperands i s).any (fun v => !canonical s.field v) then .fieldMismatch
  else .ok

/-- The state register as a state vector (R95). -/
def stateVector (s : State) : Quad Elem := elemQuad s.sreg

/-- `keyState(k, MK, nonce)` (R160): key element `j` at coordinate `j`, zero above, the nonce added at coordinate 3. -/
def keyState (f : Field) (k : Nat) (mk : Quad Elem) (nonce : Elem) : Quad Elem :=
  let ks (j : Nat) : Elem := if j < k then quadGet mk j else 0
  ⟨ks 0, ks 1, ks 2, fieldAdd f (ks 3) nonce⟩

/-- The key state of the key registers (R161, R180). -/
def keyVector (s : State) : Quad Elem := keyState s.field s.klen.toNat (elemQuad s.mkey) s.nonce.toNat

/-- The four constants of round `i` of a permutation (R125). -/
def roundConstants (s : State) (x : Sel) (i : Nat) : Quad Elem :=
  ⟨slotNat s (rcBank x) (4 * i), slotNat s (rcBank x) (4 * i + 1), slotNat s (rcBank x) (4 * i + 2),
    slotNat s (rcBank x) (4 * i + 3)⟩

end Sys2Proof.Machine
end

