-- ==== Sys2Proof/Machine/Control.lean ====
section
/-! DEFINITION. The control commands NOP (spec/44_control.md R210) and ZEROIZE (R211). -/

namespace Sys2Proof.Machine

/-- Every slot of the secret-bearing banks set to 0, all its storage words (R211). -/
def zeroBanks (s : State) : State :=
  writeBank .din (List.replicate Config.maxBlocks 0)
    (writeBank .dout (List.replicate Config.maxBlocks 0) (writeBank .ek (List.replicate Config.maxBlocks 0) s))

/-- NOP (R210): only the completion fields. -/
def execNop (s : State) : Host.Outcome State Fault Refusal := .next (complete .ok s)

/-- ZEROIZE (R211). -/
def execZeroize (s : State) : Host.Outcome State Fault Refusal :=
  .next (complete .ok
    { zeroBanks s with sreg := fillQuad 0, mkey := fillQuad 0, nonce := 0, tag := 0, klen := 0 })

end Sys2Proof.Machine
end

