-- ==== Sys2Proof/Machine/Rolling.lean ====
section
/-! DEFINITION. The ROLL command (spec/41_rolling.md R152); the rolling function itself is `roll` (R150). -/

namespace Sys2Proof.Machine

/-- The state that undoes one rolling step, for the statement of rule R153; no command computes it. -/
def unroll (f : Field) (y : Quad Elem) : Quad Elem :=
  ⟨y.c1, y.c2, y.c3, fieldSub f y.c0 (fieldMul f y.c1 y.c2)⟩

/-- ROLL (R152): all four reads precede the writes. -/
def execRoll (s : State) : Host.Outcome State Fault Refusal :=
  .next (if check .roll s = .ok then complete .ok { s with sreg := rawQuad (roll s.field (stateVector s)) }
    else complete (check .roll s) s)

end Sys2Proof.Machine
end

