-- ==== Sys2Proof/Machine/Permutation.lean ====
section
/-! DEFINITION. The permutation family (spec/40_permutation.md): rounds by requests to the round-function unit (R124 to
R129), and COMMIT_L, COMMIT_S, PERM_L, PERM_S (R121, R122, R131, R132). -/

namespace Sys2Proof.Machine

/-! ### The round-function port -/

/-- The request transfers: the port has shown it (R126, R129). -/
def rfuShow (req : RfRequest) (u : Rfu) : Rfu := { u with trace := u.trace ++ [req] }

/-- A response is presented and the unit moves on to its next answer (R126). -/
def rfuDrop (u : Rfu) : Rfu := { u with script := u.script.drop 1 }

/-- The answer to a request as the `W`-bit response signals carry it (R126): the scripted bits, or `MIX` (R127). -/
def rfuAnswer (f : Field) (u : Rfu) (req : RfRequest) : Quad Elem :=
  match u.script with
  | some q :: _ => quadMap (fun r => r.toNat % 2 ^ fieldWidth f) q
  | _ => mix f req.sel req.state req.rc

/-- One round: a request, its response, and the check of the response (R124, R128); no state is a RoundFault. -/
def rfuRound (f : Field) (req : RfRequest) (u : Rfu) : Option (Quad Elem) × Rfu :=
  let q := rfuAnswer f u req
  (if quadCanonical f q then some q else none, rfuDrop (rfuShow req u))

/-! ### The permutation function -/

/-- `n` rounds of permutation `x` from round `i` (R124, R125); a RoundFault ends the computation (R128, R129). -/
def permRounds (s : State) (x : Sel) : Nat → Nat → Quad Elem → Rfu → Option (Quad Elem) × Rfu
  | 0, _, t, u => (some t, u)
  | n + 1, i, t, u =>
    match rfuRound s.field ⟨x, i, t, roundConstants s x i⟩ u with
    | (some t', u') => permRounds s x n (i + 1) t' u'
    | (none, u') => (none, u')

/-- `P_x(t)` (R124), with the round-function unit before and after. -/
def perm (s : State) (x : Sel) (t : Quad Elem) (u : Rfu) : Option (Quad Elem) × Rfu :=
  permRounds s x (s.rounds x) 0 t u

/-! ### The commands -/

/-- COMMIT_x (R121): VALID_x becomes 1 when every check passes and 0 otherwise (R242). -/
def commitCommand (x : Sel) (i : Instr) (s : State) : State :=
  complete (check i s) (setValid x (decide (check i s = .ok)) s)

/-- PERM_x (R131). -/
def permCommand (x : Sel) (i : Instr) (s : State) : State :=
  if check i s = .ok then
    match perm s x (stateVector s) s.rfu with
    | (some t, u) => complete .ok { s with rfu := u, sreg := rawQuad t }
    | (none, u) => roundFault i { s with rfu := u }
  else complete (check i s) s

/-- COMMIT_L (R121). -/
def execCommitL (s : State) : Host.Outcome State Fault Refusal := .next (commitCommand .large .commitL s)

/-- COMMIT_S (R122). -/
def execCommitS (s : State) : Host.Outcome State Fault Refusal := .next (commitCommand .small .commitS s)

/-- PERM_L (R131). -/
def execPermL (s : State) : Host.Outcome State Fault Refusal := .next (permCommand .large .permL s)

/-- PERM_S (R132). -/
def execPermS (s : State) : Host.Outcome State Fault Refusal := .next (permCommand .small .permS s)

end Sys2Proof.Machine
end

