-- ==== Sys2Proof/Machine/KeySchedule.lean ====
section
/-! DEFINITION. The key schedule (spec/42_key_schedule.md): KEYSTATE (R161) and SCHEDULE (R162, R163). -/

namespace Sys2Proof.Machine

/-- The extract-and-roll stream of `n` elements from the register `Rr` (R162). -/
def extractStream (f : Field) : Nat → Quad Elem → List Elem
  | 0, _ => []
  | n + 1, rr => rr.c0 :: extractStream f n (roll f rr)

/-- The results of SCHEDULE n, once the bootstrap permutation has given `k0` (R163). -/
def finishSchedule (n : Nat) (k0 : Quad Elem) (s : State) : State :=
  complete .ok (writeBank .ek (extractStream s.field n k0) s)

/-- SCHEDULE n (R163): the bootstrap permutation runs for `n = 0` too (R165). -/
def scheduleCommand (n : Nat) (s : State) : State :=
  if check (.schedule n) s = .ok then
    match perm s .large (stateVector s) s.rfu with
    | (some k0, u) => finishSchedule n k0 { s with rfu := u }
    | (none, u) => roundFault (.schedule n) { s with rfu := u }
  else complete (check (.schedule n) s) s

/-- KEYSTATE (R161). -/
def execKeystate (s : State) : Host.Outcome State Fault Refusal :=
  .next (if check .keystate s = .ok then complete .ok { s with sreg := rawQuad (keyVector s) }
    else complete (check .keystate s) s)

/-- SCHEDULE n (R163). -/
def execSchedule (n : Nat) (s : State) : Host.Outcome State Fault Refusal := .next (scheduleCommand n s)

end Sys2Proof.Machine
end

