-- ==== Sys2Proof/Machine/Transform.lean ====
section
/-! DEFINITION. The Farfalle-like transform (spec/43_transform.md): masks (R181), tag accumulation (R182), ENCRYPT (R183)
and DECRYPT (R186). -/

namespace Sys2Proof.Machine

/-- The two directions of the transform (R183, R186). -/
inductive Direction where
  | encrypting
  | decrypting
  deriving DecidableEq, Repr

/-- What one block leaves: its expanded-key element, its message block (the tag folds these two, R182) and its output
block. -/
structure Block where
  ek : Elem
  msg : Elem
  out : Elem
  deriving DecidableEq, Repr

/-- The block of input `d` under mask `z`: `C = M +F z` (R183), or `M = C -F z` (R186). -/
def blockOf (f : Field) (dir : Direction) (ek z d : Elem) : Block :=
  match dir with
  | .encrypting => ⟨ek, d, fieldAdd f d z⟩
  | .decrypting => ⟨ek, fieldSub f d z, fieldSub f d z⟩

/-- The seed of a block's mask: the expanded-key element padded with the field's zero (R181). -/
def maskSeed (ek : Elem) : Quad Elem := ⟨ek, 0, 0, 0⟩

/-- The accumulator's start: the bootstrap output with the domain-separation constant 1 at coordinate 3 (R182). -/
def tagStart (f : Field) (k0 : Quad Elem) : Quad Elem := { k0 with c3 := fieldAdd f k0.c3 1 }

/-- One block folded into the accumulator (R182). -/
def tagFold (f : Field) (acc : Quad Elem) (b : Block) : Quad Elem :=
  roll f ⟨fieldAdd f acc.c0 b.msg, fieldAdd f acc.c1 b.ek, acc.c2, acc.c3⟩

/-- The block loop over the input blocks left, from the rolling register `rr` (R183, R186): per block one expanded-key
element, one rolling step, one small permutation. -/
def blockLoop (s : State) (dir : Direction) : List Elem → Quad Elem → Rfu → Option (List Block) × Rfu
  | [], _, u => (some [], u)
  | d :: ds, rr, u =>
    match perm s .small (maskSeed rr.c0) u with
    | (some t, u') =>
      match blockLoop s dir ds (roll s.field rr) u' with
      | (some bs, u'') => (some (blockOf s.field dir rr.c0 t.c0 d :: bs), u'')
      | (none, u'') => (none, u'')
    | (none, u') => (none, u')

/-- The transform over `m` blocks: the blocks and the tag (R182, R183, R184, R186). -/
def transform (s : State) (dir : Direction) (m : Nat) : Option (List Block × Elem) × Rfu :=
  match perm s .large (keyVector s) s.rfu with
  | (none, u) => (none, u)
  | (some k0, u) =>
    match blockLoop s dir (bankList s .din m) k0 u with
    | (none, u') => (none, u')
    | (some bs, u') =>
      match perm s .large (bs.foldl (tagFold s.field) (tagStart s.field k0)) u' with
      | (none, u'') => (none, u'')
      | (some t, u'') => (some (bs, t.c0), u'')

/-- The results of ENCRYPT and DECRYPT: the output blocks and the tag (R183, R186). -/
def finishTransform (outs : List Elem) (tag : Elem) (s : State) : State :=
  complete .ok { writeBank .dout outs s with tag := rawOf tag }

/-- ENCRYPT m and DECRYPT m (R183, R186). -/
def transformCommand (dir : Direction) (m : Nat) (i : Instr) (s : State) : State :=
  if check i s = .ok then
    match transform s dir m with
    | (some (bs, tag), u) => finishTransform (bs.map Block.out) tag { s with rfu := u }
    | (none, u) => roundFault i { s with rfu := u }
  else complete (check i s) s

/-- ENCRYPT m (R183). -/
def execEncrypt (m : Nat) (s : State) : Host.Outcome State Fault Refusal :=
  .next (transformCommand .encrypting m (.encrypt m) s)

/-- DECRYPT m (R186). -/
def execDecrypt (m : Nat) (s : State) : Host.Outcome State Fault Refusal :=
  .next (transformCommand .decrypting m (.decrypt m) s)

end Sys2Proof.Machine
end

