-- ==== Sys2Proof/Machine/Dispatch.lean ====
section
/-! DEFINITION. The meaning of every command (spec/30_encoding.md R93): its effect from acceptance to completion, as one
step (spec/60_exceptions.md R243). -/

namespace Sys2Proof.Machine

def exec (i : Instr) (s : State) : Host.Outcome State Fault Refusal :=
  match i with
  | .nop => Sys2Proof.Machine.execNop s
  | .commitL => Sys2Proof.Machine.execCommitL s
  | .commitS => Sys2Proof.Machine.execCommitS s
  | .permL => Sys2Proof.Machine.execPermL s
  | .permS => Sys2Proof.Machine.execPermS s
  | .roll => Sys2Proof.Machine.execRoll s
  | .keystate => Sys2Proof.Machine.execKeystate s
  | .schedule n => Sys2Proof.Machine.execSchedule n s
  | .encrypt m => Sys2Proof.Machine.execEncrypt m s
  | .decrypt m => Sys2Proof.Machine.execDecrypt m s
  | .zeroize => Sys2Proof.Machine.execZeroize s

end Sys2Proof.Machine
end

