-- ==== Sys2Proof/Machine/HostPort.lean ====
section
/-! DEFINITION. The host port (spec/20_memory.md): the address map (R61, R65), what a read returns (R66, R67, R70, R73)
and what a write does (R66, R68, R71, R72; spec/60_exceptions.md R241; spec/70_reset_and_hazards.md R261). -/

namespace Sys2Proof.Machine

/-- What an offset of the host port space names (R61): a register, word `w` of a slot, or nothing. -/
inductive Loc where
  | id
  | param0
  | param1
  | ctrl
  | status
  | cmd
  | rounds (x : Sel)
  | rclen (x : Sel)
  | klen
  | sreg (i w : Nat)
  | mkey (i w : Nat)
  | nonce (w : Nat)
  | tag (w : Nat)
  | bank (b : Bank) (j w : Nat)
  | reserved
  deriving DecidableEq, Repr

/-- The register at word `n` of the register area (R61, R32). -/
def registerAt : Nat → Loc
  | 0 => .id
  | 1 => .param0
  | 2 => .param1
  | 3 => .ctrl
  | 4 => .status
  | 5 => .cmd
  | 6 => .rounds .large
  | 7 => .rounds .small
  | 8 => .rclen .large
  | 9 => .rclen .small
  | 10 => .klen
  | _ => .reserved

/-- The address map (R61); bits [1:0] of the offset are ignored (R65). In a slot region with base `B`, the slot is
`(off - B) >> 5` and the word `(off >> 2) & 7`. -/
def locate (off : Offset) : Loc :=
  let a := off.toNat / 4 * 4
  let w := a / 4 % 8
  if a < 0x00100 then registerAt (a / 4)
  else if a < 0x00180 then .sreg ((a - 0x00100) / 32) w
  else if a < 0x00200 then .mkey ((a - 0x00180) / 32) w
  else if a < 0x00220 then .nonce w
  else if a < 0x00240 then .tag w
  else if a < 0x08000 then .reserved
  else if a < 0x10000 then .bank .rcL ((a - 0x08000) / 32) w
  else if a < 0x18000 then .bank .rcS ((a - 0x10000) / 32) w
  else if a < 0x20000 then .bank .din ((a - 0x18000) / 32) w
  else if a < 0x28000 then .bank .dout ((a - 0x20000) / 32) w
  else if a < 0x30000 then .bank .ek ((a - 0x28000) / 32) w
  else .reserved

/-- ID (R21). -/
def idWord : Word := 0x43490100

/-- PARAM0 (R22): `W` in bits [8:0], the field's kind in bit 16. -/
def param0Word (f : Field) : Word :=
  match f with
  | .prime _ => BitVec.ofNat 32 (fieldWidth f)
  | .binary _ _ => BitVec.ofNat 32 (fieldWidth f + 0x10000)

/-- PARAM1 (R23): MAX_ROUNDS over MAX_BLOCKS. -/
def param1Word : Word := BitVec.ofNat 16 Config.maxRounds ++ BitVec.ofNat 16 Config.maxBlocks

/-- Word `w` of a bank slot: a storage word for `w < EW`, else 0 (R33, R66). -/
def bankWord (s : State) (b : Bank) (j w : Nat) : Word :=
  if w < fieldWords s.field then BitVec.ofNat 32 (bankNat s (slotAddr b j + 4 * w) 4) else 0

/-- The word a read of slot contents returns: 0 while the engine is busy (R70). -/
def unlessBusy (s : State) (v : Word) : Word := if s.busy then 0 else v

/-- The word a host read returns (R66, R70, R73). -/
def readLoc (s : State) : Loc → Word
  | .id => idWord
  | .param0 => param0Word s.field
  | .param1 => param1Word
  | .ctrl => ctrlWord s
  | .status => statusWord s
  | .cmd => s.cmd
  | .rounds .large => s.roundsL.setWidth 32
  | .rounds .small => s.roundsS.setWidth 32
  | .rclen .large => s.rclenL.setWidth 32
  | .rclen .small => s.rclenS.setWidth 32
  | .klen => s.klen.setWidth 32
  | .sreg i w => unlessBusy s (slotWord s.field (quadGet s.sreg i) w)
  | .mkey i w => unlessBusy s (slotWord s.field (quadGet s.mkey i) w)
  | .nonce w => unlessBusy s (slotWord s.field s.nonce w)
  | .tag w => unlessBusy s (slotWord s.field s.tag w)
  | .bank b j w => unlessBusy s (bankWord s b j w)
  | .reserved => 0

/-- `MemRead(off, 4)` (R62). -/
def hostRead (s : State) (off : Offset) : Word := readLoc s (locate off)

/-- A write dropped because the engine is busy (R71). -/
def dropWrite (s : State) : State := { s with wrDrop := true }

/-- A write to a storage location: dropped while busy (R71), performed otherwise. -/
def ifIdle (s : State) (g : State → State) : State := if s.busy then dropWrite s else g s

/-- A write to word `w` of a writable slot: words `w ≥ EW` ignore it, busy or not (R66, R71). -/
def ifStorage (s : State) (w : Nat) (g : State → State) : State :=
  if w < fieldWords s.field then ifIdle s g else s

/-- ROUNDS_x written: VALID_x falls, whatever the value (R27, R28, R123). -/
def writeRounds (x : Sel) (v : BitVec 16) (s : State) : State :=
  match x with
  | .large => { s with roundsL := v, validL := false }
  | .small => { s with roundsS := v, validS := false }

/-- RCLEN_x written: VALID_x falls (R29, R30, R123). -/
def writeRclen (x : Sel) (v : BitVec 16) (s : State) : State :=
  match x with
  | .large => { s with rclenL := v, validL := false }
  | .small => { s with rclenS := v, validS := false }

/-- The four bytes of a bus word stored from a bank address (R63). -/
def putWord (a : Nat) (v : Word) (s : State) : State :=
  { s with mem := Memory.putAll (natCells a 4 v.toNat) s.mem }

/-- A storage word of a host-writable bank written; in a round-constant bank VALID_x falls (R123). DOUT and EK are
read-only to the host (R42, R43, R66). -/
def writeBankWord (b : Bank) (j w : Nat) (v : Word) (s : State) : State :=
  match b with
  | .rcL => ifStorage s w fun s => setValid .large false (putWord (slotAddr .rcL j + 4 * w) v s)
  | .rcS => ifStorage s w fun s => setValid .small false (putWord (slotAddr .rcS j + 4 * w) v s)
  | .din => ifStorage s w (putWord (slotAddr .din j + 4 * w) v)
  | .dout | .ek => s

/-- The effect of a host write (R66, R68, R71, R72, R241, R261). -/
def writeLoc (s : State) (v : Word) : Loc → State
  | .id | .param0 | .param1 | .tag _ | .reserved => s
  | .ctrl => if v.getLsbD 1 then resetState s else { s with irqEn := v.getLsbD 0 }
  | .status => writeStatus v s
  | .cmd => if s.busy then { s with cmdDrop := true } else accept v s
  | .rounds x => ifIdle s (writeRounds x (v.setWidth 16))
  | .rclen x => ifIdle s (writeRclen x (v.setWidth 16))
  | .klen => ifIdle s fun s => { s with klen := v.setWidth 3 }
  | .sreg i w =>
    ifStorage s w fun s => { s with sreg := quadSet s.sreg i (setSlotWord s.field (quadGet s.sreg i) w v) }
  | .mkey i w => ifStorage s w fun s => { s with mkey := quadSet s.mkey i (setSlotWord s.field (quadGet s.mkey i) w v) }
  | .nonce w => ifStorage s w fun s => { s with nonce := setSlotWord s.field s.nonce w v }
  | .bank b j w => writeBankWord b j w v s

/-- `MemWrite(off, 4, v)` (R62). -/
def hostWrite (off : Offset) (v : Word) (s : State) : State := writeLoc s v (locate off)

end Sys2Proof.Machine
end

