-- ==== Sys2Proof/Machine/Sequencer.lean ====
section
/-! DEFINITION. The engine's sequencer and the round-function port, round by round (spec/10_state.md R48;
spec/40_permutation.md R126 to R129; spec/43_transform.md R184): the hidden state between acceptance and completion, and
the two edges of a round request. A command run this way ends as it does in one step (R243). -/

namespace Sys2Proof.Machine

/-- The command of the pending word, if it decodes to one (R48, R101). -/
def commandOf (s : State) : Option Instr :=
  match s.pending with
  | none => none
  | some w =>
    match decode w with
    | .command i => some i
    | .illegal _ => none

/-- The start of a permutation: `T` loaded, round 0, its first request presented (R124, R126). -/
def enterPerm (ph : Phase) (x : Sel) (t : Quad Elem) (s : State) : State :=
  { s with phase := ph, sel := x, t := t, round := 0 }

/-- The start of a command that uses the round-function unit; none when its checks fail (R230) or it makes no request. -/
def openCommand (i : Instr) (s : State) : Option State :=
  if check i s = .ok then
    match i with
    | .permL => some (enterPerm .perm .large (stateVector s) s)
    | .permS => some (enterPerm .perm .small (stateVector s) s)
    | .schedule _ => some (enterPerm .boot .large (stateVector s) s)
    | .encrypt _ | .decrypt _ => some (enterPerm .boot .large (keyVector s) s)
    | .nop | .commitL | .commitS | .roll | .keystate | .zeroize => none
  else none

/-- `rf_req_valid`: a round request is presented (R126). -/
def rfReqValid (s : State) : Bool := decide (s.phase ≠ .idle) && !s.rfOut

/-- The round in progress as a request (R125, R126). -/
def currentRequest (s : State) : RfRequest := ⟨s.sel, s.round, s.t, roundConstants s s.sel s.round⟩

/-- The request data signals: 0 while no request is presented (R126). -/
def requestSignals (s : State) : RfRequest :=
  if rfReqValid s then currentRequest s else ⟨.large, 0, fillQuad 0, fillQuad 0⟩

/-- The request transfers: `rf_out` is set (R126). Without a presented request, or from a silent unit (R130), nothing
happens. -/
def rfuTake (s : State) : State :=
  if rfReqValid s && !s.rfu.silent then { s with rfOut := true, rfu := rfuShow (currentRequest s) s.rfu } else s

/-- The start of block `b` of `m`, or of the tag's permutation when no block is left (R184). -/
def startBlock (m b : Nat) (s : State) : State :=
  if b < m then enterPerm .block .small (maskSeed s.rr.c0) { s with blk := b }
  else enterPerm .tagging .large s.acc s

/-- The end of a block's mask (R181 to R183, R186): the output block, the accumulator and the rolling register move on. -/
def finishBlock (dir : Direction) (m : Nat) (s : State) : State :=
  let b := blockOf s.field dir s.rr.c0 s.t.c0 (slotNat s .din s.blk)
  startBlock m (s.blk + 1)
    { s with outs := s.outs ++ [b.out], acc := tagFold s.field s.acc b, rr := roll s.field s.rr }

/-- The end of a permutation inside ENCRYPT or DECRYPT (R183, R184, R186). -/
def transformPermDone (dir : Direction) (m : Nat) (s : State) : State :=
  match s.phase with
  | .boot => startBlock m 0 { s with rr := s.t, acc := tagStart s.field s.t }
  | .block => finishBlock dir m s
  | .tagging => finishTransform s.outs s.t.c0 s
  | .idle | .perm => s

/-- The end of a permutation, its result in `T`: on to the command's next phase, or the completion (R131, R163, R184). -/
def permDone (i : Instr) (s : State) : State :=
  match i with
  | .permL | .permS => complete .ok { s with sreg := rawQuad s.t }
  | .schedule n => finishSchedule n s.t s
  | .encrypt m => transformPermDone .encrypting m s
  | .decrypt m => transformPermDone .decrypting m s
  | .nop | .commitL | .commitS | .roll | .keystate | .zeroize => s

/-- A canonical response taken by command `i`: the next round, or the permutation's end (R124, R129). -/
def roundDone (i : Instr) (q : Quad Elem) (s : State) : State :=
  if s.round + 1 < s.rounds s.sel then { s with t := q, round := s.round + 1 }
  else permDone i { s with t := q }

/-- A response is presented. With a request outstanding the engine takes it: the round ends, or the command ends with
RoundFault (R126, R128, R231). With none outstanding it is ignored (R126, R261). A silent unit presents none (R130). -/
def rfuRespond (s : State) : State :=
  if s.rfu.silent then s
  else if s.rfOut then
    match commandOf s with
    | none => { s with rfu := rfuDrop s.rfu, rfOut := false }
    | some i =>
      let q := rfuAnswer s.field s.rfu (currentRequest s)
      if quadCanonical s.field q then roundDone i q { s with rfu := rfuDrop s.rfu, rfOut := false }
      else roundFault i { s with rfu := rfuDrop s.rfu, rfOut := false }
  else { s with rfu := rfuDrop s.rfu }

/-- One edge of the round-function port in the order of R126: the request transfers, or its response does. -/
def portEdge (s : State) : State := if rfReqValid s then rfuTake s else rfuRespond s

end Sys2Proof.Machine
end

