-- ==== Sys2Proof/Machine/Agents.lean ====
section
/-! DEFINITION. The moves of the three agents (spec/10_state.md R20): the host's transfers, the engine's turn, the
round-function unit's edges, and the reset and power inputs of the platform. -/

namespace Sys2Proof.Machine

/-- A pending command begun, its rounds to go one by one. A command that makes no request, or whose checks fail, runs to
completion at once (R230). -/
def beginCommand (i : Instr) (s : State) : Host.Outcome State Fault Refusal :=
  match openCommand i s with
  | some s' => .next s'
  | none => exec i s

/-- The pending command run to completion as one step (R243). With a silent round-function unit a command that needs it
only begins, and stays busy (R130, R244). -/
def runCommand (i : Instr) (s : State) : Host.Outcome State Fault Refusal :=
  if s.rfu.silent then beginCommand i s else exec i s

/-- A turn on the pending word, `g` saying how a command goes. A legal word not yet begun goes by `g`, an illegal one
completes with IllegalCommand (R97 to R99, R226). A command already begun moves one edge of the port. An idle engine does
nothing (R264). -/
def turn (g : Instr → State → Host.Outcome State Fault Refusal) (s : State) : Host.Outcome State Fault Refusal :=
  match s.pending with
  | none => .next s
  | some w =>
    match s.phase with
    | .idle =>
      match decode w with
      | .command i => g i s
      | .illegal _ => .next (complete .illegalCommand s)
    | .perm | .boot | .block | .tagging => .next (portEdge s)

/-- The engine's turn (R243, R244). -/
def engineTurn (s : State) : Host.Outcome State Fault Refusal := turn runCommand s

/-- The engine's start of a pending command whose rounds then go one by one. -/
def startTurn (s : State) : Host.Outcome State Fault Refusal := turn beginCommand s

/-- A host transfer completes only while reset is not asserted: `h_ready` is 0 otherwise (R260). -/
def transfer (g : State → State) (s : State) : State := if s.rstN then g s else s

/-- The next move of an agent, from a state that a reset has made specified. A loss of power leaves the fields in place and
marks all of them unspecified: no move but a reset reads them (R247, R265; DESIGN CHOICE, log entry 11). -/
def move (m : Move) (s : State) : Host.Outcome State Fault Refusal :=
  match m with
  | .write off v => .next (transfer (hostWrite off v) s)
  | .read off => .next (transfer (fun s => { s with hRdata := hostRead s off }) s)
  | .engine => engineTurn s
  | .start => startTurn s
  | .rfuTake => .next (rfuTake s)
  | .rfuRespond => .next (rfuRespond s)
  | .rfuFallSilent => .next { s with rfu := { s.rfu with silent := true } }
  | .assertReset => .next { resetState s with rstN := false }
  | .deassertReset => .next { s with rstN := true }
  | .powerCycle => .next { s with specified := false }

/-- A move between power-up and the first assertion of `rst_n`: only that assertion gives a specified state (R265). -/
def moveUnspecified (m : Move) (s : State) : Host.Outcome State Fault Refusal :=
  match m with
  | .assertReset => move .assertReset s
  | .powerCycle => .next s
  | .write _ _ | .read _ | .engine | .start | .rfuTake | .rfuRespond | .rfuFallSilent | .deassertReset =>
    .fault .stateUnspecified

/-- A move of an agent. -/
def agentMove (m : Move) (s : State) : Host.Outcome State Fault Refusal :=
  if s.specified then move m s else moveUnspecified m s

/-- The state in which the host has just written command word `w` and the engine moves next: how an instruction comes to
be the one that runs (R241). -/
def withCommand (w : Word) (s : State) : State :=
  { accept w (clearHidden s) with
    schedule := .engine :: s.schedule
    rfu := { s.rfu with silent := false }
    rstN := true
    specified := true }

end Sys2Proof.Machine
end

