-- ==== Sys2Proof/Machine/Step.lean ====
section
/-! DEFINITION. One step of the machine: the next agent of the schedule moves; with no move left the engine does. -/

namespace Sys2Proof.Machine

def step (s : State) : Host.Outcome State Fault Refusal :=
  match s.schedule with
  | [] => agentMove .engine s
  | m :: ms => agentMove m { s with schedule := ms }

/-- The instruction of `nbits` bits `w` made the next to run: the word accepted in CMD, the engine to move (R241). -/
def State.withFetchWord (s : State) (nbits w : Nat) : State :=
  withCommand (BitVec.ofNat 32 (w % 2 ^ nbits)) s

end Sys2Proof.Machine
end

