-- ==== Sys2Proof/Safety.lean ====
section
/-! DEFINITION. The terms claims use: the rules' functions written as the rules write them (P_x, the expanded key, the
masks, the tag and the requests they make), the contract of the round-function unit, and the invariant of a state that a
run from reset can reach. -/

namespace Sys2Proof.Machine

/-! ### The round-function unit -/

/-- The unit keeps its contract: every coming answer is `MIX` of its request (R127, R278). -/
def Honest (u : Rfu) : Prop := ∀ e ∈ u.script, e = none

/-- The unit after some requests have been made and answered. -/
def afterRequests (u : Rfu) (reqs : List RfRequest) : Rfu :=
  { u with script := u.script.drop reqs.length, trace := u.trace ++ reqs }

/-! ### The functions of the rules -/

/-- The state before round `i` of `P_x` under the contract (R124, R127). -/
def roundState (s : State) (x : Sel) (t : Quad Elem) : Nat → Quad Elem
  | 0 => t
  | i + 1 => mix s.field x (roundState s x t i) (roundConstants s x i)

/-- `P_x(t)` (R124). -/
def permutation (s : State) (x : Sel) (t : Quad Elem) : Quad Elem := roundState s x t (s.rounds x)

/-- The requests of one computation of `P_x(t)` (R129). -/
def permRequests (s : State) (x : Sel) (t : Quad Elem) : List RfRequest :=
  (List.range (s.rounds x)).map fun i => ⟨x, i, roundState s x t i, roundConstants s x i⟩

/-- `schedule(ks, n)[i]` in closed form, `k0` being `P_L(ks)` (R166, R180). -/
def expandedKey (f : Field) (k0 : Quad Elem) (i : Nat) : Elem := ((roll f)^[i] k0).c0

/-- `K0`, the bootstrap output of the transform (R180). -/
def bootstrap (s : State) : Quad Elem := permutation s .large (keyVector s)

/-- `z_i` of the transform (R181). -/
def mask (s : State) (i : Nat) : Elem :=
  (permutation s .small ⟨expandedKey s.field (bootstrap s) i, 0, 0, 0⟩).c0

/-- `ACC` after `i` blocks of the message `msg` (R182). -/
def accumulator (s : State) (msg : Nat → Elem) : Nat → Quad Elem
  | 0 =>
    let k0 := bootstrap s
    ⟨k0.c0, k0.c1, k0.c2, fieldAdd s.field k0.c3 1⟩
  | i + 1 =>
    let a := accumulator s msg i
    roll s.field
      ⟨fieldAdd s.field a.c0 (msg i), fieldAdd s.field a.c1 (expandedKey s.field (bootstrap s) i), a.c2, a.c3⟩

/-- `tagOf(K0, M, EK, m)` (R182). -/
def tagOf (s : State) (msg : Nat → Elem) (m : Nat) : Elem := (permutation s .large (accumulator s msg m)).c0

/-- The requests of ENCRYPT and DECRYPT in their order (R184). -/
def transformRequests (s : State) (msg : Nat → Elem) (m : Nat) : List RfRequest :=
  permRequests s .large (keyVector s) ++
    ((List.range m).flatMap fun i => permRequests s .small ⟨expandedKey s.field (bootstrap s) i, 0, 0, 0⟩) ++
    permRequests s .large (accumulator s msg m)

/-- The requests a command makes under the contract once its checks pass, in their order (R129, R164, R184). How many there
are does not depend on the answers. -/
def commandRequests (i : Instr) (s : State) : List RfRequest :=
  match i with
  | .permL => permRequests s .large (stateVector s)
  | .permS => permRequests s .small (stateVector s)
  | .schedule _ => permRequests s .large (stateVector s)
  | .encrypt m => transformRequests s (slotNat s .din) m
  | .decrypt m => transformRequests s (fun j => fieldSub s.field (slotNat s .din j) (mask s j)) m
  | .nop | .commitL | .commitS | .roll | .keystate | .zeroize => []

/-- Scripted bits of which some response signal, `W` bits wide, is not canonical (R126, R128). -/
def BadAnswer (f : Field) (q : Quad Raw) : Prop := ∃ r ∈ quadList q, fieldCard f ≤ r.toNat % 2 ^ fieldWidth f

/-! ### What a completion writes -/

/-- The completion fields of rule R242 for a machine whose hidden state is at rest: STATUS and `pending`, no more. -/
def completionFields (code : BitVec 4) (s : State) : State :=
  { s with errCode := code, err := s.err || code != 0, busy := false, done := true, pending := none }

/-- The address is no storage byte of slots 0 to `n - 1` of a bank (R33). -/
def OutsideSlots (s : State) (b : Bank) (n a : Nat) : Prop :=
  ∀ j < n, ∀ k < 4 * fieldWords s.field, a ≠ slotAddr b j + k

/-- The key operands are elements: MK[0 .. KLEN-1] and NONCE (R229). -/
def KeyCanonical (s : State) : Prop :=
  (∀ j < s.klen.toNat, (quadGet s.mkey j).toNat < fieldCard s.field) ∧ s.nonce.toNat < fieldCard s.field

/-- The conditions under which ENCRYPT m and DECRYPT m compute (R183, R228). -/
structure TransformReady (s : State) (m : Nat) : Prop where
  length : m ≤ 1024
  klen : s.klen.toNat ≤ 4
  validL : s.validL = true
  validS : s.validS = true
  key : KeyCanonical s
  blocks : ∀ i < m, slotNat s .din i < fieldCard s.field

/-! ### Reset -/

/-- The hidden state at rest: all zero, no request outstanding, no command begun (R48). -/
structure AtRest (s : State) : Prop where
  rr : s.rr = fillQuad 0
  acc : s.acc = fillQuad 0
  t : s.t = fillQuad 0
  round : s.round = 0
  blk : s.blk = 0
  sel : s.sel = .large
  rfOut : s.rfOut = false
  phase : s.phase = .idle
  outs : s.outs = []

/-- Every register, STATUS field and hidden state element at its reset value (R263). -/
structure RegistersReset (t : State) : Prop where
  irqEn : t.irqEn = false
  busy : t.busy = false
  done : t.done = false
  err : t.err = false
  wrDrop : t.wrDrop = false
  cmdDrop : t.cmdDrop = false
  validL : t.validL = false
  validS : t.validS = false
  errCode : t.errCode = 0
  cmd : t.cmd = 0
  roundsL : t.roundsL = 0
  roundsS : t.roundsS = 0
  rclenL : t.rclenL = 0
  rclenS : t.rclenS = 0
  klen : t.klen = 0
  sreg : t.sreg = ⟨0, 0, 0, 0⟩
  mkey : t.mkey = ⟨0, 0, 0, 0⟩
  nonce : t.nonce = 0
  tag : t.tag = 0
  pending : t.pending = none
  rest : AtRest t
  hRdata : t.hRdata = 0

/-! ### Reachable states -/

/-- The bits of a slot register above its storage words are 0 (R33). -/
def fitsSlot (f : Field) (r : Raw) : Bool := decide (r.toNat < 2 ^ (32 * fieldWords f))

/-- The addresses of the banks' storage bytes (R33, R61). -/
def storageAddr (f : Field) (a : Nat) : Bool :=
  decide (0x8000 ≤ a) && decide (a < 0x30000) && decide (a % 32 < 4 * fieldWords f)

/-- Every storage byte of a bank slot has been written since the last reset (R50, R262). -/
def slotSpecified (s : State) (b : Bank) (j : Nat) : Prop :=
  ∀ k < 4 * fieldWords s.field, (Memory.byteAt s.mem (slotAddr b j + k)).isSome = true

/-- A permutation instance as COMMIT_x checks it (R120, R121). -/
def Committed (s : State) (x : Sel) : Prop :=
  1 ≤ s.rounds x ∧ s.rounds x ≤ Config.maxRounds ∧ s.rclen x = 4 * s.rounds x ∧
    ∀ j < s.rclen x, canonical s.field (slotNat s (rcBank x) j) = true

/-- The sequencer's phases of a command (R131, R163, R184). -/
def PhaseLegal (s : State) (i : Instr) : Prop :=
  match s.phase with
  | .idle => False
  | .perm => (i = .permL ∧ s.sel = .large) ∨ (i = .permS ∧ s.sel = .small)
  | .boot => s.sel = .large ∧ s.outs = [] ∧ ∃ m, i = .schedule m ∨ i = .encrypt m ∨ i = .decrypt m
  | .block => s.sel = .small ∧ s.outs.length = s.blk ∧ ∃ m, s.blk < m ∧ (i = .encrypt m ∨ i = .decrypt m)
  | .tagging => s.sel = .large ∧ ∃ m, s.outs.length = m ∧ (i = .encrypt m ∨ i = .decrypt m)

/-- A command begun and not completed: its word passed its checks, the counters are in range and the hidden state holds
elements (R48, R126). -/
structure Running (s : State) (i : Instr) : Prop where
  command : commandOf s = some i
  checked : check i s = .ok
  phase : PhaseLegal s i
  round : s.round < s.rounds s.sel
  t : quadCanonical s.field s.t = true
  rr : quadCanonical s.field s.rr = true
  acc : quadCanonical s.field s.acc = true
  outs : ∀ v ∈ s.outs, canonical s.field v = true

/-- The invariant of the machine (R48, R50, R123, R221). -/
structure Inv (s : State) : Prop where
  /-- The instance's field is legal (R7). -/
  field : Config.fieldWf s.field = true
  /-- `busy = pending.isSome` (R50). -/
  busy : s.busy = s.pending.isSome
  /-- Nothing begun without a pending word (R48). -/
  begun : s.pending = none → s.phase = .idle
  /-- The hidden state is zero outside a command's run (R48). -/
  rest : s.phase = .idle → AtRest s
  /-- What holds inside a command's run. -/
  running : s.phase ≠ .idle → ∃ i, Running s i
  /-- The memory's canonical form, over storage bytes only (R33). -/
  memForm : Memory.wf s.mem = true
  memPlace : ∀ c ∈ s.mem, storageAddr s.field c.1 = true
  /-- The slot registers hold storage words only (R33). -/
  sreg : ∀ r ∈ quadList s.sreg, fitsSlot s.field r = true
  mkey : ∀ r ∈ quadList s.mkey, fitsSlot s.field r = true
  nonce : fitsSlot s.field s.nonce = true
  /-- `tag`, and every slot of DOUT and EK that is specified, is canonical (R33, R50). -/
  tag : canonical s.field s.tag.toNat = true
  outputs : ∀ b, b = .dout ∨ b = .ek → ∀ j < 1024, slotSpecified s b j → canonical s.field (slotNat s b j) = true
  /-- A VALID permutation is one that COMMIT_x checked (R123). -/
  committed : ∀ x, s.valid x = true → Committed s x
  /-- Codes 7 to 15 are never produced (R221). -/
  errCode : s.errCode.toNat ≤ 6

end Sys2Proof.Machine
end

