-- ==== Sys2Proof/Certificates/Slice0/Obligations.lean ====
section
/-! DEFINITION. The statements for the provers. Each is a statement about every state (or every state that meets the named
invariant), cites the rules of spec/ it formalises in OBLIGATIONS.json, and proves nothing. -/

open Sys2Proof Sys2Proof.Machine

/-! ## The command word -/

/-- The encoder of R90 and R93 loses no bit of a command: every well-formed command decodes back from its word, and from
its four bytes with any bytes after it. -/
def Obligations.DecodeOfEncodeIsTheCommand : Prop :=
  ∀ i : Instr, i.wf = true →
    decode (encode i) = .command i ∧
      ∀ rest : List Byte, decodeBytes (bytesOfWord (encode i) ++ rest) = (.command i, rest)

/-- Decoding, total on every word, as R101 gives it over the fields of R90 (OP = bits 7:0, RSV = bits 15:8, LEN = bits
31:16), and injective on the words that are not Illegal. -/
def Obligations.DecodeFollowsTheOpcodeMap : Prop :=
  (∀ w : Word,
    let op := w.toNat % 256
    let rsv := w.toNat / 256 % 256
    let len := w.toNat / 65536
    (rsv ≠ 0 → ∃ y, decode w = .illegal y) ∧
    (rsv = 0 → 0x0A < op → ∃ y, decode w = .illegal y) ∧
    (rsv = 0 → op = 0x07 → decode w = .command (.schedule len)) ∧
    (rsv = 0 → op = 0x08 → decode w = .command (.encrypt len)) ∧
    (rsv = 0 → op = 0x09 → decode w = .command (.decrypt len)) ∧
    (rsv = 0 → op < 0x07 ∨ op = 0x0A → len ≠ 0 → ∃ y, decode w = .illegal y) ∧
    (rsv = 0 → len = 0 →
      (op = 0x00 → decode w = .command .nop) ∧
      (op = 0x01 → decode w = .command .commitL) ∧
      (op = 0x02 → decode w = .command .commitS) ∧
      (op = 0x03 → decode w = .command .permL) ∧
      (op = 0x04 → decode w = .command .permS) ∧
      (op = 0x05 → decode w = .command .roll) ∧
      (op = 0x06 → decode w = .command .keystate) ∧
      (op = 0x0A → decode w = .command .zeroize))) ∧
  ∀ (w w' : Word) (i : Instr), decode w = .command i → decode w' = .command i → w = w'

/-- The words of R104, decoded and encoded. -/
def Obligations.ExampleWordsDecodeAndEncode : Prop :=
  decode 0x00000000 = .command .nop ∧ decode 0x00000001 = .command .commitL ∧
  decode 0x00000004 = .command .permS ∧ decode 0x00030007 = .command (.schedule 3) ∧
  decode 0x00020008 = .command (.encrypt 2) ∧ decode 0x04000009 = .command (.decrypt 1024) ∧
  decode 0x00000008 = .command (.encrypt 0) ∧ decode 0x0000000A = .command .zeroize ∧
  decode 0x0000000B = .illegal .reservedOpcode ∧ decode 0x00000108 = .illegal .reservedField ∧
  decode 0x00010003 = .illegal .lengthNotAllowed ∧
  encode (.schedule 3) = 0x00030007 ∧ encode (.decrypt 1024) = 0x04000009

/-! ## The life of a command -/

/-- A host write to CMD is accepted by an idle engine and dropped by a busy one (R241). -/
def Obligations.CommandWriteAcceptedOrDropped : Prop :=
  ∀ (s : State) (off : Offset) (w : Word), off.toNat / 4 = 5 →
    (s.busy = false →
      hostWrite off w s = { s with cmd := w, pending := some w, busy := true, done := false }) ∧
    (s.busy = true → hostWrite off w s = { s with cmdDrop := true })

/-- When the engine moves (its turn is next, or no other move is left) and the accepted word decodes to a command not yet
begun, the step is that command's meaning. The round-function unit is live (log entry 5). -/
def Obligations.StepRunsTheDecodedCommand : Prop :=
  ∀ (s : State) (w : Word) (i : Instr),
    s.specified = true → s.rfu.silent = false → s.phase = .idle → s.pending = some w → decode w = .command i →
    (s.schedule = [] → step s = exec i s) ∧
    ∀ ms, s.schedule = .engine :: ms → step s = exec i { s with schedule := ms }

/-- A reserved opcode, RSV ≠ 0, or LEN ≠ 0 with an opcode that takes no length: the idle engine accepts the word and the
command completes with code 4, changing STATUS (and CMD, R26) only. -/
def Obligations.IllegalWordCompletesWithIllegalCommand : Prop :=
  ∀ (s : State) (w : Word),
    s.specified = true → s.rstN = true → s.busy = false → s.pending = none → AtRest s →
    (0x0A < w.toNat % 256 ∨ w.toNat / 256 % 256 ≠ 0 ∨
      ((w.toNat % 256 < 0x07 ∨ w.toNat % 256 = 0x0A) ∧ w.toNat / 65536 ≠ 0)) →
    step { s with schedule := [.write 0x14 w] } =
        .next { s with cmd := w, pending := some w, busy := true, done := false, schedule := [] } ∧
      step { s with cmd := w, pending := some w, busy := true, done := false, schedule := [] } =
        .next { s with cmd := w, errCode := 4, err := true, done := true, schedule := [] }

/-- Every command, in every state, completes: the completion fields of R242 with one of the codes 0 to 6, the hidden state
at rest (R48), and the sticky and control bits that no command writes as they were (R47). -/
def Obligations.EveryCommandCompletes : Prop :=
  ∀ (i : Instr) (s : State), ∃ t, exec i s = .next t ∧
    t.errCode.toNat ≤ 6 ∧ t.err = (s.err || t.errCode != 0) ∧ t.busy = false ∧ t.done = true ∧ t.pending = none ∧
    AtRest t ∧ t.wrDrop = s.wrDrop ∧ t.cmdDrop = s.cmdDrop ∧ t.irqEn = s.irqEn ∧ t.cmd = s.cmd ∧
    (i = .commitL → t.validL = decide (t.errCode = 0)) ∧ (i ≠ .commitL → t.validL = s.validL) ∧
    (i = .commitS → t.validS = decide (t.errCode = 0)) ∧ (i ≠ .commitS → t.validS = s.validS)

/-- What no command writes (R94, R123): the instance's field, the round counts and table lengths, both round-constant banks, and
(but for ZEROIZE) KLEN, MK, NONCE and DIN. -/
def Obligations.CommandsKeepTablesAndInputs : Prop :=
  ∀ (i : Instr) (s t : State), Config.fieldWf s.field = true → exec i s = .next t →
    t.field = s.field ∧ t.roundsL = s.roundsL ∧ t.roundsS = s.roundsS ∧ t.rclenL = s.rclenL ∧
    t.rclenS = s.rclenS ∧ t.hRdata = s.hRdata ∧ t.rstN = s.rstN ∧ t.past = s.past ∧ t.schedule = s.schedule ∧
    (∀ a, a < 0x18000 → bankByte t a = bankByte s a) ∧
    (i ≠ .zeroize → t.klen = s.klen ∧ t.mkey = s.mkey ∧ t.nonce = s.nonce ∧
      ∀ a, a < 0x20000 → bankByte t a = bankByte s a)

/-- A command that fails a check, or an illegal word, writes the completion fields and, for COMMIT_x, `VALID_x ← 0`, and
makes no request (R230). -/
def Obligations.StartErrorsWriteOnlyCompletionFields : Prop :=
  (∀ (i : Instr) (s : State) (c : ResultCode), AtRest s → check i s = c → c ≠ .ok →
    exec i s = .next (completionFields c.code
      { s with
        validL := s.validL && decide (i ≠ .commitL)
        validS := s.validS && decide (i ≠ .commitS) })) ∧
  ∀ (s : State) (w : Word) (y : IllegalWord), AtRest s → s.pending = some w → decode w = .illegal y →
    engineTurn s = .next (completionFields 4 s)

/-- One code per command, that of the first check that fails, in the order of R228: the word, length, dimension,
configuration, then element operands (R222 to R226, R229); past them all the code is 0, or 6 for a command that makes round
requests. -/
def Obligations.FirstFailingCheckGivesTheCode : Prop :=
  (∀ (s : State) (w : Word) (y : IllegalWord), s.phase = .idle → s.pending = some w → decode w = .illegal y →
    ∃ t, engineTurn s = .next t ∧ t.errCode = 4) ∧
  ∀ (i : Instr) (s t : State), exec i s = .next t →
    let sOk := ∀ r ∈ quadList s.sreg, r.toNat < fieldCard s.field
    let tableL := 1 ≤ s.roundsL.toNat ∧ s.roundsL.toNat ≤ 256 ∧ s.rclenL.toNat = 4 * s.roundsL.toNat
    let tableS := 1 ≤ s.roundsS.toNat ∧ s.roundsS.toNat ≤ 256 ∧ s.rclenS.toNat = 4 * s.roundsS.toNat
    let rcOk (b : Bank) (n : Nat) := ∀ j < n, slotNat s b j < fieldCard s.field
    match i with
    | .nop | .zeroize => t.errCode = 0
    | .roll => (sOk → t.errCode = 0) ∧ (¬ sOk → t.errCode = 3)
    | .commitL =>
      (¬ tableL → t.errCode = 1) ∧ (tableL → ¬ rcOk .rcL s.rclenL.toNat → t.errCode = 3) ∧
        (tableL → rcOk .rcL s.rclenL.toNat → t.errCode = 0)
    | .commitS =>
      (¬ tableS → t.errCode = 1) ∧ (tableS → ¬ rcOk .rcS s.rclenS.toNat → t.errCode = 3) ∧
        (tableS → rcOk .rcS s.rclenS.toNat → t.errCode = 0)
    | .permL =>
      (s.validL = false → t.errCode = 1) ∧ (s.validL = true → ¬ sOk → t.errCode = 3) ∧
        (s.validL = true → sOk → t.errCode = 0 ∨ t.errCode = 6)
    | .permS =>
      (s.validS = false → t.errCode = 1) ∧ (s.validS = true → ¬ sOk → t.errCode = 3) ∧
        (s.validS = true → sOk → t.errCode = 0 ∨ t.errCode = 6)
    | .keystate =>
      (4 < s.klen.toNat → t.errCode = 2) ∧ (s.klen.toNat ≤ 4 → ¬ KeyCanonical s → t.errCode = 3) ∧
        (s.klen.toNat ≤ 4 → KeyCanonical s → t.errCode = 0)
    | .schedule n =>
      (1024 < n → t.errCode = 5) ∧ (n ≤ 1024 → s.validL = false → t.errCode = 1) ∧
        (n ≤ 1024 → s.validL = true → ¬ sOk → t.errCode = 3) ∧
        (n ≤ 1024 → s.validL = true → sOk → t.errCode = 0 ∨ t.errCode = 6)
    | .encrypt m | .decrypt m =>
      (1024 < m → t.errCode = 5) ∧ (m ≤ 1024 → 4 < s.klen.toNat → t.errCode = 2) ∧
        (m ≤ 1024 → s.klen.toNat ≤ 4 → ¬ (s.validL = true ∧ s.validS = true) → t.errCode = 1) ∧
        (m ≤ 1024 → s.klen.toNat ≤ 4 → s.validL = true → s.validS = true →
          ¬ (KeyCanonical s ∧ rcOk .din m) → t.errCode = 3) ∧
        (TransformReady s m → t.errCode = 0 ∨ t.errCode = 6)

/-! ## The commands -/

/-- NOP, the word 0, does nothing but complete with code 0 (R210). -/
def Obligations.NopOnlyCompletes : Prop :=
  decode 0x00000000 = .command .nop ∧ ∀ s : State, AtRest s →
    exec .nop s = .next { s with errCode := 0, busy := false, done := true, pending := none }

/-- COMMIT_L: VALID_L is set exactly when the round count, the declared length and every entry pass; a bad configuration
is code 1 and is found before a bad entry, code 3; nothing but STATUS changes (R121). -/
def Obligations.CommitLConstructsOrFails : Prop :=
  decode 0x00000001 = .command .commitL ∧ ∀ s : State, AtRest s →
    let table := 1 ≤ s.roundsL.toNat ∧ s.roundsL.toNat ≤ 256 ∧ s.rclenL.toNat = 4 * s.roundsL.toNat
    let entries := ∀ j < s.rclenL.toNat, slotNat s .rcL j < fieldCard s.field
    (table → entries → exec .commitL s = .next (completionFields 0 { s with validL := true })) ∧
    (¬ table → exec .commitL s = .next (completionFields 1 { s with validL := false })) ∧
    (table → ¬ entries → exec .commitL s = .next (completionFields 3 { s with validL := false }))

/-- COMMIT_S: as COMMIT_L, over ROUNDS_S, RCLEN_S, RC_S and VALID_S (R122). -/
def Obligations.CommitSConstructsOrFails : Prop :=
  decode 0x00000002 = .command .commitS ∧ ∀ s : State, AtRest s →
    let table := 1 ≤ s.roundsS.toNat ∧ s.roundsS.toNat ≤ 256 ∧ s.rclenS.toNat = 4 * s.roundsS.toNat
    let entries := ∀ j < s.rclenS.toNat, slotNat s .rcS j < fieldCard s.field
    (table → entries → exec .commitS s = .next (completionFields 0 { s with validS := true })) ∧
    (¬ table → exec .commitS s = .next (completionFields 1 { s with validS := false })) ∧
    (table → ¬ entries → exec .commitS s = .next (completionFields 3 { s with validS := false }))

/-- PERM_L (R131): under the contract of the round-function unit S becomes `P_L(S)` (R124, R125), by ROUNDS_L requests in
order, each with `rf_sel = 0` (R129), and nothing else but STATUS changes; without a committed large permutation it is
ConfigError, with an S that holds a non-element FieldMismatch, and after a RoundFault S is all zero. -/
def Obligations.PermLAppliesTheLargePermutation : Prop :=
  decode 0x00000003 = .command .permL ∧ ∀ s : State, AtRest s → Config.fieldWf s.field = true →
    let elements := ∀ r ∈ quadList s.sreg, r.toNat < fieldCard s.field
    (s.validL = true → elements → Honest s.rfu →
      let p := permutation s .large (quadMap BitVec.toNat s.sreg)
      quadCanonical s.field p = true ∧
      exec .permL s = .next (completionFields 0
        { s with
          sreg := quadMap (BitVec.ofNat 256) p
          rfu := afterRequests s.rfu (permRequests s .large (quadMap BitVec.toNat s.sreg)) })) ∧
    (s.validL = false → exec .permL s = .next (completionFields 1 s)) ∧
    (s.validL = true → ¬ elements → exec .permL s = .next (completionFields 3 s)) ∧
    ∀ t, exec .permL s = .next t → t.errCode = 6 → t.sreg = ⟨0, 0, 0, 0⟩

/-- PERM_S: as PERM_L for the small permutation (R132). -/
def Obligations.PermSAppliesTheSmallPermutation : Prop :=
  decode 0x00000004 = .command .permS ∧ ∀ s : State, AtRest s → Config.fieldWf s.field = true →
    let elements := ∀ r ∈ quadList s.sreg, r.toNat < fieldCard s.field
    (s.validS = true → elements → Honest s.rfu →
      let p := permutation s .small (quadMap BitVec.toNat s.sreg)
      quadCanonical s.field p = true ∧
      exec .permS s = .next (completionFields 0
        { s with
          sreg := quadMap (BitVec.ofNat 256) p
          rfu := afterRequests s.rfu (permRequests s .small (quadMap BitVec.toNat s.sreg)) })) ∧
    (s.validS = false → exec .permS s = .next (completionFields 1 s)) ∧
    (s.validS = true → ¬ elements → exec .permS s = .next (completionFields 3 s)) ∧
    ∀ t, exec .permS s = .next t → t.errCode = 6 → t.sreg = ⟨0, 0, 0, 0⟩

/-- A command whose checks pass ends with RoundFault exactly when one of the responses to its requests has a non-canonical
coordinate (R128, R227), whatever the other responses are: `n` is how many requests it makes when none has. And with that
response to request `k`, and those before it the contract's, the requests made are the first `k + 1` of the command, in
whichever phase `k` falls, no further one follows, and the destinations are zeroed (R129, R131, R163, R184, R231). The port
carries `W` bits of each scripted coordinate (R126; log entry 5). -/
def Obligations.RoundFaultIffANonCanonicalResponse : Prop :=
  (∀ (i : Instr) (s t : State), Config.fieldWf s.field = true → check i s = .ok → exec i s = .next t →
    let n := (commandRequests i s).length
    t.errCode = 6 ↔ ∃ q, some q ∈ s.rfu.script.take n ∧ BadAnswer s.field q) ∧
  ∀ (i : Instr) (s : State) (k : Nat) (q : Quad Raw) (rest : List (Option (Quad Raw))),
    AtRest s → Config.fieldWf s.field = true → check i s = .ok → k < (commandRequests i s).length →
    s.rfu.script = List.replicate k none ++ some q :: rest → BadAnswer s.field q →
    exec i s = .next (completionFields 6 (zeroDestinations i
      { s with
        rfu := { s.rfu with script := rest, trace := s.rfu.trace ++ (commandRequests i s).take (k + 1) } }))

/-- ROLL: S becomes (S3 + S0·S1, S0, S1, S2) in the field, whether or not a permutation is committed and with no request
(R150, R152); with an S that holds a non-element it is FieldMismatch. -/
def Obligations.RollAdvancesTheStateRegister : Prop :=
  decode 0x00000005 = .command .roll ∧ ∀ s : State, AtRest s → Config.fieldWf s.field = true →
    let elements := ∀ r ∈ quadList s.sreg, r.toNat < fieldCard s.field
    let v := fieldAdd s.field s.sreg.c3.toNat (fieldMul s.field s.sreg.c0.toNat s.sreg.c1.toNat)
    (elements → v < fieldCard s.field ∧
      exec .roll s = .next (completionFields 0
        { s with sreg := ⟨BitVec.ofNat 256 v, s.sreg.c0, s.sreg.c1, s.sreg.c2⟩ })) ∧
    (¬ elements → exec .roll s = .next (completionFields 3 s))

/-- The rolling function is invertible (R153), and the all-zero state is its fixed point (R154). -/
def Obligations.RollIsInvertibleAndFixesZero : Prop :=
  ∀ (f : Field) (q : Quad Elem), Config.fieldWf f = true → quadCanonical f q = true →
    unroll f (roll f q) = q ∧ roll f (unroll f q) = q ∧ roll f (fillQuad 0) = fillQuad 0

/-- KEYSTATE: key element `j` at coordinate `j` for `j < KLEN`, zero above, and the nonce added at coordinate 3; KLEN = 0
is legal, and MK slots from KLEN on are not looked at; KLEN above 4 is DimensionError, and a non-element among the operands
FieldMismatch (R160, R161). -/
def Obligations.KeystateBuildsTheKeyState : Prop :=
  decode 0x00000006 = .command .keystate ∧ ∀ s : State, AtRest s → Config.fieldWf s.field = true →
    let k := s.klen.toNat
    let last := if k = 4 then fieldAdd s.field s.mkey.c3.toNat s.nonce.toNat else s.nonce.toNat
    (k ≤ 4 → KeyCanonical s → last < fieldCard s.field ∧
      exec .keystate s = .next (completionFields 0
        { s with
          sreg := ⟨if 0 < k then s.mkey.c0 else 0, if 1 < k then s.mkey.c1 else 0, if 2 < k then s.mkey.c2 else 0,
            BitVec.ofNat 256 last⟩ })) ∧
    (4 < k → exec .keystate s = .next (completionFields 2 s)) ∧
    (k ≤ 4 → ¬ KeyCanonical s → exec .keystate s = .next (completionFields 3 s))

/-- SCHEDULE n under the contract: `EK[j] = (ROLL^j(P_L(S)))[0]` for `j < n`; every other byte of every bank, S and all
registers but STATUS are unchanged; exactly ROUNDS_L requests are made (R162 to R164, R166). -/
def Obligations.ScheduleExpandsTheKey : Prop :=
  ∀ (s : State) (n : Nat), AtRest s → Config.fieldWf s.field = true → Honest s.rfu → n ≤ 1024 → s.validL = true →
    (∀ r ∈ quadList s.sreg, r.toNat < fieldCard s.field) →
    let ks := quadMap BitVec.toNat s.sreg
    ∃ mem, exec (.schedule n) s = .next (completionFields 0
        { s with mem := mem, rfu := afterRequests s.rfu (permRequests s .large ks) }) ∧
      (∀ j < n, slotNat { s with mem := mem } .ek j = ((roll s.field)^[j] (permutation s .large ks)).c0) ∧
      ∀ a, OutsideSlots s .ek n a → bankByte { s with mem := mem } a = bankByte s a

/-- SCHEDULE 0 still runs the bootstrap permutation, and writes no slot (R165). -/
def Obligations.ScheduleOfLengthZeroRunsThePermutation : Prop :=
  ∀ s : State, AtRest s → Config.fieldWf s.field = true → Honest s.rfu → s.validL = true →
    (∀ r ∈ quadList s.sreg, r.toNat < fieldCard s.field) →
    exec (.schedule 0) s = .next (completionFields 0
      { s with rfu := afterRequests s.rfu (permRequests s .large (quadMap BitVec.toNat s.sreg)) })

/-- ENCRYPT m under the contract: `DOUT[i] = DIN[i] +F z_i` for `i < m`, TAG the tag over the message; every other byte of
every bank and every register but TAG and STATUS is unchanged (R180 to R183). -/
def Obligations.EncryptComputesCiphertextAndTag : Prop :=
  ∀ (s : State) (m : Nat), AtRest s → Config.fieldWf s.field = true → Honest s.rfu → TransformReady s m →
    let msg := slotNat s .din
    tagOf s msg m < fieldCard s.field ∧
    ∃ mem, exec (.encrypt m) s = .next (completionFields 0
        { s with
          mem := mem
          tag := BitVec.ofNat 256 (tagOf s msg m)
          rfu := afterRequests s.rfu (transformRequests s msg m) }) ∧
      (∀ i < m, slotNat { s with mem := mem } .dout i = fieldAdd s.field (slotNat s .din i) (mask s i)) ∧
      ∀ a, OutsideSlots s .dout m a → bankByte { s with mem := mem } a = bankByte s a

/-- DECRYPT m under the contract: `DOUT[i] = DIN[i] -F z_i` for `i < m`, TAG the tag over the recovered message; nothing
else changes (R186). -/
def Obligations.DecryptRecoversMessageAndTag : Prop :=
  ∀ (s : State) (m : Nat), AtRest s → Config.fieldWf s.field = true → Honest s.rfu → TransformReady s m →
    let msg := fun i => fieldSub s.field (slotNat s .din i) (mask s i)
    tagOf s msg m < fieldCard s.field ∧
    ∃ mem, exec (.decrypt m) s = .next (completionFields 0
        { s with
          mem := mem
          tag := BitVec.ofNat 256 (tagOf s msg m)
          rfu := afterRequests s.rfu (transformRequests s msg m) }) ∧
      (∀ i < m, slotNat { s with mem := mem } .dout i = msg i) ∧
      ∀ a, OutsideSlots s .dout m a → bankByte { s with mem := mem } a = bankByte s a

/-- Round trip (R187): after an ENCRYPT m that completed with code 0, a DECRYPT m with the same key, nonce and committed
configuration whose DIN holds that ciphertext completes with code 0, gives back the message in DOUT and the same TAG. -/
def Obligations.DecryptUndoesEncrypt : Prop :=
  ∀ (s t u : State) (m : Nat),
    Config.fieldWf s.field = true → Honest s.rfu → exec (.encrypt m) s = .next t → t.errCode = 0 →
    Honest u.rfu → u.field = s.field → u.klen = s.klen → u.nonce = s.nonce →
    (∀ j < s.klen.toNat, quadGet u.mkey j = quadGet s.mkey j) →
    (∀ x, u.valid x = s.valid x ∧ u.rounds x = s.rounds x ∧
      ∀ j < 4 * s.rounds x, slotNat u (rcBank x) j = slotNat s (rcBank x) j) →
    (∀ i < m, slotNat u .din i = slotNat t .dout i) →
    ∃ v, exec (.decrypt m) u = .next v ∧ v.errCode = 0 ∧ v.tag = t.tag ∧
      ∀ i < m, slotNat v .dout i = slotNat s .din i

/-- With no blocks, ENCRYPT and DECRYPT write no slot and the tag is `P_L((K0[0], K0[1], K0[2], K0[3] +F 1))[0]`, a value
of key and nonce alone (R185, R186). -/
def Obligations.EmptyMessageHasATag : Prop :=
  ∀ s : State, AtRest s → Config.fieldWf s.field = true → Honest s.rfu → TransformReady s 0 →
    let k0 := permutation s .large (keyVector s)
    let acc : Quad Elem := ⟨k0.c0, k0.c1, k0.c2, fieldAdd s.field k0.c3 1⟩
    ∀ i, i = .encrypt 0 ∨ i = .decrypt 0 →
      exec i s = .next (completionFields 0
        { s with
          tag := BitVec.ofNat 256 (permutation s .large acc).c0
          rfu := afterRequests s.rfu (permRequests s .large (keyVector s) ++ permRequests s .large acc) })

/-- The requests of ENCRYPT m and DECRYPT m (R184): ROUNDS_L with `rf_sel = 0`, then ROUNDS_S with `rf_sel = 1` per block,
then ROUNDS_L with `rf_sel = 0`, each permutation's rounds from 0 up; in all `2*ROUNDS_L + m*ROUNDS_S`. -/
def Obligations.TransformRequestOrder : Prop :=
  ∀ (s t : State) (m : Nat) (i : Instr), i = .encrypt m ∨ i = .decrypt m →
    Config.fieldWf s.field = true → Honest s.rfu → TransformReady s m → exec i s = .next t →
    ∃ reqs, t.rfu.trace = s.rfu.trace ++ reqs ∧
      reqs.length = 2 * s.rounds .large + m * s.rounds .small ∧
      reqs.map RfRequest.sel = List.replicate (s.rounds .large) .large ++
        List.replicate (m * s.rounds .small) .small ++ List.replicate (s.rounds .large) .large ∧
      reqs.map RfRequest.round = List.range (s.rounds .large) ++
        (List.replicate m (List.range (s.rounds .small))).flatten ++ List.range (s.rounds .large)

/-- A command that ends with RoundFault zeroes its destinations and changes no other slot or register but STATUS (R231). -/
def Obligations.RoundFaultZeroesDestinations : Prop :=
  ∀ (i : Instr) (s t : State), AtRest s → Config.fieldWf s.field = true → exec i s = .next t → t.errCode = 6 →
    match i with
    | .permL | .permS => t = completionFields 6 { s with sreg := fillQuad 0, rfu := t.rfu }
    | .schedule n =>
      t = completionFields 6 { s with mem := t.mem, rfu := t.rfu } ∧ (∀ j < n, slotNat t .ek j = 0) ∧
        ∀ a, OutsideSlots s .ek n a → bankByte t a = bankByte s a
    | .encrypt m | .decrypt m =>
      t = completionFields 6 { s with mem := t.mem, tag := 0, rfu := t.rfu } ∧ (∀ j < m, slotNat t .dout j = 0) ∧
        ∀ a, OutsideSlots s .dout m a → bankByte t a = bankByte s a
    | .nop | .commitL | .commitS | .roll | .keystate | .zeroize => False

/-- ZEROIZE: S, MK, NONCE, TAG and KLEN are 0, and every slot of DIN, DOUT and EK; the round-constant banks, the
configuration, VALID bits, CTRL and the sticky bits stay (R211). -/
def Obligations.ZeroizeClearsTheSecrets : Prop :=
  decode 0x0000000A = .command .zeroize ∧ ∀ s : State, AtRest s → Config.fieldWf s.field = true →
    ∃ mem, exec .zeroize s = .next (completionFields 0
        { s with
          mem := mem, sreg := ⟨0, 0, 0, 0⟩, mkey := ⟨0, 0, 0, 0⟩, nonce := 0, tag := 0, klen := 0 }) ∧
      (∀ b, b = .din ∨ b = .dout ∨ b = .ek → ∀ j < 1024, slotNat { s with mem := mem } b j = 0) ∧
      ∀ a, a < 0x18000 → bankByte { s with mem := mem } a = bankByte s a

/-! ## What results depend on -/

/-- ENCRYPT and DECRYPT neither read nor write S and the EK bank (R188): from two states that differ only there, the same
code, TAG and DOUT; both are left as they were, and the hidden state is at rest afterwards. (`rounds ≤ 256` holds of every
committed permutation, R121.) -/
def Obligations.TransformIgnoresAndKeepsSAndEk : Prop :=
  ∀ (s t t' : State) (m : Nat) (i : Instr) (q : Quad Raw) (mem : Memory), i = .encrypt m ∨ i = .decrypt m →
    Config.fieldWf s.field = true → (∀ x, s.valid x = true → s.rounds x ≤ 256) →
    (∀ a, a < 0x28000 → bankByte { s with mem := mem } a = bankByte s a) →
    exec i s = .next t → exec i { s with sreg := q, mem := mem } = .next t' →
    AtRest t ∧ t.sreg = s.sreg ∧ (∀ a, 0x28000 ≤ a → bankByte t a = bankByte s a) ∧
      t'.errCode = t.errCode ∧ t'.tag = t.tag ∧ t'.rfu = t.rfu ∧ ∀ a, a < 0x28000 → bankByte t' a = bankByte t a

/-- Determinism (R189): two successful runs with the same key, nonce, input blocks and committed configuration, under the
contract, give the same output blocks and tag, whatever else differs between the states. -/
def Obligations.TransformIsDeterminedByItsOperands : Prop :=
  ∀ (s s' t t' : State) (m : Nat) (i : Instr), i = .encrypt m ∨ i = .decrypt m →
    Config.fieldWf s.field = true → Honest s.rfu → Honest s'.rfu → s'.field = s.field → s'.klen = s.klen →
    s'.nonce = s.nonce → (∀ j < s.klen.toNat, quadGet s'.mkey j = quadGet s.mkey j) →
    (∀ x, s'.rounds x = s.rounds x ∧ ∀ j < 4 * s.rounds x, slotNat s' (rcBank x) j = slotNat s (rcBank x) j) →
    (∀ j < m, slotNat s' .din j = slotNat s .din j) →
    exec i s = .next t → exec i s' = .next t' → t.errCode = 0 → t'.errCode = 0 →
    t'.tag = t.tag ∧ ∀ j < m, slotNat t' .dout j = slotNat t .dout j

/-- PERM_x gives the same S from the same S and the same committed instance, whatever else differs (R134). -/
def Obligations.PermIsDeterminedByItsOperands : Prop :=
  ∀ (s s' t t' : State) (x : Sel) (i : Instr), (x = .large ∧ i = .permL) ∨ (x = .small ∧ i = .permS) →
    Config.fieldWf s.field = true → Honest s.rfu → Honest s'.rfu → s'.field = s.field → s'.sreg = s.sreg →
    s'.valid x = s.valid x → s'.rounds x = s.rounds x →
    (∀ j < 4 * s.rounds x, slotNat s' (rcBank x) j = slotNat s (rcBank x) j) →
    exec i s = .next t → exec i s' = .next t' → t'.sreg = t.sreg ∧ t'.errCode = t.errCode

/-- If `MIX(x, ·, rc)` is a bijection of state vectors for every `rc`, so is `P_x` (R135). -/
def Obligations.BijectiveRoundsGiveABijectivePermutation : Prop :=
  ∀ (s : State) (x : Sel), Config.fieldWf s.field = true → Committed s x →
    let states := { q : Quad Elem | quadCanonical s.field q = true }
    (∀ rc ∈ states, Set.BijOn (fun q => mix s.field x q rc) states states) →
    Set.BijOn (permutation s x) states states

/-! ## The host port -/

/-- What the registers read as, busy or not (R21 to R31, R73): constants, flags at their bits, stored fields with their
reserved bits 0. -/
def Obligations.RegisterReads : Prop :=
  ∀ s : State, Config.fieldWf s.field = true →
    hostRead s 0x00 = 0x43490100 ∧
    (hostRead s 0x04).toNat = fieldWidth s.field + (match s.field with | .prime _ => 0 | .binary _ _ => 2 ^ 16) ∧
    hostRead s 0x08 = 0x01000400 ∧
    (hostRead s 0x0C).toNat = s.irqEn.toNat ∧
    (hostRead s 0x10).toNat = s.busy.toNat + 2 * s.done.toNat + 4 * s.err.toNat + 8 * s.wrDrop.toNat +
      16 * s.cmdDrop.toNat + 32 * s.validL.toNat + 64 * s.validS.toNat + 256 * s.errCode.toNat ∧
    hostRead s 0x14 = s.cmd ∧
    (hostRead s 0x18).toNat = s.roundsL.toNat ∧ (hostRead s 0x1C).toNat = s.roundsS.toNat ∧
    (hostRead s 0x20).toNat = s.rclenL.toNat ∧ (hostRead s 0x24).toNat = s.rclenS.toNat ∧
    (hostRead s 0x28).toNat = s.klen.toNat

/-- A word written to a storage word of a writable slot of an idle FPE reads back, and every other location but STATUS
reads as before (R33, R63, R64, R68). In S, MK and NONCE the write replaces raw bits [32w+31:32w] of the slot and changes
nothing else (for the banks: ConfigurationWritesClearValid). -/
def Obligations.SlotWordsReadBack : Prop :=
  (∀ (s : State) (off : Offset) (v : Word), s.busy = false →
    (0x100 ≤ off.toNat ∧ off.toNat < 0x220 ∨ 0x8000 ≤ off.toNat ∧ off.toNat < 0x20000) →
    off.toNat / 4 % 8 < fieldWords s.field →
    hostRead (hostWrite off v s) off = v ∧
    ∀ off' : Offset, off'.toNat / 4 ≠ off.toNat / 4 → off'.toNat / 4 ≠ 4 →
      hostRead (hostWrite off v s) off' = hostRead s off') ∧
  ∀ (s : State) (w : Nat) (v : Word), s.busy = false → Config.fieldWf s.field = true → w < fieldWords s.field →
    let replaced (old new : Raw) := ∀ w' < 8,
      new.toNat / 2 ^ (32 * w') % 2 ^ 32 = if w' = w then v.toNat else old.toNat / 2 ^ (32 * w') % 2 ^ 32
    (∀ j < 4, ∃ q, hostWrite (BitVec.ofNat 18 (0x100 + 0x20 * j + 4 * w)) v s = { s with sreg := q } ∧
      replaced (quadGet s.sreg j) (quadGet q j) ∧ ∀ i < 4, i ≠ j → quadGet q i = quadGet s.sreg i) ∧
    (∀ j < 4, ∃ q, hostWrite (BitVec.ofNat 18 (0x180 + 0x20 * j + 4 * w)) v s = { s with mkey := q } ∧
      replaced (quadGet s.mkey j) (quadGet q j) ∧ ∀ i < 4, i ≠ j → quadGet q i = quadGet s.mkey i) ∧
    ∃ r, hostWrite (BitVec.ofNat 18 (0x200 + 4 * w)) v s = { s with nonce := r } ∧ replaced s.nonce r

/-- While the engine is busy, every slot and bank word reads 0 (R70). -/
def Obligations.BusySlotReadsAreZero : Prop :=
  ∀ (s : State) (off : Offset), s.busy = true →
    (0x100 ≤ off.toNat ∧ off.toNat < 0x240 ∨ 0x8000 ≤ off.toNat ∧ off.toNat < 0x30000) → hostRead s off = 0

/-- While the engine is busy, a write to a configuration register or to a storage word of a writable slot changes nothing
but WR_DROP; a write to a read-only or reserved location changes nothing at all (R71). -/
def Obligations.BusyWritesAreDropped : Prop :=
  ∀ (s : State) (off : Offset) (v : Word), s.busy = true →
    (0x18 ≤ off.toNat ∧ off.toNat < 0x2C → hostWrite off v s = { s with wrDrop := true }) ∧
    ((0x100 ≤ off.toNat ∧ off.toNat < 0x220 ∨ 0x8000 ≤ off.toNat ∧ off.toNat < 0x20000) →
      (off.toNat / 4 % 8 < fieldWords s.field → hostWrite off v s = { s with wrDrop := true }) ∧
      (fieldWords s.field ≤ off.toNat / 4 % 8 → hostWrite off v s = s)) ∧
    ((off.toNat < 0x0C ∨ 0x2C ≤ off.toNat ∧ off.toNat < 0x100 ∨ 0x220 ≤ off.toNat ∧ off.toNat < 0x8000 ∨
      0x20000 ≤ off.toNat) → hostWrite off v s = s)

/-- Reserved offsets and words `w ≥ EW` of a slot read 0 and ignore writes; read-only locations ignore writes; nothing is
raised and WR_DROP does not move (R32, R38, R44, R66). -/
def Obligations.ReservedAndReadOnlyLocations : Prop :=
  ∀ (s : State) (off : Offset) (v : Word),
    ((0x2C ≤ off.toNat ∧ off.toNat < 0x100 ∨ 0x240 ≤ off.toNat ∧ off.toNat < 0x8000 ∨ 0x30000 ≤ off.toNat) →
      hostRead s off = 0 ∧ hostWrite off v s = s) ∧
    ((0x100 ≤ off.toNat ∧ off.toNat < 0x240 ∨ 0x8000 ≤ off.toNat ∧ off.toNat < 0x30000) →
      fieldWords s.field ≤ off.toNat / 4 % 8 → hostRead s off = 0 ∧ hostWrite off v s = s) ∧
    ((off.toNat < 0x0C ∨ 0x220 ≤ off.toNat ∧ off.toNat < 0x240 ∨ 0x20000 ≤ off.toNat) → hostWrite off v s = s)

/-- Bits [1:0] of an offset are ignored: two offsets in one word are one location (R65). -/
def Obligations.OffsetLowBitsAreIgnored : Prop :=
  ∀ (s : State) (off off' : Offset) (v : Word), off.toNat / 4 = off'.toNat / 4 →
    hostRead s off = hostRead s off' ∧ hostWrite off v s = hostWrite off' v s

/-- An accepted write to ROUNDS_x, RCLEN_x or a storage word of RC_x clears VALID_x, whatever the value, and leaves the
other permutation's VALID bit; a write to a word `w ≥ EW` does neither (R27 to R30, R39, R40, R123). A write to a storage
word of a bank leaves the word's four bytes, the lowest address least significant, and every other byte as it was (R63). -/
def Obligations.ConfigurationWritesClearValid : Prop :=
  ∀ (s : State) (off : Offset) (v : Word), s.busy = false →
    let a := off.toNat / 4 * 4
    let written (mem : Memory) := ∀ b, bankByte { s with mem := mem } b =
      if a ≤ b ∧ b < a + 4 then BitVec.ofNat 8 (v.toNat / 256 ^ (b - a)) else bankByte s b
    (off.toNat / 4 = 6 → hostWrite off v s = { s with roundsL := v.setWidth 16, validL := false }) ∧
    (off.toNat / 4 = 7 → hostWrite off v s = { s with roundsS := v.setWidth 16, validS := false }) ∧
    (off.toNat / 4 = 8 → hostWrite off v s = { s with rclenL := v.setWidth 16, validL := false }) ∧
    (off.toNat / 4 = 9 → hostWrite off v s = { s with rclenS := v.setWidth 16, validS := false }) ∧
    (off.toNat / 4 = 10 → hostWrite off v s = { s with klen := v.setWidth 3 }) ∧
    (0x8000 ≤ off.toNat ∧ off.toNat < 0x10000 → off.toNat / 4 % 8 < fieldWords s.field →
      ∃ mem, hostWrite off v s = { s with mem := mem, validL := false } ∧ written mem) ∧
    (0x10000 ≤ off.toNat ∧ off.toNat < 0x18000 → off.toNat / 4 % 8 < fieldWords s.field →
      ∃ mem, hostWrite off v s = { s with mem := mem, validS := false } ∧ written mem) ∧
    (0x18000 ≤ off.toNat ∧ off.toNat < 0x20000 → off.toNat / 4 % 8 < fieldWords s.field →
      ∃ mem, hostWrite off v s = { s with mem := mem } ∧ written mem) ∧
    (0x8000 ≤ off.toNat ∧ off.toNat < 0x20000 → fieldWords s.field ≤ off.toNat / 4 % 8 → hostWrite off v s = s)

/-- A host write to STATUS clears exactly the write-1-to-clear bits written with 1, busy or not; every other bit of the
word is ignored (R25, R72). -/
def Obligations.StatusWriteOneToClear : Prop :=
  ∀ (s : State) (off : Offset) (v : Word), off.toNat / 4 = 4 →
    let t := hostWrite off v s
    t = { s with done := t.done, err := t.err, wrDrop := t.wrDrop, cmdDrop := t.cmdDrop } ∧
    (v.toNat / 2 % 2 = 1 → t.done = false) ∧ (v.toNat / 2 % 2 = 0 → t.done = s.done) ∧
    (v.toNat / 4 % 2 = 1 → t.err = false) ∧ (v.toNat / 4 % 2 = 0 → t.err = s.err) ∧
    (v.toNat / 8 % 2 = 1 → t.wrDrop = false) ∧ (v.toNat / 8 % 2 = 0 → t.wrDrop = s.wrDrop) ∧
    (v.toNat / 16 % 2 = 1 → t.cmdDrop = false) ∧ (v.toNat / 16 % 2 = 0 → t.cmdDrop = s.cmdDrop)

/-- A host write to CTRL, busy or not: without bit 1 it stores IRQ_EN; with bit 1 it resets the whole FPE, whatever bit 0
is (R24, R72, R261, R263). The banks hold the free values of a new epoch (R262; log entry 3). -/
def Obligations.ControlWriteStoresOrResets : Prop :=
  ∀ (s : State) (off : Offset) (v : Word), off.toNat / 4 = 3 →
    (v.toNat / 2 % 2 = 0 → hostWrite off v s = { s with irqEn := decide (v.toNat % 2 = 1) }) ∧
    (v.toNat / 2 % 2 = 1 →
      let t := hostWrite off v s
      RegistersReset t ∧ t.field = s.field ∧ t.rfu = s.rfu ∧ t.schedule = s.schedule ∧
        ∀ a, bankByte t a = Config.unwrittenByte ((s.specified, s.mem) :: s.past) a)

/-- A completed host read changes no state but the read data: no register, flag, slot or bank byte, so that a second
read returns the same word (R67). -/
def Obligations.HostReadsHaveNoSideEffect : Prop :=
  (∀ (s : State) (off : Offset) (ms : List Move), s.specified = true → s.rstN = true → s.schedule = .read off :: ms →
    step s = .next { s with hRdata := hostRead s off, schedule := ms }) ∧
  ∀ (s : State) (off : Offset) (v : Word) (ms : List Move),
    hostRead { s with hRdata := v, schedule := ms } off = hostRead s off

/-- The interrupt output follows DONE when IRQ_EN is set: every completion raises it, and clearing DONE, clearing IRQ_EN,
an acceptance, or a reset lowers it (R232, R233). -/
def Obligations.InterruptFollowsDone : Prop :=
  (∀ (i : Instr) (s t : State), exec i s = .next t → irq t = s.irqEn) ∧
  (∀ s : State, irq (hostWrite 0x10 0x2 s) = false ∧ irq (hostWrite 0x0C 0x0 s) = false ∧
    irq (hostWrite 0x0C 0x2 s) = false) ∧
  (∀ (s : State) (w : Word), s.busy = false → irq (hostWrite 0x14 w s) = false) ∧
  ∀ s : State, s.done = true → s.irqEn = false → irq s = false ∧ irq (hostWrite 0x0C 0x1 s) = true

/-! ## Reset and power -/

/-- The state right after reset (R263, R264): registers, STATUS and hidden state 0, nothing pending, the engine idle, no
bank slot specified. -/
def Obligations.ResetStateIsTheSpecified : Prop :=
  RegistersReset State.reset ∧ State.reset.mem = [] ∧ State.reset.rstN = true ∧ State.reset.specified = true ∧
    Config.fieldWf State.reset.field = true ∧ (∀ off : Offset, off.toNat / 4 = 4 → hostRead State.reset off = 0)

/-- While `rst_n` is asserted every register and hidden state element holds its reset value, whatever the agents do
(R260). -/
def Obligations.AssertedResetHoldsEverything : Prop :=
  (∀ (s : State) (ms : List Move), s.schedule = .assertReset :: ms →
    ∃ t, step s = .next t ∧ RegistersReset t ∧ t.rstN = false ∧ t.specified = true ∧ t.field = s.field) ∧
  ∀ s t : State, step s = .next t → s.rstN = false → RegistersReset s → t.rstN = false → RegistersReset t

/-- Before the first reset after power-up only the assertion of `rst_n` gives a specified state (R265): any other move of
an agent is stopped by name, and `rst_n` gives the reset registers. -/
def Obligations.NothingRunsBeforeTheFirstReset : Prop :=
  ∀ (s : State) (ms : List Move), s.specified = false →
    (∀ mv, mv ≠ .assertReset → mv ≠ .powerCycle → s.schedule = mv :: ms → step s = .fault .stateUnspecified) ∧
    (s.schedule = [] → step s = .fault .stateUnspecified) ∧
    (s.schedule = .assertReset :: ms → ∃ t, step s = .next t ∧ t.specified = true ∧ RegistersReset t)

/-! ## Invariants -/

/-- The invariant holds right after reset. -/
def Obligations.InvariantHoldsAtReset : Prop := Inv State.reset

/-- Every step keeps the invariant: `busy = pending.isSome`, hidden state at rest outside a run, the memory's form, slots
within their storage words, TAG, DOUT and EK canonical, VALID permutations as COMMIT_x checked them, ERR_CODE at most 6
(R33, R48, R50, R123, R221). -/
def Obligations.StepKeepsTheInvariant : Prop := ∀ s t : State, Inv s → step s = .next t → Inv t

/-- Every step keeps the memory's canonical form, from every state that has it. -/
def Obligations.StepKeepsTheMemoryForm : Prop :=
  ∀ s t : State, Memory.wf s.mem = true → step s = .next t → Memory.wf t.mem = true

/-- The field is fixed at elaboration: no step changes it (R10). -/
def Obligations.FieldNeverChanges : Prop := ∀ s t : State, step s = .next t → t.field = s.field

/-- A committed permutation is immutable (R123): across a step before and after which VALID_x is 1, the round count, the
declared length and every slot of the table are the same. -/
def Obligations.CommittedPermutationIsImmutable : Prop :=
  ∀ (s t : State) (x : Sel), Inv s → step s = .next t → s.valid x = true → t.valid x = true →
    t.rounds x = s.rounds x ∧ t.rclen x = s.rclen x ∧
      ∀ j < 1024, slotNat t (rcBank x) j = slotNat s (rcBank x) j

/-! ## The sequencer and the round-function port -/

/-- A command run round by round (the engine starts it, then requests and responses go one edge a step) ends in exactly the
state its meaning gives in one step, whatever the responses are (R243). -/
def Obligations.RoundByRoundEqualsOneStep : Prop :=
  ∀ (s : State) (w : Word) (i : Instr),
    Inv s → s.specified = true → s.rfu.silent = false → s.schedule = [] → s.phase = .idle → s.pending = some w →
    decode w = .command i →
    ∃ k t, exec i s = .next t ∧ Host.Core.run Sys2Proof.core (k + 1) { s with schedule := [.start] } = .next t

/-- With a live round-function unit and no other move, a pending command completes, from any reachable point of its run
(R244). -/
def Obligations.PendingCommandsComplete : Prop :=
  ∀ s : State, Inv s → s.specified = true → s.rfu.silent = false → s.schedule = [] → s.busy = true →
    ∃ k t, Host.Core.run Sys2Proof.core (k + 1) s = .next t ∧ t.busy = false ∧ t.done = true ∧ t.pending = none

/-- With a unit that never takes a request or never responds, a command that needs it never completes: BUSY stays 1
however long the engine has the turn; a soft reset ends it (R130, R261). So for a command not yet begun, for one at any
point of its run (its request presented, or taken and not answered), and for a unit that falls silent in the run. -/
def Obligations.SilentUnitHangsUntilReset : Prop :=
  let hangs (s : State) := ∀ k, ∃ t, Host.Core.run Sys2Proof.core k s = .next t ∧ t.busy = true ∧
    (hostWrite 0x0C 0x2 t).busy = false ∧ (hostWrite 0x0C 0x2 t).pending = none
  (∀ (s : State) (w : Word) (i : Instr),
    s.specified = true → s.rfu.silent = true → s.schedule = [] → s.phase = .idle → s.busy = true →
    s.pending = some w → decode w = .command i → check i s = .ok →
    (i = .permL ∨ i = .permS ∨ ∃ m, i = .schedule m ∨ i = .encrypt m ∨ i = .decrypt m) → hangs s) ∧
  ∀ s : State, Inv s → s.specified = true → s.phase ≠ .idle →
    (s.rfu.silent = true → s.schedule = [] → hangs s) ∧ (s.schedule = [.rfuFallSilent] → hangs s)

/-- The request signals (R126): 0 while no request is presented; the round in progress while one is; and held stable by
every host transfer but a soft reset. -/
def Obligations.RequestSignalsAreStable : Prop :=
  (∀ s : State, rfReqValid s = false → requestSignals s = ⟨.large, 0, ⟨0, 0, 0, 0⟩, ⟨0, 0, 0, 0⟩⟩) ∧
  (∀ s : State, rfReqValid s = true →
    requestSignals s = ⟨s.sel, s.round, s.t, roundConstants s s.sel s.round⟩) ∧
  ∀ (s t : State) (ms : List Move) (mv : Move), Inv s → rfReqValid s = true → s.schedule = mv :: ms →
    ((∃ off, mv = .read off) ∨ ∃ off v, mv = .write off v ∧ ¬ (off.toNat / 4 = 3 ∧ v.toNat / 2 % 2 = 1)) →
    step s = .next t → rfReqValid t = true ∧ requestSignals t = requestSignals s

/-- A response presented while no request is outstanding is ignored, and a soft reset withdraws a presented request and
forgets an outstanding one (R126, R261). -/
def Obligations.ResponsesWithoutARequestAreIgnored : Prop :=
  (∀ s : State, s.rfOut = false → rfuRespond s = { s with rfu := (rfuRespond s).rfu }) ∧
  ∀ s : State, let t := hostWrite 0x0C 0x2 s
    rfReqValid t = false ∧ t.rfOut = false ∧ rfuRespond t = { t with rfu := (rfuRespond t).rfu } ∧ rfuTake t = t

/-! ## The field unit -/

/-- Prime-field arithmetic is that of integers modulo `p` (R11). -/
def Obligations.PrimeFieldArithmetic : Prop :=
  ∀ (p a b : Nat), 2 ≤ p → a < p → b < p →
    (fieldAdd (.prime p) a b : Int) = ((a : Int) + b) % p ∧ (fieldSub (.prime p) a b : Int) = ((a : Int) - b) % p ∧
      (fieldMul (.prime p) a b : Int) = ((a : Int) * b) % p

/-- Binary-field arithmetic (R12): addition and subtraction are exclusive or; the product is additive in `b`, `a · 1 = a`,
and `a · (x·b)` is `x · (a · b)`: one shift, and `poly` added when the `x^n` term appears. -/
def Obligations.BinaryFieldArithmetic : Prop :=
  ∀ (n poly a b c : Nat), Config.fieldWf (.binary n poly) = true → a < 2 ^ n → b < 2 ^ n → c < 2 ^ n →
    let f := Field.binary n poly
    let timesX (v : Nat) := if 2 ^ n ≤ 2 * v then (2 * v) ^^^ poly else 2 * v
    fieldAdd f a b = a ^^^ b ∧ fieldSub f a b = a ^^^ b ∧ fieldMul f a b < 2 ^ n ∧ fieldMul f a 1 = a ∧
      fieldMul f a (b ^^^ c) = fieldMul f a b ^^^ fieldMul f a c ∧
      (2 * b < 2 ^ n → fieldMul f a (2 * b) = timesX (fieldMul f a b))

/-- The bytes of a bank slot are its raw value, the lowest address least significant, and no other value has them; and when
that value is an element, `fromBytes` of the slot's `4*EW` bytes gives it back (R16, R33, R63, R95). -/
def Obligations.SlotBytesEncodeTheElement : Prop :=
  ∀ (s : State) (b : Bank) (j : Nat), Config.fieldWf s.field = true →
    let n := 4 * fieldWords s.field
    (∀ k < n, bankByte s (slotAddr b j + k) = BitVec.ofNat 8 (slotNat s b j / 256 ^ k)) ∧ slotNat s b j < 256 ^ n ∧
    (slotNat s b j < fieldCard s.field →
      fromBytes s.field ((List.range n).map fun k => bankByte s (slotAddr b j + k)) = slotNat s b j)

/-! ## Reads of slots -/

/-- On an idle machine a host read of storage word `w` of a slot returns raw bits [32w+31:32w] of the slot, for S, MK,
NONCE, TAG and every slot of every bank (R33, R64). -/
def Obligations.IdleSlotReadsGiveTheRawWords : Prop :=
  ∀ (s : State) (w : Nat), s.busy = false → Config.fieldWf s.field = true → w < fieldWords s.field →
    let wordOf (raw : Nat) : Word := BitVec.ofNat 32 (raw / 2 ^ (32 * w) % 2 ^ 32)
    (∀ j < 4, hostRead s (BitVec.ofNat 18 (0x100 + 0x20 * j + 4 * w)) = wordOf (quadGet s.sreg j).toNat) ∧
    (∀ j < 4, hostRead s (BitVec.ofNat 18 (0x180 + 0x20 * j + 4 * w)) = wordOf (quadGet s.mkey j).toNat) ∧
    hostRead s (BitVec.ofNat 18 (0x200 + 4 * w)) = wordOf s.nonce.toNat ∧
    hostRead s (BitVec.ofNat 18 (0x220 + 4 * w)) = wordOf s.tag.toNat ∧
    ∀ j < 1024,
      hostRead s (BitVec.ofNat 18 (0x8000 + 0x20 * j + 4 * w)) = wordOf (slotNat s .rcL j) ∧
      hostRead s (BitVec.ofNat 18 (0x10000 + 0x20 * j + 4 * w)) = wordOf (slotNat s .rcS j) ∧
      hostRead s (BitVec.ofNat 18 (0x18000 + 0x20 * j + 4 * w)) = wordOf (slotNat s .din j) ∧
      hostRead s (BitVec.ofNat 18 (0x20000 + 0x20 * j + 4 * w)) = wordOf (slotNat s .dout j) ∧
      hostRead s (BitVec.ofNat 18 (0x28000 + 0x20 * j + 4 * w)) = wordOf (slotNat s .ek j)
end

