-- ==== Sys2Proof/Laws/Field.lean ====
section
/-! SUPPORT. Laws of the field unit: the operations of a legal field stay inside it, subtraction undoes addition, and an
element fits the storage words of a slot. -/

namespace Sys2Proof.Machine

theorem canonical_iff (f : Field) (v : Nat) : canonical f v = true ↔ v < fieldCard f := by simp [canonical]

theorem quadCanonical_iff (f : Field) (q : Quad Elem) :
    quadCanonical f q = true ↔
      q.c0 < fieldCard f ∧ q.c1 < fieldCard f ∧ q.c2 < fieldCard f ∧ q.c3 < fieldCard f := by
  simp [quadCanonical, canonical_iff, and_assoc]

/-- What rule R7 gives the proofs of a prime field. -/
theorem fieldWf_prime {p : Nat} (h : Config.fieldWf (.prime p) = true) : p.Prime ∧ p < 2 ^ 256 := by
  simpa only [Config.fieldWf, Bool.and_eq_true, decide_eq_true_eq] using h

/-- What rule R7 gives the proofs of a binary field. -/
theorem fieldWf_binary {n poly : Nat} (h : Config.fieldWf (.binary n poly) = true) :
    2 ≤ n ∧ n ≤ 256 ∧ 2 ^ n ≤ poly ∧ poly < 2 ^ (n + 1) := by
  simp only [Config.fieldWf, Bool.and_eq_true, decide_eq_true_eq] at h
  exact ⟨h.1.1.1.1, h.1.1.1.2, h.1.1.2, h.1.2⟩

theorem fieldCard_ge {f : Field} (h : Config.fieldWf f = true) : 2 ≤ fieldCard f := by
  cases f with
  | prime p => exact (fieldWf_prime h).1.two_le
  | binary n poly => exact Nat.le_self_pow (by have := (fieldWf_binary h).1; omega) 2

theorem fieldCard_le_width {f : Field} : fieldCard f ≤ 2 ^ fieldWidth f := by
  cases f with
  | prime p => exact Nat.lt_log2_self.le
  | binary n poly => exact le_rfl

theorem fieldWidth_le {f : Field} (h : Config.fieldWf f = true) : fieldWidth f ≤ 256 := by
  cases f with
  | prime p =>
    obtain ⟨hp, h⟩ := fieldWf_prime h
    have : Nat.log2 p < 256 := (Nat.log2_lt hp.ne_zero).2 h
    simp only [fieldWidth]; omega
  | binary n poly => exact (fieldWf_binary h).2.1

theorem fieldWidth_ge {f : Field} (h : Config.fieldWf f = true) : 2 ≤ fieldWidth f := by
  cases f with
  | prime p =>
    have h := (fieldWf_prime h).1
    have : 1 ≤ Nat.log2 p := (Nat.le_log2 h.ne_zero).2 (by simpa using h.two_le)
    simp only [fieldWidth]; omega
  | binary n poly => exact (fieldWf_binary h).1

theorem fieldWords_le {f : Field} (h : Config.fieldWf f = true) : fieldWords f ≤ 8 := by
  have := fieldWidth_le h
  unfold fieldWords; omega

theorem fieldWords_pos {f : Field} (h : Config.fieldWf f = true) : 0 < fieldWords f := by
  have := fieldWidth_ge h
  unfold fieldWords; omega

/-- Every element fits the storage words of a slot (R33). -/
theorem fieldCard_le_storage (f : Field) : fieldCard f ≤ 2 ^ (32 * fieldWords f) :=
  fieldCard_le_width.trans (Nat.pow_le_pow_right (by omega) (by unfold fieldWords; omega))

theorem fieldCard_le_raw {f : Field} (h : Config.fieldWf f = true) : fieldCard f ≤ 2 ^ 256 :=
  fieldCard_le_width.trans (Nat.pow_le_pow_right (by omega) (fieldWidth_le h))

theorem toNat_rawOf {v : Nat} (h : v < 2 ^ 256) : (rawOf v).toNat = v := by
  rw [rawOf, BitVec.toNat_ofNat, Nat.mod_eq_of_lt h]

theorem fieldAdd_lt {f : Field} (h : Config.fieldWf f = true) {a b : Nat} (ha : a < fieldCard f)
    (hb : b < fieldCard f) : fieldAdd f a b < fieldCard f := by
  have := fieldCard_ge h
  cases f with
  | prime p => exact Nat.mod_lt _ (by simp only [fieldCard] at this; omega)
  | binary n poly => exact Nat.xor_lt_two_pow ha hb

theorem fieldSub_lt {f : Field} (h : Config.fieldWf f = true) {a b : Nat} (ha : a < fieldCard f)
    (hb : b < fieldCard f) : fieldSub f a b < fieldCard f := by
  have := fieldCard_ge h
  cases f with
  | prime p => exact Nat.mod_lt _ (by simp only [fieldCard] at this; omega)
  | binary n poly => exact Nat.xor_lt_two_pow ha hb

/-- Subtraction undoes addition (R11 to R13). -/
theorem fieldSub_fieldAdd {f : Field} {a b : Nat} (ha : a < fieldCard f) (hb : b < fieldCard f) :
    fieldSub f (fieldAdd f a b) b = a := by
  cases f with
  | prime p =>
    simp only [fieldCard] at ha hb
    simp only [fieldSub, fieldAdd]
    rw [Nat.mod_eq_of_lt hb, Nat.mod_add_mod, show a + b + (p - b) = a + p by omega, Nat.add_mod_right,
      Nat.mod_eq_of_lt ha]
  | binary n poly => simp [fieldSub, fieldAdd]

/-- Addition undoes subtraction (R11 to R13). -/
theorem fieldAdd_fieldSub {f : Field} {a b : Nat} (ha : a < fieldCard f) (hb : b < fieldCard f) :
    fieldAdd f (fieldSub f a b) b = a := by
  cases f with
  | prime p =>
    simp only [fieldCard] at ha hb
    simp only [fieldSub, fieldAdd]
    rw [Nat.mod_eq_of_lt hb, Nat.mod_add_mod, show a + (p - b) + b = a + p by omega, Nat.add_mod_right,
      Nat.mod_eq_of_lt ha]
  | binary n poly => simp [fieldSub, fieldAdd]

theorem shift_reduce_lt {n poly a : Nat} (hlo : 2 ^ n ≤ poly) (hhi : poly < 2 ^ (n + 1)) (ha : a < 2 ^ n) :
    (if (a <<< 1).testBit n then (a <<< 1) ^^^ poly else a <<< 1) < 2 ^ n := by
  have h2 : a <<< 1 < 2 ^ (n + 1) := by rw [Nat.shiftLeft_eq, pow_succ]; omega
  have key : ∀ x, x < 2 ^ (n + 1) → x.testBit n = false → x < 2 ^ n := by
    intro x hx hb
    by_contra hge
    have hge : 2 ^ n ≤ x := Nat.le_of_not_lt hge
    have : x.testBit n = true := by
      rw [Nat.testBit_eq_decide_div_mod_eq]
      have h1 : x / 2 ^ n = 1 := by
        apply Nat.div_eq_of_lt_le
        · simpa using hge
        · rw [pow_succ] at hx; omega
      simp [h1]
    simp [this] at hb
  have hpoly : poly.testBit n = true := by
    rw [Nat.testBit_eq_decide_div_mod_eq]
    have h1 : poly / 2 ^ n = 1 := by
      apply Nat.div_eq_of_lt_le
      · simpa using hlo
      · rw [pow_succ] at hhi; omega
    simp [h1]
  split
  · next hb =>
    refine key _ (Nat.xor_lt_two_pow h2 hhi) ?_
    rw [Nat.testBit_xor, hb, hpoly]; rfl
  · next hb => exact key _ h2 (by simpa using hb)

theorem mulLoop_lt {n poly : Nat} (hlo : 2 ^ n ≤ poly) (hhi : poly < 2 ^ (n + 1)) (k : Nat) {a r : Nat} (b : Nat)
    (ha : a < 2 ^ n) (hr : r < 2 ^ n) : mulLoop n poly k a b r < 2 ^ n := by
  induction k generalizing a b r with
  | zero => exact hr
  | succ k ih =>
    refine ih _ (shift_reduce_lt hlo hhi ha) ?_
    split
    · exact Nat.xor_lt_two_pow hr ha
    · exact hr

theorem fieldMul_lt {f : Field} (h : Config.fieldWf f = true) {a : Nat} (b : Nat) (ha : a < fieldCard f) :
    fieldMul f a b < fieldCard f := by
  have hc := fieldCard_ge h
  cases f with
  | prime p => exact Nat.mod_lt _ (by simp only [fieldCard] at hc; omega)
  | binary n poly =>
    obtain ⟨_, _, hlo, hhi⟩ := fieldWf_binary h
    exact mulLoop_lt hlo hhi n b ha (by simp only [fieldCard] at hc; omega)

/-- A rolling step stays in the field (R150, R151). -/
theorem roll_canonical {f : Field} (h : Config.fieldWf f = true) {s : Quad Elem} (hs : quadCanonical f s = true) :
    quadCanonical f (roll f s) = true := by
  rw [quadCanonical_iff] at hs ⊢
  exact ⟨fieldAdd_lt h hs.2.2.2 (fieldMul_lt h _ hs.1), hs.1, hs.2.1, hs.2.2.1⟩

/-- `MIX` is a function to state vectors (R127). -/
theorem mix_canonical {f : Field} (h : Config.fieldWf f = true) (x : Sel) (t rc : Quad Elem) :
    quadCanonical f (mix f x t rc) = true := by
  have h0 : 0 < fieldCard f := by have := fieldCard_ge h; omega
  have key : ∀ v, (if canonical f v = true then v else 0) < fieldCard f := fun v => by
    split
    · next hv => exact (canonical_iff f v).1 hv
    · exact h0
  rw [quadCanonical_iff]
  exact ⟨key _, key _, key _, key _⟩

theorem fillQuad_zero_canonical {f : Field} (h : Config.fieldWf f = true) : quadCanonical f (fillQuad 0) = true := by
  have h0 : 0 < fieldCard f := by have := fieldCard_ge h; omega
  exact (quadCanonical_iff f _).2 ⟨h0, h0, h0, h0⟩

/-- Four slots written with a state vector hold it (R95). -/
theorem elemQuad_rawQuad {f : Field} (h : Config.fieldWf f = true) {q : Quad Elem} (hq : quadCanonical f q = true) :
    elemQuad (rawQuad q) = q := by
  have hle := fieldCard_le_raw h
  obtain ⟨h0, h1, h2, h3⟩ := (quadCanonical_iff f q).1 hq
  simp only [elemQuad, rawQuad, quadMap]
  rw [toNat_rawOf (h0.trans_le hle), toNat_rawOf (h1.trans_le hle), toNat_rawOf (h2.trans_le hle),
    toNat_rawOf (h3.trans_le hle)]

end Sys2Proof.Machine
end

