-- ==== Sys2Proof/Laws/Memory.lean ====
section
/-! SUPPORT. Laws of the banks' memory: read after write, and the canonical form kept by every operation. -/

namespace Sys2Proof.Machine

theorem Memory.byteAt_put (m : Memory) (a : Nat) (x : Byte) (a' : Nat) :
    Memory.byteAt (Memory.put m a x) a' = if a = a' then some x else Memory.byteAt m a' := by
  induction m with
  | nil => simp [Memory.put, Memory.byteAt]
  | cons c m ih =>
    simp only [Memory.put]
    split
    · rfl
    · split
      · next h =>
        subst h
        simp only [Memory.byteAt]
        split <;> rfl
      · next hne =>
        simp only [Memory.byteAt, ih]
        split
        · next hc => rw [if_neg fun e => hne (e.trans hc.symm)]
        · rfl

/-- The byte a list of cells gives an address: its first cell for it. -/
theorem Memory.byteAt_putAll (cells : List Host.Cell) (m : Memory) (a : Nat) :
    Memory.byteAt (Memory.putAll cells m) a = (Memory.byteAt cells a).or (Memory.byteAt m a) := by
  induction cells with
  | nil => simp [Memory.putAll, Memory.byteAt]
  | cons c cells ih =>
    have : Memory.putAll (c :: cells) m = Memory.put (Memory.putAll cells m) c.1 c.2 := rfl
    rw [this, Memory.byteAt_put, ih]
    by_cases h : c.1 = a <;> simp [Memory.byteAt, h]

theorem Memory.byteAt_append (l r : List Host.Cell) (a : Nat) :
    Memory.byteAt (l ++ r) a = (Memory.byteAt l a).or (Memory.byteAt r a) := by
  induction l with
  | nil => simp [Memory.byteAt]
  | cons c l ih => by_cases h : c.1 = a <;> simp [Memory.byteAt, h, ih]

theorem Memory.byteAt_none {m : Memory} {a : Nat} (h : ∀ c ∈ m, c.1 ≠ a) : Memory.byteAt m a = none := by
  induction m with
  | nil => rfl
  | cons c m ih =>
    simp only [Memory.byteAt, if_neg (h c (by simp))]
    exact ih fun d hd => h d (by simp [hd])

theorem Memory.wf_tail {c : Host.Cell} {m : Memory} (h : Memory.wf (c :: m) = true) : Memory.wf m = true := by
  cases m with
  | nil => rfl
  | cons d m => simp only [Memory.wf, Bool.and_eq_true] at h; exact h.2

/-- A first cell may stand before a memory in form when it lies below every cell of it. -/
theorem Memory.wf_cons {c : Host.Cell} {m : Memory} (hm : Memory.wf m = true) (h : ∀ d ∈ m, c.1 < d.1) :
    Memory.wf (c :: m) = true := by
  cases m with
  | nil => rfl
  | cons d m => simp only [Memory.wf, Bool.and_eq_true, decide_eq_true_eq]; exact ⟨h d (by simp), hm⟩

theorem Memory.wf_head_lt {c : Host.Cell} {m : Memory} (h : Memory.wf (c :: m) = true) : ∀ d ∈ m, c.1 < d.1 := by
  induction m generalizing c with
  | nil => simp
  | cons e m ih =>
    simp only [Memory.wf, Bool.and_eq_true, decide_eq_true_eq] at h
    intro d hd
    rcases List.mem_cons.1 hd with rfl | hd
    · exact h.1
    · exact h.1.trans (ih h.2 d hd)

theorem Memory.mem_put {m : Memory} {a : Nat} {x : Byte} {c : Host.Cell} (h : c ∈ Memory.put m a x) :
    c = (a, x) ∨ c ∈ m := by
  induction m with
  | nil => simpa [Memory.put] using h
  | cons d m ih =>
    simp only [Memory.put] at h
    split at h
    · simpa using h
    · split at h
      · rcases List.mem_cons.1 h with h | h
        · exact .inl h
        · exact .inr (by simp [h])
      · rcases List.mem_cons.1 h with h | h
        · exact .inr (by simp [h])
        · rcases ih h with h | h
          · exact .inl h
          · exact .inr (by simp [h])

theorem Memory.wf_put {m : Memory} (hm : Memory.wf m = true) (a : Nat) (x : Byte) :
    Memory.wf (Memory.put m a x) = true := by
  induction m with
  | nil => rfl
  | cons c m ih =>
    have htail := Memory.wf_tail hm
    have hlt := Memory.wf_head_lt hm
    simp only [Memory.put]
    split
    · next h =>
      refine Memory.wf_cons hm fun d hd => ?_
      rcases List.mem_cons.1 hd with rfl | hd
      · exact h
      · exact h.trans (hlt d hd)
    · split
      · next h => exact Memory.wf_cons htail fun d hd => by rw [h]; exact hlt d hd
      · refine Memory.wf_cons (ih htail) fun d hd => ?_
        rcases Memory.mem_put hd with rfl | hd
        · show c.1 < a; omega
        · exact hlt d hd

theorem Memory.wf_putAll {m : Memory} (hm : Memory.wf m = true) (cells : List Host.Cell) :
    Memory.wf (Memory.putAll cells m) = true := by
  induction cells with
  | nil => exact hm
  | cons c cells ih => exact Memory.wf_put ih c.1 c.2

theorem Memory.mem_putAll {m : Memory} {cells : List Host.Cell} {c : Host.Cell} (h : c ∈ Memory.putAll cells m) :
    c ∈ cells ∨ c ∈ m := by
  induction cells with
  | nil => exact .inr h
  | cons d cells ih =>
    rcases Memory.mem_put h with h | h
    · exact .inl (by simp [h])
    · rcases ih h with h | h
      · exact .inl (by simp [h])
      · exact .inr h

theorem wf_reset : Memory.wf State.reset.mem = true := rfl

/-! ### Cells of integers and slots -/

theorem mem_natCells {a n v : Nat} {c : Host.Cell} (h : c ∈ natCells a n v) :
    ∃ k < n, c = (a + k, byteOfNat v k) := by
  simp only [natCells, List.mem_map, List.mem_range] at h
  obtain ⟨k, hk, rfl⟩ := h
  exact ⟨k, hk, rfl⟩

theorem byteAt_mapRange (g : Nat → Byte) (a n k : Nat) :
    Memory.byteAt ((List.range n).map fun i => (a + i, g i)) (a + k) = if k < n then some (g k) else none := by
  induction n with
  | zero => simp [Memory.byteAt]
  | succ n ih =>
    rw [List.range_succ, List.map_append, Memory.byteAt_append, ih]
    by_cases h : k < n
    · simp [h, Nat.lt_succ_of_lt h]
    · by_cases hk : n = k
      · subst hk; simp [Memory.byteAt]
      · have : ¬ k < n + 1 := by omega
        simp [h, this, Memory.byteAt, hk]

theorem byteAt_natCells (a n v k : Nat) :
    Memory.byteAt (natCells a n v) (a + k) = if k < n then some (byteOfNat v k) else none :=
  byteAt_mapRange (byteOfNat v) a n k

theorem byteAt_natCells_out {a n v a' : Nat} (h : ∀ k < n, a' ≠ a + k) :
    Memory.byteAt (natCells a n v) a' = none :=
  Memory.byteAt_none fun c hc => by
    obtain ⟨k, hk, rfl⟩ := mem_natCells hc
    exact fun e => h k hk e.symm

theorem mem_slotCells {ew : Nat} {b : Bank} {j : Nat} {vs : List Elem} {c : Host.Cell}
    (h : c ∈ slotCells ew b j vs) : ∃ i < vs.length, ∃ k < 4 * ew, c.1 = slotAddr b (j + i) + k := by
  induction vs generalizing j with
  | nil => simp [slotCells] at h
  | cons v vs ih =>
    simp only [slotCells, List.mem_append] at h
    rcases h with h | h
    · obtain ⟨k, hk, rfl⟩ := mem_natCells h
      exact ⟨0, by simp, k, hk, by simp⟩
    · obtain ⟨i, hi, k, hk, e⟩ := ih h
      exact ⟨i + 1, by simpa using hi, k, hk, by rw [e]; congr 2; omega⟩

theorem byteAt_slotCells {ew : Nat} (hew : ew ≤ 8) (b : Bank) (vs : List Elem) (j i k : Nat) (hi : i < vs.length)
    (hk : k < 4 * ew) :
    Memory.byteAt (slotCells ew b j vs) (slotAddr b (j + i) + k) = some (byteOfNat (vs[i]) k) := by
  induction vs generalizing j i with
  | nil => simp at hi
  | cons v vs ih =>
    rw [slotCells, Memory.byteAt_append]
    cases i with
    | zero => simp [byteAt_natCells, hk]
    | succ i =>
      rw [byteAt_natCells_out, Option.none_or]
      · have := ih (j + 1) i (by simpa using hi)
        rw [show j + (i + 1) = j + 1 + i by omega]
        simpa using this
      · intro k' hk'
        simp only [slotAddr]
        omega

theorem byteAt_slotCells_out {ew : Nat} {b : Bank} {vs : List Elem} {j a : Nat}
    (h : ∀ i < vs.length, ∀ k < 4 * ew, a ≠ slotAddr b (j + i) + k) :
    Memory.byteAt (slotCells ew b j vs) a = none :=
  Memory.byteAt_none fun c hc => by
    obtain ⟨i, hi, k, hk, e⟩ := mem_slotCells hc
    exact fun e' => h i hi k hk (e'.symm.trans e)

/-! ### Little-endian integers -/

theorem leNat_lt (bs : List Byte) : leNat bs < 256 ^ bs.length := by
  induction bs with
  | nil => simp [leNat]
  | cons b bs ih =>
    have := b.isLt
    simp only [leNat, List.length_cons, pow_succ]
    omega

/-- The bytes of an integer read back: the integer modulo `256^n`. -/
theorem leNat_bytes (v n : Nat) : leNat ((List.range n).map (byteOfNat v)) = v % 256 ^ n := by
  induction n generalizing v with
  | zero => simp [leNat, Nat.mod_one]
  | succ n ih =>
    have hshift : (List.range n).map (byteOfNat v ∘ Nat.succ) = (List.range n).map (byteOfNat (v / 256)) := by
      refine List.map_congr_left fun k _ => ?_
      simp only [Function.comp, byteOfNat]
      congr 1
      rw [Nat.shiftRight_eq_div_pow, Nat.shiftRight_eq_div_pow, Nat.div_div_eq_div_mul]
      congr 1
      rw [show (256 : Nat) = 2 ^ 8 from rfl, ← pow_add]
      congr 1
      omega
    rw [List.range_succ_eq_map, List.map_cons, List.map_map, hshift, leNat, ih]
    have hb : (byteOfNat v 0).toNat = v % 256 := by simp [byteOfNat]
    rw [hb, show (256 : Nat) ^ (n + 1) = 256 * 256 ^ n from Nat.pow_succ']
    exact Nat.mod_mul.symm

end Sys2Proof.Machine
end

