-- ==== Sys2Proof/Laws/State.lean ====
section
/-! SUPPORT. What each update of the state leaves in each field, by the update's definition. -/

namespace Sys2Proof.Machine

/-! ### Completion (R242) -/

@[simp] theorem complete_field (c : ResultCode) (s : State) :
    (complete c s).field = s.field := rfl

@[simp] theorem complete_irqEn (c : ResultCode) (s : State) :
    (complete c s).irqEn = s.irqEn := rfl

@[simp] theorem complete_busy (c : ResultCode) (s : State) :
    (complete c s).busy = false := rfl

@[simp] theorem complete_done (c : ResultCode) (s : State) :
    (complete c s).done = true := rfl

@[simp] theorem complete_err (c : ResultCode) (s : State) :
    (complete c s).err = (s.err || decide (c ≠ .ok)) := rfl

@[simp] theorem complete_wrDrop (c : ResultCode) (s : State) :
    (complete c s).wrDrop = s.wrDrop := rfl

@[simp] theorem complete_cmdDrop (c : ResultCode) (s : State) :
    (complete c s).cmdDrop = s.cmdDrop := rfl

@[simp] theorem complete_validL (c : ResultCode) (s : State) :
    (complete c s).validL = s.validL := rfl

@[simp] theorem complete_validS (c : ResultCode) (s : State) :
    (complete c s).validS = s.validS := rfl

@[simp] theorem complete_errCode (c : ResultCode) (s : State) :
    (complete c s).errCode = c.code := rfl

@[simp] theorem complete_cmd (c : ResultCode) (s : State) :
    (complete c s).cmd = s.cmd := rfl

@[simp] theorem complete_roundsL (c : ResultCode) (s : State) :
    (complete c s).roundsL = s.roundsL := rfl

@[simp] theorem complete_roundsS (c : ResultCode) (s : State) :
    (complete c s).roundsS = s.roundsS := rfl

@[simp] theorem complete_rclenL (c : ResultCode) (s : State) :
    (complete c s).rclenL = s.rclenL := rfl

@[simp] theorem complete_rclenS (c : ResultCode) (s : State) :
    (complete c s).rclenS = s.rclenS := rfl

@[simp] theorem complete_klen (c : ResultCode) (s : State) :
    (complete c s).klen = s.klen := rfl

@[simp] theorem complete_sreg (c : ResultCode) (s : State) :
    (complete c s).sreg = s.sreg := rfl

@[simp] theorem complete_mkey (c : ResultCode) (s : State) :
    (complete c s).mkey = s.mkey := rfl

@[simp] theorem complete_nonce (c : ResultCode) (s : State) :
    (complete c s).nonce = s.nonce := rfl

@[simp] theorem complete_tag (c : ResultCode) (s : State) :
    (complete c s).tag = s.tag := rfl

@[simp] theorem complete_mem (c : ResultCode) (s : State) :
    (complete c s).mem = s.mem := rfl

@[simp] theorem complete_pending (c : ResultCode) (s : State) :
    (complete c s).pending = none := rfl

@[simp] theorem complete_rr (c : ResultCode) (s : State) :
    (complete c s).rr = fillQuad 0 := rfl

@[simp] theorem complete_acc (c : ResultCode) (s : State) :
    (complete c s).acc = fillQuad 0 := rfl

@[simp] theorem complete_t (c : ResultCode) (s : State) :
    (complete c s).t = fillQuad 0 := rfl

@[simp] theorem complete_round (c : ResultCode) (s : State) :
    (complete c s).round = 0 := rfl

@[simp] theorem complete_blk (c : ResultCode) (s : State) :
    (complete c s).blk = 0 := rfl

@[simp] theorem complete_sel (c : ResultCode) (s : State) :
    (complete c s).sel = .large := rfl

@[simp] theorem complete_rfOut (c : ResultCode) (s : State) :
    (complete c s).rfOut = false := rfl

@[simp] theorem complete_phase (c : ResultCode) (s : State) :
    (complete c s).phase = .idle := rfl

@[simp] theorem complete_outs (c : ResultCode) (s : State) :
    (complete c s).outs = [] := rfl

@[simp] theorem complete_hRdata (c : ResultCode) (s : State) :
    (complete c s).hRdata = s.hRdata := rfl

@[simp] theorem complete_rstN (c : ResultCode) (s : State) :
    (complete c s).rstN = s.rstN := rfl

@[simp] theorem complete_specified (c : ResultCode) (s : State) :
    (complete c s).specified = s.specified := rfl

@[simp] theorem complete_past (c : ResultCode) (s : State) :
    (complete c s).past = s.past := rfl

@[simp] theorem complete_rfu (c : ResultCode) (s : State) :
    (complete c s).rfu = s.rfu := rfl

@[simp] theorem complete_schedule (c : ResultCode) (s : State) :
    (complete c s).schedule = s.schedule := rfl

/-! ### The engine's bank writes (R80) -/

@[simp] theorem writeBank_field (b : Bank) (vs : List Elem) (s : State) :
    (writeBank b vs s).field = s.field := rfl

@[simp] theorem writeBank_irqEn (b : Bank) (vs : List Elem) (s : State) :
    (writeBank b vs s).irqEn = s.irqEn := rfl

@[simp] theorem writeBank_busy (b : Bank) (vs : List Elem) (s : State) :
    (writeBank b vs s).busy = s.busy := rfl

@[simp] theorem writeBank_done (b : Bank) (vs : List Elem) (s : State) :
    (writeBank b vs s).done = s.done := rfl

@[simp] theorem writeBank_err (b : Bank) (vs : List Elem) (s : State) :
    (writeBank b vs s).err = s.err := rfl

@[simp] theorem writeBank_wrDrop (b : Bank) (vs : List Elem) (s : State) :
    (writeBank b vs s).wrDrop = s.wrDrop := rfl

@[simp] theorem writeBank_cmdDrop (b : Bank) (vs : List Elem) (s : State) :
    (writeBank b vs s).cmdDrop = s.cmdDrop := rfl

@[simp] theorem writeBank_validL (b : Bank) (vs : List Elem) (s : State) :
    (writeBank b vs s).validL = s.validL := rfl

@[simp] theorem writeBank_validS (b : Bank) (vs : List Elem) (s : State) :
    (writeBank b vs s).validS = s.validS := rfl

@[simp] theorem writeBank_errCode (b : Bank) (vs : List Elem) (s : State) :
    (writeBank b vs s).errCode = s.errCode := rfl

@[simp] theorem writeBank_cmd (b : Bank) (vs : List Elem) (s : State) :
    (writeBank b vs s).cmd = s.cmd := rfl

@[simp] theorem writeBank_roundsL (b : Bank) (vs : List Elem) (s : State) :
    (writeBank b vs s).roundsL = s.roundsL := rfl

@[simp] theorem writeBank_roundsS (b : Bank) (vs : List Elem) (s : State) :
    (writeBank b vs s).roundsS = s.roundsS := rfl

@[simp] theorem writeBank_rclenL (b : Bank) (vs : List Elem) (s : State) :
    (writeBank b vs s).rclenL = s.rclenL := rfl

@[simp] theorem writeBank_rclenS (b : Bank) (vs : List Elem) (s : State) :
    (writeBank b vs s).rclenS = s.rclenS := rfl

@[simp] theorem writeBank_klen (b : Bank) (vs : List Elem) (s : State) :
    (writeBank b vs s).klen = s.klen := rfl

@[simp] theorem writeBank_sreg (b : Bank) (vs : List Elem) (s : State) :
    (writeBank b vs s).sreg = s.sreg := rfl

@[simp] theorem writeBank_mkey (b : Bank) (vs : List Elem) (s : State) :
    (writeBank b vs s).mkey = s.mkey := rfl

@[simp] theorem writeBank_nonce (b : Bank) (vs : List Elem) (s : State) :
    (writeBank b vs s).nonce = s.nonce := rfl

@[simp] theorem writeBank_tag (b : Bank) (vs : List Elem) (s : State) :
    (writeBank b vs s).tag = s.tag := rfl

@[simp] theorem writeBank_mem (b : Bank) (vs : List Elem) (s : State) :
    (writeBank b vs s).mem = Memory.putAll (slotCells (fieldWords s.field) b 0 vs) s.mem := rfl

@[simp] theorem writeBank_pending (b : Bank) (vs : List Elem) (s : State) :
    (writeBank b vs s).pending = s.pending := rfl

@[simp] theorem writeBank_rr (b : Bank) (vs : List Elem) (s : State) :
    (writeBank b vs s).rr = s.rr := rfl

@[simp] theorem writeBank_acc (b : Bank) (vs : List Elem) (s : State) :
    (writeBank b vs s).acc = s.acc := rfl

@[simp] theorem writeBank_t (b : Bank) (vs : List Elem) (s : State) :
    (writeBank b vs s).t = s.t := rfl

@[simp] theorem writeBank_round (b : Bank) (vs : List Elem) (s : State) :
    (writeBank b vs s).round = s.round := rfl

@[simp] theorem writeBank_blk (b : Bank) (vs : List Elem) (s : State) :
    (writeBank b vs s).blk = s.blk := rfl

@[simp] theorem writeBank_sel (b : Bank) (vs : List Elem) (s : State) :
    (writeBank b vs s).sel = s.sel := rfl

@[simp] theorem writeBank_rfOut (b : Bank) (vs : List Elem) (s : State) :
    (writeBank b vs s).rfOut = s.rfOut := rfl

@[simp] theorem writeBank_phase (b : Bank) (vs : List Elem) (s : State) :
    (writeBank b vs s).phase = s.phase := rfl

@[simp] theorem writeBank_outs (b : Bank) (vs : List Elem) (s : State) :
    (writeBank b vs s).outs = s.outs := rfl

@[simp] theorem writeBank_hRdata (b : Bank) (vs : List Elem) (s : State) :
    (writeBank b vs s).hRdata = s.hRdata := rfl

@[simp] theorem writeBank_rstN (b : Bank) (vs : List Elem) (s : State) :
    (writeBank b vs s).rstN = s.rstN := rfl

@[simp] theorem writeBank_specified (b : Bank) (vs : List Elem) (s : State) :
    (writeBank b vs s).specified = s.specified := rfl

@[simp] theorem writeBank_past (b : Bank) (vs : List Elem) (s : State) :
    (writeBank b vs s).past = s.past := rfl

@[simp] theorem writeBank_rfu (b : Bank) (vs : List Elem) (s : State) :
    (writeBank b vs s).rfu = s.rfu := rfl

@[simp] theorem writeBank_schedule (b : Bank) (vs : List Elem) (s : State) :
    (writeBank b vs s).schedule = s.schedule := rfl

/-! ### The VALID bits (R25) -/

@[simp] theorem setValid_field (x : Sel) (b : Bool) (s : State) :
    (setValid x b s).field = s.field := by cases x <;> rfl

@[simp] theorem setValid_irqEn (x : Sel) (b : Bool) (s : State) :
    (setValid x b s).irqEn = s.irqEn := by cases x <;> rfl

@[simp] theorem setValid_busy (x : Sel) (b : Bool) (s : State) :
    (setValid x b s).busy = s.busy := by cases x <;> rfl

@[simp] theorem setValid_done (x : Sel) (b : Bool) (s : State) :
    (setValid x b s).done = s.done := by cases x <;> rfl

@[simp] theorem setValid_err (x : Sel) (b : Bool) (s : State) :
    (setValid x b s).err = s.err := by cases x <;> rfl

@[simp] theorem setValid_wrDrop (x : Sel) (b : Bool) (s : State) :
    (setValid x b s).wrDrop = s.wrDrop := by cases x <;> rfl

@[simp] theorem setValid_cmdDrop (x : Sel) (b : Bool) (s : State) :
    (setValid x b s).cmdDrop = s.cmdDrop := by cases x <;> rfl

@[simp] theorem setValid_errCode (x : Sel) (b : Bool) (s : State) :
    (setValid x b s).errCode = s.errCode := by cases x <;> rfl

@[simp] theorem setValid_cmd (x : Sel) (b : Bool) (s : State) :
    (setValid x b s).cmd = s.cmd := by cases x <;> rfl

@[simp] theorem setValid_roundsL (x : Sel) (b : Bool) (s : State) :
    (setValid x b s).roundsL = s.roundsL := by cases x <;> rfl

@[simp] theorem setValid_roundsS (x : Sel) (b : Bool) (s : State) :
    (setValid x b s).roundsS = s.roundsS := by cases x <;> rfl

@[simp] theorem setValid_rclenL (x : Sel) (b : Bool) (s : State) :
    (setValid x b s).rclenL = s.rclenL := by cases x <;> rfl

@[simp] theorem setValid_rclenS (x : Sel) (b : Bool) (s : State) :
    (setValid x b s).rclenS = s.rclenS := by cases x <;> rfl

@[simp] theorem setValid_klen (x : Sel) (b : Bool) (s : State) :
    (setValid x b s).klen = s.klen := by cases x <;> rfl

@[simp] theorem setValid_sreg (x : Sel) (b : Bool) (s : State) :
    (setValid x b s).sreg = s.sreg := by cases x <;> rfl

@[simp] theorem setValid_mkey (x : Sel) (b : Bool) (s : State) :
    (setValid x b s).mkey = s.mkey := by cases x <;> rfl

@[simp] theorem setValid_nonce (x : Sel) (b : Bool) (s : State) :
    (setValid x b s).nonce = s.nonce := by cases x <;> rfl

@[simp] theorem setValid_tag (x : Sel) (b : Bool) (s : State) :
    (setValid x b s).tag = s.tag := by cases x <;> rfl

@[simp] theorem setValid_mem (x : Sel) (b : Bool) (s : State) :
    (setValid x b s).mem = s.mem := by cases x <;> rfl

@[simp] theorem setValid_pending (x : Sel) (b : Bool) (s : State) :
    (setValid x b s).pending = s.pending := by cases x <;> rfl

@[simp] theorem setValid_rr (x : Sel) (b : Bool) (s : State) :
    (setValid x b s).rr = s.rr := by cases x <;> rfl

@[simp] theorem setValid_acc (x : Sel) (b : Bool) (s : State) :
    (setValid x b s).acc = s.acc := by cases x <;> rfl

@[simp] theorem setValid_t (x : Sel) (b : Bool) (s : State) :
    (setValid x b s).t = s.t := by cases x <;> rfl

@[simp] theorem setValid_round (x : Sel) (b : Bool) (s : State) :
    (setValid x b s).round = s.round := by cases x <;> rfl

@[simp] theorem setValid_blk (x : Sel) (b : Bool) (s : State) :
    (setValid x b s).blk = s.blk := by cases x <;> rfl

@[simp] theorem setValid_sel (x : Sel) (b : Bool) (s : State) :
    (setValid x b s).sel = s.sel := by cases x <;> rfl

@[simp] theorem setValid_rfOut (x : Sel) (b : Bool) (s : State) :
    (setValid x b s).rfOut = s.rfOut := by cases x <;> rfl

@[simp] theorem setValid_phase (x : Sel) (b : Bool) (s : State) :
    (setValid x b s).phase = s.phase := by cases x <;> rfl

@[simp] theorem setValid_outs (x : Sel) (b : Bool) (s : State) :
    (setValid x b s).outs = s.outs := by cases x <;> rfl

@[simp] theorem setValid_hRdata (x : Sel) (b : Bool) (s : State) :
    (setValid x b s).hRdata = s.hRdata := by cases x <;> rfl

@[simp] theorem setValid_rstN (x : Sel) (b : Bool) (s : State) :
    (setValid x b s).rstN = s.rstN := by cases x <;> rfl

@[simp] theorem setValid_specified (x : Sel) (b : Bool) (s : State) :
    (setValid x b s).specified = s.specified := by cases x <;> rfl

@[simp] theorem setValid_past (x : Sel) (b : Bool) (s : State) :
    (setValid x b s).past = s.past := by cases x <;> rfl

@[simp] theorem setValid_rfu (x : Sel) (b : Bool) (s : State) :
    (setValid x b s).rfu = s.rfu := by cases x <;> rfl

@[simp] theorem setValid_schedule (x : Sel) (b : Bool) (s : State) :
    (setValid x b s).schedule = s.schedule := by cases x <;> rfl

@[simp] theorem setValid_validL (x : Sel) (b : Bool) (s : State) :
    (setValid x b s).validL = if x = .large then b else s.validL := by cases x <;> rfl

@[simp] theorem setValid_validS (x : Sel) (b : Bool) (s : State) :
    (setValid x b s).validS = if x = .small then b else s.validS := by cases x <;> rfl

@[simp] theorem valid_setValid (x y : Sel) (b : Bool) (s : State) :
    (setValid x b s).valid y = if x = y then b else s.valid y := by cases x <;> cases y <;> rfl

/-! ### The host's bank writes (R63) -/

@[simp] theorem putWord_field (a : Nat) (v : Word) (s : State) :
    (putWord a v s).field = s.field := rfl

@[simp] theorem putWord_irqEn (a : Nat) (v : Word) (s : State) :
    (putWord a v s).irqEn = s.irqEn := rfl

@[simp] theorem putWord_busy (a : Nat) (v : Word) (s : State) :
    (putWord a v s).busy = s.busy := rfl

@[simp] theorem putWord_done (a : Nat) (v : Word) (s : State) :
    (putWord a v s).done = s.done := rfl

@[simp] theorem putWord_err (a : Nat) (v : Word) (s : State) :
    (putWord a v s).err = s.err := rfl

@[simp] theorem putWord_wrDrop (a : Nat) (v : Word) (s : State) :
    (putWord a v s).wrDrop = s.wrDrop := rfl

@[simp] theorem putWord_cmdDrop (a : Nat) (v : Word) (s : State) :
    (putWord a v s).cmdDrop = s.cmdDrop := rfl

@[simp] theorem putWord_validL (a : Nat) (v : Word) (s : State) :
    (putWord a v s).validL = s.validL := rfl

@[simp] theorem putWord_validS (a : Nat) (v : Word) (s : State) :
    (putWord a v s).validS = s.validS := rfl

@[simp] theorem putWord_errCode (a : Nat) (v : Word) (s : State) :
    (putWord a v s).errCode = s.errCode := rfl

@[simp] theorem putWord_cmd (a : Nat) (v : Word) (s : State) :
    (putWord a v s).cmd = s.cmd := rfl

@[simp] theorem putWord_roundsL (a : Nat) (v : Word) (s : State) :
    (putWord a v s).roundsL = s.roundsL := rfl

@[simp] theorem putWord_roundsS (a : Nat) (v : Word) (s : State) :
    (putWord a v s).roundsS = s.roundsS := rfl

@[simp] theorem putWord_rclenL (a : Nat) (v : Word) (s : State) :
    (putWord a v s).rclenL = s.rclenL := rfl

@[simp] theorem putWord_rclenS (a : Nat) (v : Word) (s : State) :
    (putWord a v s).rclenS = s.rclenS := rfl

@[simp] theorem putWord_klen (a : Nat) (v : Word) (s : State) :
    (putWord a v s).klen = s.klen := rfl

@[simp] theorem putWord_sreg (a : Nat) (v : Word) (s : State) :
    (putWord a v s).sreg = s.sreg := rfl

@[simp] theorem putWord_mkey (a : Nat) (v : Word) (s : State) :
    (putWord a v s).mkey = s.mkey := rfl

@[simp] theorem putWord_nonce (a : Nat) (v : Word) (s : State) :
    (putWord a v s).nonce = s.nonce := rfl

@[simp] theorem putWord_tag (a : Nat) (v : Word) (s : State) :
    (putWord a v s).tag = s.tag := rfl

@[simp] theorem putWord_mem (a : Nat) (v : Word) (s : State) :
    (putWord a v s).mem = Memory.putAll (natCells a 4 v.toNat) s.mem := rfl

@[simp] theorem putWord_pending (a : Nat) (v : Word) (s : State) :
    (putWord a v s).pending = s.pending := rfl

@[simp] theorem putWord_rr (a : Nat) (v : Word) (s : State) :
    (putWord a v s).rr = s.rr := rfl

@[simp] theorem putWord_acc (a : Nat) (v : Word) (s : State) :
    (putWord a v s).acc = s.acc := rfl

@[simp] theorem putWord_t (a : Nat) (v : Word) (s : State) :
    (putWord a v s).t = s.t := rfl

@[simp] theorem putWord_round (a : Nat) (v : Word) (s : State) :
    (putWord a v s).round = s.round := rfl

@[simp] theorem putWord_blk (a : Nat) (v : Word) (s : State) :
    (putWord a v s).blk = s.blk := rfl

@[simp] theorem putWord_sel (a : Nat) (v : Word) (s : State) :
    (putWord a v s).sel = s.sel := rfl

@[simp] theorem putWord_rfOut (a : Nat) (v : Word) (s : State) :
    (putWord a v s).rfOut = s.rfOut := rfl

@[simp] theorem putWord_phase (a : Nat) (v : Word) (s : State) :
    (putWord a v s).phase = s.phase := rfl

@[simp] theorem putWord_outs (a : Nat) (v : Word) (s : State) :
    (putWord a v s).outs = s.outs := rfl

@[simp] theorem putWord_hRdata (a : Nat) (v : Word) (s : State) :
    (putWord a v s).hRdata = s.hRdata := rfl

@[simp] theorem putWord_rstN (a : Nat) (v : Word) (s : State) :
    (putWord a v s).rstN = s.rstN := rfl

@[simp] theorem putWord_specified (a : Nat) (v : Word) (s : State) :
    (putWord a v s).specified = s.specified := rfl

@[simp] theorem putWord_past (a : Nat) (v : Word) (s : State) :
    (putWord a v s).past = s.past := rfl

@[simp] theorem putWord_rfu (a : Nat) (v : Word) (s : State) :
    (putWord a v s).rfu = s.rfu := rfl

@[simp] theorem putWord_schedule (a : Nat) (v : Word) (s : State) :
    (putWord a v s).schedule = s.schedule := rfl

/-! ### The start of a permutation (R124) -/

@[simp] theorem enterPerm_field (ph : Phase) (x : Sel) (q : Quad Elem) (s : State) :
    (enterPerm ph x q s).field = s.field := rfl

@[simp] theorem enterPerm_irqEn (ph : Phase) (x : Sel) (q : Quad Elem) (s : State) :
    (enterPerm ph x q s).irqEn = s.irqEn := rfl

@[simp] theorem enterPerm_busy (ph : Phase) (x : Sel) (q : Quad Elem) (s : State) :
    (enterPerm ph x q s).busy = s.busy := rfl

@[simp] theorem enterPerm_done (ph : Phase) (x : Sel) (q : Quad Elem) (s : State) :
    (enterPerm ph x q s).done = s.done := rfl

@[simp] theorem enterPerm_err (ph : Phase) (x : Sel) (q : Quad Elem) (s : State) :
    (enterPerm ph x q s).err = s.err := rfl

@[simp] theorem enterPerm_wrDrop (ph : Phase) (x : Sel) (q : Quad Elem) (s : State) :
    (enterPerm ph x q s).wrDrop = s.wrDrop := rfl

@[simp] theorem enterPerm_cmdDrop (ph : Phase) (x : Sel) (q : Quad Elem) (s : State) :
    (enterPerm ph x q s).cmdDrop = s.cmdDrop := rfl

@[simp] theorem enterPerm_validL (ph : Phase) (x : Sel) (q : Quad Elem) (s : State) :
    (enterPerm ph x q s).validL = s.validL := rfl

@[simp] theorem enterPerm_validS (ph : Phase) (x : Sel) (q : Quad Elem) (s : State) :
    (enterPerm ph x q s).validS = s.validS := rfl

@[simp] theorem enterPerm_errCode (ph : Phase) (x : Sel) (q : Quad Elem) (s : State) :
    (enterPerm ph x q s).errCode = s.errCode := rfl

@[simp] theorem enterPerm_cmd (ph : Phase) (x : Sel) (q : Quad Elem) (s : State) :
    (enterPerm ph x q s).cmd = s.cmd := rfl

@[simp] theorem enterPerm_roundsL (ph : Phase) (x : Sel) (q : Quad Elem) (s : State) :
    (enterPerm ph x q s).roundsL = s.roundsL := rfl

@[simp] theorem enterPerm_roundsS (ph : Phase) (x : Sel) (q : Quad Elem) (s : State) :
    (enterPerm ph x q s).roundsS = s.roundsS := rfl

@[simp] theorem enterPerm_rclenL (ph : Phase) (x : Sel) (q : Quad Elem) (s : State) :
    (enterPerm ph x q s).rclenL = s.rclenL := rfl

@[simp] theorem enterPerm_rclenS (ph : Phase) (x : Sel) (q : Quad Elem) (s : State) :
    (enterPerm ph x q s).rclenS = s.rclenS := rfl

@[simp] theorem enterPerm_klen (ph : Phase) (x : Sel) (q : Quad Elem) (s : State) :
    (enterPerm ph x q s).klen = s.klen := rfl

@[simp] theorem enterPerm_sreg (ph : Phase) (x : Sel) (q : Quad Elem) (s : State) :
    (enterPerm ph x q s).sreg = s.sreg := rfl

@[simp] theorem enterPerm_mkey (ph : Phase) (x : Sel) (q : Quad Elem) (s : State) :
    (enterPerm ph x q s).mkey = s.mkey := rfl

@[simp] theorem enterPerm_nonce (ph : Phase) (x : Sel) (q : Quad Elem) (s : State) :
    (enterPerm ph x q s).nonce = s.nonce := rfl

@[simp] theorem enterPerm_tag (ph : Phase) (x : Sel) (q : Quad Elem) (s : State) :
    (enterPerm ph x q s).tag = s.tag := rfl

@[simp] theorem enterPerm_mem (ph : Phase) (x : Sel) (q : Quad Elem) (s : State) :
    (enterPerm ph x q s).mem = s.mem := rfl

@[simp] theorem enterPerm_pending (ph : Phase) (x : Sel) (q : Quad Elem) (s : State) :
    (enterPerm ph x q s).pending = s.pending := rfl

@[simp] theorem enterPerm_rr (ph : Phase) (x : Sel) (q : Quad Elem) (s : State) :
    (enterPerm ph x q s).rr = s.rr := rfl

@[simp] theorem enterPerm_acc (ph : Phase) (x : Sel) (q : Quad Elem) (s : State) :
    (enterPerm ph x q s).acc = s.acc := rfl

@[simp] theorem enterPerm_t (ph : Phase) (x : Sel) (q : Quad Elem) (s : State) :
    (enterPerm ph x q s).t = q := rfl

@[simp] theorem enterPerm_round (ph : Phase) (x : Sel) (q : Quad Elem) (s : State) :
    (enterPerm ph x q s).round = 0 := rfl

@[simp] theorem enterPerm_blk (ph : Phase) (x : Sel) (q : Quad Elem) (s : State) :
    (enterPerm ph x q s).blk = s.blk := rfl

@[simp] theorem enterPerm_sel (ph : Phase) (x : Sel) (q : Quad Elem) (s : State) :
    (enterPerm ph x q s).sel = x := rfl

@[simp] theorem enterPerm_rfOut (ph : Phase) (x : Sel) (q : Quad Elem) (s : State) :
    (enterPerm ph x q s).rfOut = s.rfOut := rfl

@[simp] theorem enterPerm_phase (ph : Phase) (x : Sel) (q : Quad Elem) (s : State) :
    (enterPerm ph x q s).phase = ph := rfl

@[simp] theorem enterPerm_outs (ph : Phase) (x : Sel) (q : Quad Elem) (s : State) :
    (enterPerm ph x q s).outs = s.outs := rfl

@[simp] theorem enterPerm_hRdata (ph : Phase) (x : Sel) (q : Quad Elem) (s : State) :
    (enterPerm ph x q s).hRdata = s.hRdata := rfl

@[simp] theorem enterPerm_rstN (ph : Phase) (x : Sel) (q : Quad Elem) (s : State) :
    (enterPerm ph x q s).rstN = s.rstN := rfl

@[simp] theorem enterPerm_specified (ph : Phase) (x : Sel) (q : Quad Elem) (s : State) :
    (enterPerm ph x q s).specified = s.specified := rfl

@[simp] theorem enterPerm_past (ph : Phase) (x : Sel) (q : Quad Elem) (s : State) :
    (enterPerm ph x q s).past = s.past := rfl

@[simp] theorem enterPerm_rfu (ph : Phase) (x : Sel) (q : Quad Elem) (s : State) :
    (enterPerm ph x q s).rfu = s.rfu := rfl

@[simp] theorem enterPerm_schedule (ph : Phase) (x : Sel) (q : Quad Elem) (s : State) :
    (enterPerm ph x q s).schedule = s.schedule := rfl

end Sys2Proof.Machine
end

