-- ==== Sys2Proof/Laws/Banks.lean ====
section
/-! SUPPORT. Laws of the banks: what the engine's and the host's bank writes leave in every byte and every slot. -/

namespace Sys2Proof.Machine

/-! ### Reads depend on the memory, the past of the banks and the field alone -/

theorem bankByte_congr {s s' : State} {a : Nat} (hm : s'.mem = s.mem) (he : s'.past = s.past) :
    bankByte s' a = bankByte s a := by simp [bankByte, hm, he]

theorem bankNat_congr {s s' : State} {a n : Nat} (h : ∀ k < n, bankByte s' (a + k) = bankByte s (a + k)) :
    bankNat s' a n = bankNat s a n := by
  unfold bankNat
  congr 1
  exact List.map_congr_left fun k hk => h k (List.mem_range.1 hk)

theorem slotNat_congr {s s' : State} (hf : s'.field = s.field) {b : Bank} {j : Nat}
    (h : ∀ k < 4 * fieldWords s.field, bankByte s' (slotAddr b j + k) = bankByte s (slotAddr b j + k)) :
    slotNat s' b j = slotNat s b j := by
  unfold slotNat
  rw [hf]
  exact bankNat_congr h

theorem slotNat_congr_mem {s s' : State} (hf : s'.field = s.field) (hm : s'.mem = s.mem) (he : s'.past = s.past)
    (b : Bank) (j : Nat) : slotNat s' b j = slotNat s b j :=
  slotNat_congr hf fun _ _ => bankByte_congr hm he

theorem roundConstants_congr {s s' : State} (h : ∀ b j, slotNat s' b j = slotNat s b j) (x : Sel) (i : Nat) :
    roundConstants s' x i = roundConstants s x i := by
  unfold roundConstants
  simp only [h]

theorem bankList_congr {s s' : State} {b : Bank} {n : Nat} (h : ∀ j < n, slotNat s' b j = slotNat s b j) :
    bankList s' b n = bankList s b n :=
  List.map_congr_left fun j hj => h j (List.mem_range.1 hj)

theorem mem_bankList {s : State} {b : Bank} {n v : Nat} : v ∈ bankList s b n ↔ ∃ j < n, slotNat s b j = v := by
  simp [bankList]

theorem length_bankList (s : State) (b : Bank) (n : Nat) : (bankList s b n).length = n := by simp [bankList]

theorem getElem_bankList (s : State) (b : Bank) (n i : Nat) (h : i < (bankList s b n).length) :
    (bankList s b n)[i] = slotNat s b i := by simp [bankList]

/-! ### Addresses of different slots -/

/-- Slots of one bank at different places, or of different banks within their 1024 slots, share no storage byte. -/
theorem slotAddr_ne {b b' : Bank} {j j' k k' : Nat} (hk : k < 32) (hk' : k' < 32)
    (h : (b = b' ∧ j ≠ j') ∨ (b ≠ b' ∧ j < 1024 ∧ j' < 1024)) : slotAddr b j + k ≠ slotAddr b' j' + k' := by
  rcases h with ⟨rfl, h⟩ | ⟨h, hj, hj'⟩
  · simp only [slotAddr]; omega
  · cases b <;> cases b' <;> simp only [slotAddr, Bank.base] <;> first | exact absurd rfl h | omega

/-! ### The engine's bank writes -/

/-- A byte outside the slots written keeps its value. -/
theorem bankByte_writeBank_out {b : Bank} {vs : List Elem} {s : State} {a : Nat}
    (h : ∀ i < vs.length, ∀ k < 4 * fieldWords s.field, a ≠ slotAddr b i + k) :
    bankByte (writeBank b vs s) a = bankByte s a := by
  simp only [bankByte, writeBank_mem, writeBank_past, Memory.byteAt_putAll]
  rw [byteAt_slotCells_out (fun i hi k hk => by rw [Nat.zero_add]; exact h i hi k hk), Option.none_or]

theorem bankByte_writeBank_in {b : Bank} {vs : List Elem} {s : State} (hew : fieldWords s.field ≤ 8) {i k : Nat}
    (hi : i < vs.length) (hk : k < 4 * fieldWords s.field) :
    bankByte (writeBank b vs s) (slotAddr b i + k) = byteOfNat vs[i] k := by
  have := byteAt_slotCells hew b vs 0 i k hi hk
  rw [Nat.zero_add] at this
  simp only [bankByte, writeBank_mem, Memory.byteAt_putAll, this, Option.some_or, Option.getD_some]

/-- A slot written holds the element (R95). -/
theorem slotNat_writeBank {b : Bank} {vs : List Elem} {s : State} (hew : fieldWords s.field ≤ 8) {i : Nat}
    (hi : i < vs.length) (hv : vs[i] < 2 ^ (32 * fieldWords s.field)) : slotNat (writeBank b vs s) b i = vs[i] := by
  have hbytes : ((List.range (4 * fieldWords s.field)).map fun k => bankByte (writeBank b vs s) (slotAddr b i + k))
      = (List.range (4 * fieldWords s.field)).map (byteOfNat vs[i]) :=
    List.map_congr_left fun k hk => bankByte_writeBank_in hew hi (List.mem_range.1 hk)
  unfold slotNat bankNat
  rw [writeBank_field, hbytes, leNat_bytes]
  refine Nat.mod_eq_of_lt (hv.trans_eq ?_)
  rw [show (256 : Nat) = 2 ^ 8 from rfl, ← pow_mul]
  congr 1
  omega

/-- A slot beyond those written, or of another bank, keeps its value. -/
theorem slotNat_writeBank_out {b b' : Bank} {vs : List Elem} {s : State} (hew : fieldWords s.field ≤ 8) {j : Nat}
    (h : (b' = b ∧ vs.length ≤ j) ∨ (b' ≠ b ∧ j < 1024 ∧ vs.length ≤ 1024)) :
    slotNat (writeBank b vs s) b' j = slotNat s b' j := by
  refine slotNat_congr (writeBank_field ..) fun k hk => bankByte_writeBank_out fun i hi k' hk' => ?_
  refine slotAddr_ne (by omega) (by omega) ?_
  rcases h with ⟨rfl, h⟩ | ⟨h, hj, hl⟩
  · exact .inl ⟨rfl, by omega⟩
  · exact .inr ⟨h, hj, by omega⟩

/-! ### The host's bank writes -/

theorem bankByte_putWord (a : Nat) (v : Word) (s : State) (a' : Nat) :
    bankByte (putWord a v s) a' =
      if a ≤ a' ∧ a' < a + 4 then byteOfNat v.toNat (a' - a) else bankByte s a' := by
  simp only [bankByte, putWord_mem, putWord_past, Memory.byteAt_putAll]
  by_cases h : a ≤ a' ∧ a' < a + 4
  · obtain ⟨k, rfl⟩ := Nat.exists_eq_add_of_le h.1
    rw [byteAt_natCells, if_pos (by omega), if_pos h]
    simp
  · rw [byteAt_natCells_out (by omega), if_neg h, Option.none_or]

/-- A word written reads back (R63, R64). -/
theorem bankNat_putWord (a : Nat) (v : Word) (s : State) : bankNat (putWord a v s) a 4 = v.toNat := by
  have hbytes : ((List.range 4).map fun k => bankByte (putWord a v s) (a + k))
      = (List.range 4).map (byteOfNat v.toNat) :=
    List.map_congr_left fun k hk => by
      have := List.mem_range.1 hk
      rw [bankByte_putWord, if_pos (by omega)]
      simp
  unfold bankNat
  rw [hbytes, leNat_bytes]
  exact Nat.mod_eq_of_lt v.isLt

end Sys2Proof.Machine
end

