-- ==== Sys2Proof/Laws/Permutation.lean ====
section
/-! SUPPORT. Laws of the permutation (spec/40_permutation.md): what the rounds give under the contract of the
round-function unit, and that they read only the field, the round counts and the tables. -/

namespace Sys2Proof.Machine

theorem Honest.drop {u : Rfu} (h : Honest u) (n : Nat) : ∀ e ∈ u.script.drop n, e = none :=
  fun e he => h e (List.mem_of_mem_drop he)

theorem Honest.afterRequests {u : Rfu} (h : Honest u) (reqs : List RfRequest) : Honest (afterRequests u reqs) :=
  h.drop reqs.length

theorem afterRequests_append (u : Rfu) (l r : List RfRequest) :
    afterRequests (afterRequests u l) r = afterRequests u (l ++ r) := by
  simp [afterRequests]

theorem afterRequests_nil (u : Rfu) : afterRequests u [] = u := by simp [afterRequests]

theorem rfuAnswer_honest {u : Rfu} (h : Honest u) (f : Field) (req : RfRequest) :
    rfuAnswer f u req = mix f req.sel req.state req.rc := by
  unfold rfuAnswer
  split
  · next q l hq => exact absurd (h (some q) (by simp [hq])) (by simp)
  · rfl

theorem rfuRound_honest {f : Field} (hf : Config.fieldWf f = true) {u : Rfu} (h : Honest u) (req : RfRequest) :
    rfuRound f req u = (some (mix f req.sel req.state req.rc), afterRequests u [req]) := by
  simp only [rfuRound, rfuAnswer_honest h, mix_canonical hf, if_true]
  rfl

theorem permRounds_honest {s : State} (hf : Config.fieldWf s.field = true) (x : Sel) (t : Quad Elem) (n i : Nat)
    {u : Rfu} (h : Honest u) :
    permRounds s x n i (roundState s x t i) u =
      (some (roundState s x t (i + n)),
        afterRequests u ((List.range' i n).map fun i => ⟨x, i, roundState s x t i, roundConstants s x i⟩)) := by
  induction n generalizing i u with
  | zero => simp [permRounds, afterRequests_nil]
  | succ n ih =>
    have ih' := ih (i + 1) (h.afterRequests [⟨x, i, roundState s x t i, roundConstants s x i⟩])
    rw [permRounds, rfuRound_honest hf h]
    simp only
    rw [show mix s.field x (roundState s x t i) (roundConstants s x i) = roundState s x t (i + 1) from rfl, ih',
      afterRequests_append, show i + 1 + n = i + (n + 1) by omega]
    rfl

/-- `P_x` under the contract: the function of rule R124, and the requests of rule R129. -/
theorem perm_honest {s : State} (hf : Config.fieldWf s.field = true) (x : Sel) (t : Quad Elem) {u : Rfu}
    (h : Honest u) :
    perm s x t u = (some (permutation s x t), afterRequests u (permRequests s x t)) := by
  have := permRounds_honest hf x t (s.rounds x) 0 h
  rw [Nat.zero_add, ← List.range_eq_range'] at this
  exact this

theorem length_permRequests (s : State) (x : Sel) (t : Quad Elem) :
    (permRequests s x t).length = s.rounds x := by simp [permRequests]

/-- A permutation's result is a state vector (R124). -/
theorem roundState_canonical {s : State} (hf : Config.fieldWf s.field = true) (x : Sel) {t : Quad Elem}
    (ht : quadCanonical s.field t = true) (i : Nat) : quadCanonical s.field (roundState s x t i) = true := by
  cases i with
  | zero => exact ht
  | succ i => exact mix_canonical hf x _ _

theorem permutation_canonical {s : State} (hf : Config.fieldWf s.field = true) (x : Sel) {t : Quad Elem}
    (ht : quadCanonical s.field t = true) : quadCanonical s.field (permutation s x t) = true :=
  roundState_canonical hf x ht _

/-! ### What the rounds read -/

/-- The two states agree on everything `P_x` reads: the field, the round count and the table (R94). -/
structure SamePerm (s s' : State) (x : Sel) : Prop where
  field : s'.field = s.field
  rounds : s'.rounds x = s.rounds x
  constants : ∀ i < s.rounds x, roundConstants s' x i = roundConstants s x i

theorem permRounds_congr {s s' : State} {x : Sel} (h : SamePerm s s' x) (n i : Nat) (hi : i + n ≤ s.rounds x)
    (t : Quad Elem) (u : Rfu) : permRounds s' x n i t u = permRounds s x n i t u := by
  induction n generalizing i t u with
  | zero => rfl
  | succ n ih =>
    simp only [permRounds, h.field, h.constants i (by omega)]
    cases rfuRound s.field ⟨x, i, t, roundConstants s x i⟩ u with
    | mk o u' =>
      cases o with
      | none => rfl
      | some t' => exact ih (i + 1) (by omega) t' u'

theorem perm_congr {s s' : State} {x : Sel} (h : SamePerm s s' x) (t : Quad Elem) (u : Rfu) :
    perm s' x t u = perm s x t u := by
  unfold perm
  rw [h.rounds]
  exact permRounds_congr h _ 0 (by omega) t u

theorem roundState_congr {s s' : State} {x : Sel} (h : SamePerm s s' x) (t : Quad Elem) (i : Nat)
    (hi : i ≤ s.rounds x) : roundState s' x t i = roundState s x t i := by
  induction i with
  | zero => rfl
  | succ i ih => simp only [roundState, h.field, h.constants i (by omega), ih (by omega)]

theorem permutation_congr {s s' : State} {x : Sel} (h : SamePerm s s' x) (t : Quad Elem) :
    permutation s' x t = permutation s x t := by
  unfold permutation
  rw [h.rounds]
  exact roundState_congr h t _ le_rfl

theorem permRequests_congr {s s' : State} {x : Sel} (h : SamePerm s s' x) (t : Quad Elem) :
    permRequests s' x t = permRequests s x t := by
  unfold permRequests
  rw [h.rounds]
  refine List.map_congr_left fun i hi => ?_
  have := List.mem_range.1 hi
  rw [h.constants i this, roundState_congr h t i this.le]

end Sys2Proof.Machine
end

