-- ==== Sys2Proof/Laws/Transform.lean ====
section
/-! SUPPORT. Laws of the key schedule and the transform (spec/42_key_schedule.md, spec/43_transform.md): their closed forms
under the contract of the round-function unit. -/

namespace Sys2Proof.Machine

/-! ### The stream of expanded-key elements -/

theorem extractStream_eq (f : Field) (n i : Nat) (k0 : Quad Elem) :
    extractStream f n ((roll f)^[i] k0) = (List.range' i n).map (expandedKey f k0) := by
  induction n generalizing i with
  | zero => rfl
  | succ n ih =>
    rw [extractStream, ← Function.iterate_succ_apply' (roll f), ih (i + 1)]
    rfl

/-- The schedule's output in closed form (R166). -/
theorem extractStream_closed (f : Field) (n : Nat) (k0 : Quad Elem) :
    extractStream f n k0 = (List.range n).map (expandedKey f k0) := by
  have := extractStream_eq f n 0 k0
  rwa [← List.range_eq_range'] at this

theorem rollIterate_canonical {f : Field} (hf : Config.fieldWf f = true) {q : Quad Elem}
    (hq : quadCanonical f q = true) (i : Nat) : quadCanonical f ((roll f)^[i] q) = true := by
  induction i with
  | zero => exact hq
  | succ i ih => rw [Function.iterate_succ_apply']; exact roll_canonical hf ih

theorem expandedKey_lt {f : Field} (hf : Config.fieldWf f = true) {k0 : Quad Elem} (hk : quadCanonical f k0 = true)
    (i : Nat) : expandedKey f k0 i < fieldCard f :=
  ((quadCanonical_iff f _).1 (rollIterate_canonical hf hk i)).1

theorem maskSeed_canonical {f : Field} (hf : Config.fieldWf f = true) {e : Elem} (he : e < fieldCard f) :
    quadCanonical f (maskSeed e) = true := by
  have h0 : 0 < fieldCard f := by have := fieldCard_ge hf; omega
  exact (quadCanonical_iff f _).2 ⟨he, h0, h0, h0⟩

/-! ### The block loop -/

/-- Block `i` of input `d` under the contract (R183, R186). -/
def blockAt (s : State) (dir : Direction) (i : Nat) (d : Elem) : Block :=
  blockOf s.field dir (expandedKey s.field (bootstrap s) i) (mask s i) d

/-- The requests of block `i` (R184). -/
def blockRequests (s : State) (i : Nat) : List RfRequest :=
  permRequests s .small (maskSeed (expandedKey s.field (bootstrap s) i))

theorem blockLoop_honest {s : State} (hf : Config.fieldWf s.field = true) (dir : Direction) (g : Nat → Elem)
    (n i : Nat) {u : Rfu} (h : Honest u) :
    blockLoop s dir ((List.range' i n).map g) ((roll s.field)^[i] (bootstrap s)) u =
      (some ((List.range' i n).map fun j => blockAt s dir j (g j)),
        afterRequests u ((List.range' i n).flatMap (blockRequests s))) := by
  induction n generalizing i u with
  | zero => simp [blockLoop, afterRequests_nil]
  | succ n ih =>
    rw [List.range'_succ, List.map_cons, blockLoop, perm_honest hf _ _ h]
    simp only
    rw [← Function.iterate_succ_apply' (roll s.field), ih (i + 1) (h.afterRequests _), afterRequests_append]
    simp only [List.map_cons, List.flatMap_cons]
    rfl

/-- The message blocks of the transform in a direction (R183, R186). -/
def messageOf (s : State) (dir : Direction) (i : Nat) : Elem := (blockAt s dir i (slotNat s .din i)).msg

theorem accumulator_eq_foldl (s : State) (dir : Direction) (m : Nat) :
    (((List.range m).map fun j => blockAt s dir j (slotNat s .din j)).foldl (tagFold s.field)
      (tagStart s.field (bootstrap s))) = accumulator s (messageOf s dir) m := by
  induction m with
  | zero => rfl
  | succ m ih =>
    rw [List.range_succ, List.map_append, List.foldl_append, ih]
    cases dir <;> rfl

/-- The transform under the contract: blocks, tag and requests (R182 to R186). -/
theorem transform_honest {s : State} (hf : Config.fieldWf s.field = true) (h : Honest s.rfu) (dir : Direction)
    (m : Nat) :
    transform s dir m =
      (some ((List.range m).map fun j => blockAt s dir j (slotNat s .din j), tagOf s (messageOf s dir) m),
        afterRequests s.rfu (transformRequests s (messageOf s dir) m)) := by
  have hb : bankList s .din m = (List.range' 0 m).map (slotNat s .din) := by rw [← List.range_eq_range']; rfl
  have hl := blockLoop_honest hf dir (slotNat s .din) m 0 (h.afterRequests (permRequests s .large (keyVector s)))
  rw [← hb, ← List.range_eq_range'] at hl
  unfold transform
  rw [perm_honest hf _ _ h]
  simp only
  rw [show permutation s .large (keyVector s) = (roll s.field)^[0] (bootstrap s) from rfl, hl]
  simp only [Function.iterate_zero, id_eq]
  rw [accumulator_eq_foldl, perm_honest hf _ _ ((h.afterRequests _).afterRequests _), afterRequests_append,
    afterRequests_append, ← List.append_assoc]
  rfl

end Sys2Proof.Machine
end

