-- ==== Sys2Proof/Laws/Sequencer.lean ====
section
/-! SUPPORT. Laws of the sequencer (spec/10_state.md R48, spec/40_permutation.md R126 to R129): a command run edge by edge
of the round-function port reaches the state its meaning gives in one step (spec/60_exceptions.md R243). -/

namespace Sys2Proof.Machine

/-- Port edges of a begun command lead from one state to another. -/
inductive Reaches : State → State → Prop where
  | refl (s : State) : Reaches s s
  | edge {s t : State} (begun : s.phase ≠ .idle) (pending : s.pending ≠ none) (rest : Reaches (portEdge s) t) :
    Reaches s t

theorem Reaches.trans {s t u : State} (h : Reaches s t) (h' : Reaches t u) : Reaches s u := by
  induction h with
  | refl => exact h'
  | edge hb hp _ ih => exact .edge hb hp (ih h')

theorem Reaches.of_eq {s t : State} (h : s = t) : Reaches s t := h ▸ .refl s

/-- A begun command between two requests: its next request is presented, and the unit answers. -/
structure Presenting (s : State) (i : Instr) : Prop where
  begun : s.phase ≠ .idle
  free : s.rfOut = false
  live : s.rfu.silent = false
  command : commandOf s = some i

theorem Presenting.reqValid {s : State} {i : Instr} (h : Presenting s i) : rfReqValid s = true := by
  simp [rfReqValid, h.begun, h.free]

/-- A request and its response: one round (R126, R128). -/
theorem two_edges {s : State} {i : Instr} (h : Presenting s i) :
    portEdge (portEdge s) =
      match rfuRound s.field (currentRequest s) s.rfu with
      | (some q, u) => roundDone i q { s with rfu := u }
      | (none, u) => roundFault i { s with rfu := u } := by
  have h1 : portEdge s = { s with rfOut := true, rfu := rfuShow (currentRequest s) s.rfu } := by
    simp [portEdge, rfuTake, h.reqValid, h.live]
  have hcmd : commandOf { s with rfOut := true, rfu := rfuShow (currentRequest s) s.rfu } = some i := h.command
  rw [h1]
  have h2 : rfReqValid { s with rfOut := true, rfu := rfuShow (currentRequest s) s.rfu } = false := by
    simp [rfReqValid]
  have hlive : (rfuShow (currentRequest s) s.rfu).silent = false := h.live
  have hans : rfuAnswer s.field (rfuShow (currentRequest s) s.rfu) (currentRequest s)
      = rfuAnswer s.field s.rfu (currentRequest s) := rfl
  have hreq : currentRequest { s with rfOut := true, rfu := rfuShow (currentRequest s) s.rfu } = currentRequest s := rfl
  have hfree : ∀ u, { s with rfu := u, rfOut := false } = { s with rfu := u } := fun u => by rw [← h.free]
  simp only [portEdge, h2, rfuRespond, hlive, hcmd, hreq, hans, rfuRound, Bool.false_eq_true, if_false, if_true]
  cases hq : quadCanonical s.field (rfuAnswer s.field s.rfu (currentRequest s)) with
  | true => simp only [if_true]; rw [hfree]
  | false => simp only [Bool.false_eq_true, if_false]; rw [hfree]

theorem Presenting.pending {s : State} {i : Instr} (h : Presenting s i) : s.pending ≠ none := by
  intro e
  have := h.command
  simp [commandOf, e] at this

/-- The two edges of a round lead to its end. -/
theorem two_reach {s : State} {i : Instr} (h : Presenting s i) : Reaches s (portEdge (portEdge s)) := by
  have h1 : portEdge s = { s with rfOut := true, rfu := rfuShow (currentRequest s) s.rfu } := by
    simp [portEdge, rfuTake, h.reqValid, h.live]
  refine .edge h.begun h.pending (.edge ?_ ?_ (.refl _))
  · rw [h1]; exact h.begun
  · rw [h1]; exact h.pending

theorem rfuRound_silent {f : Field} {req : RfRequest} {u : Rfu} : (rfuRound f req u).2.silent = u.silent := rfl

theorem permRounds_silent (s : State) (x : Sel) (n i : Nat) (t : Quad Elem) (u : Rfu) :
    (permRounds s x n i t u).2.silent = u.silent := by
  induction n generalizing i t u with
  | zero => rfl
  | succ n ih =>
    have hs := rfuRound_silent (f := s.field) (req := ⟨x, i, t, roundConstants s x i⟩) (u := u)
    rw [permRounds]
    generalize rfuRound s.field ⟨x, i, t, roundConstants s x i⟩ u = p at hs
    obtain ⟨o, u'⟩ := p
    cases o with
    | none => exact hs
    | some t' => exact (ih ..).trans hs

theorem perm_silent (s : State) (x : Sel) (t : Quad Elem) (u : Rfu) : (perm s x t u).2.silent = u.silent :=
  permRounds_silent ..

theorem roundFault_hidden (i : Instr) (s : State) (q : Quad Elem) (n : Nat) :
    roundFault i { s with t := q, round := n } = roundFault i s := by
  cases i <;> rfl

/-- The rounds left of a permutation, edge by edge (R124, R129). -/
theorem rounds_reach {i : Instr} (n : Nat) {s : State} (h : Presenting s i) (hn : s.round + (n + 1) = s.rounds s.sel) :
    ∃ r, Reaches s (match permRounds s s.sel (n + 1) s.round s.t s.rfu with
      | (some q, u) => permDone i { s with rfu := u, t := q, round := r }
      | (none, u) => roundFault i { s with rfu := u }) := by
  induction n generalizing s with
  | zero =>
    refine ⟨s.round, (two_reach h).trans (.of_eq ?_)⟩
    rw [two_edges h, permRounds,
      show currentRequest s = ⟨s.sel, s.round, s.t, roundConstants s s.sel s.round⟩ from rfl]
    generalize rfuRound s.field ⟨s.sel, s.round, s.t, roundConstants s s.sel s.round⟩ s.rfu = p
    obtain ⟨o, u⟩ := p
    cases o with
    | none => rfl
    | some q =>
      have : ¬ s.round + 1 < s.rounds s.sel := by omega
      exact if_neg this
  | succ n ih =>
    have h2 := two_edges h
    have hs := rfuRound_silent (f := s.field) (req := currentRequest s) (u := s.rfu)
    rw [permRounds, ← show currentRequest s = ⟨s.sel, s.round, s.t, roundConstants s s.sel s.round⟩ from rfl]
    generalize rfuRound s.field (currentRequest s) s.rfu = p at hs h2
    obtain ⟨o, u⟩ := p
    cases o with
    | none => exact ⟨0, (two_reach h).trans (.of_eq h2)⟩
    | some q =>
      have hlt : s.round + 1 < s.rounds s.sel := by omega
      have hstep : portEdge (portEdge s) = { s with rfu := u, t := q, round := s.round + 1 } := by
        rw [h2]
        exact if_pos hlt
      obtain ⟨r, hr⟩ := ih (s := { s with rfu := u, t := q, round := s.round + 1 })
        ⟨h.begun, h.free, hs.trans h.live, h.command⟩ 
        (show s.round + 1 + (n + 1) = s.rounds s.sel by omega)
      refine ⟨r, (two_reach h).trans (hstep ▸ ?_)⟩
      have hp : permRounds { s with rfu := u, t := q, round := s.round + 1 } s.sel (n + 1) (s.round + 1) q u
          = permRounds s s.sel (n + 1) (s.round + 1) q u :=
        permRounds_congr (s := s) (s' := { s with rfu := u, t := q, round := s.round + 1 }) (x := s.sel) ⟨rfl, rfl, fun _ _ => rfl⟩
          (n + 1) (s.round + 1) (by omega) q u
      simp only at hr ⊢
      rw [hp] at hr
      generalize permRounds s s.sel (n + 1) (s.round + 1) q u = p at hr ⊢
      obtain ⟨o, u'⟩ := p
      cases o with
      | none =>
        show Reaches _ (roundFault i { s with rfu := u' })
        rw [← roundFault_hidden i { s with rfu := u' } q (s.round + 1)]
        exact hr
      | some q' => exact hr

/-- A permutation just entered, edge by edge (R124, R129). -/
theorem perm_reach {i : Instr} {s : State} (h : Presenting s i) (h0 : s.round = 0) (hr : 1 ≤ s.rounds s.sel) :
    ∃ r, Reaches s (match perm s s.sel s.t s.rfu with
      | (some q, u) => permDone i { s with rfu := u, t := q, round := r }
      | (none, u) => roundFault i { s with rfu := u }) := by
  obtain ⟨n, hn⟩ : ∃ n, s.rounds s.sel = n + 1 := ⟨s.rounds s.sel - 1, by omega⟩
  have := rounds_reach n h (by omega)
  rw [← hn] at this
  simpa only [perm, h0] using this

/-! ### The block loop -/

theorem perm_same_banks (s s' : State) (hf : s'.field = s.field) (hm : s'.mem = s.mem) (he : s'.past = s.past)
    (x : Sel) (hr : s'.rounds x = s.rounds x) : SamePerm s s' x :=
  ⟨hf, hr, fun i _ => roundConstants_congr (slotNat_congr_mem hf hm he) x i⟩

theorem blockLoop_congr {s s' : State} (h : SamePerm s s' .small) (dir : Direction) (ds : List Elem) (rr : Quad Elem)
    (u : Rfu) : blockLoop s' dir ds rr u = blockLoop s dir ds rr u := by
  induction ds generalizing rr u with
  | nil => rfl
  | cons d ds ih =>
    simp only [blockLoop, perm_congr h, h.field]
    generalize perm s .small (maskSeed rr.c0) u = p
    obtain ⟨o, u'⟩ := p
    cases o with
    | none => rfl
    | some t => simp only [ih]

theorem blockLoop_silent (s : State) (dir : Direction) (ds : List Elem) (rr : Quad Elem) (u : Rfu) :
    (blockLoop s dir ds rr u).2.silent = u.silent := by
  induction ds generalizing rr u with
  | nil => rfl
  | cons d ds ih =>
    have hp := perm_silent s .small (maskSeed rr.c0) u
    rw [blockLoop]
    generalize perm s .small (maskSeed rr.c0) u = p at hp
    obtain ⟨o, u'⟩ := p
    cases o with
    | none => exact hp
    | some t =>
      have hl := ih (roll s.field rr) u'
      simp only
      generalize blockLoop s dir ds (roll s.field rr) u' = p at hl
      obtain ⟨o, u''⟩ := p
      cases o <;> exact hl.trans hp

/-- The command of a direction and length. -/
def transformInstr (dir : Direction) (m : Nat) : Instr :=
  match dir with
  | .encrypting => .encrypt m
  | .decrypting => .decrypt m

theorem permDone_transform (dir : Direction) (m : Nat) (s : State) :
    permDone (transformInstr dir m) s = transformPermDone dir m s := by cases dir <;> rfl

theorem roundFault_same {i : Instr} {s s' : State} (h : clearHidden s = clearHidden s') :
    roundFault i s = roundFault i s' := by
  have e : ∀ s, roundFault i s = roundFault i (clearHidden s) := fun s => by cases i <;> rfl
  rw [e s, e s', h]

/-- The blocks left and the tag, edge by edge, from the start of block `b` (R183, R184, R186). -/
theorem blocks_reach (dir : Direction) (m n : Nat) {s : State} (b : Nat) (hb : b + n = m)
    (hfree : s.rfOut = false) (hlive : s.rfu.silent = false) (hcmd : commandOf s = some (transformInstr dir m))
    (hl : 1 ≤ s.rounds .large) (hs : 1 ≤ s.rounds .small) :
    Reaches (startBlock m b s)
      (match blockLoop s dir ((List.range' b n).map (slotNat s .din)) s.rr s.rfu with
      | (none, u) => roundFault (transformInstr dir m) { s with rfu := u }
      | (some bs, u) =>
        match perm s .large (bs.foldl (tagFold s.field) s.acc) u with
        | (none, u') => roundFault (transformInstr dir m) { s with rfu := u' }
        | (some t, u') => finishTransform (s.outs ++ bs.map Block.out) t.c0 { s with rfu := u' }) := by
  induction n generalizing s b with
  | zero =>
    have hnot : ¬ b < m := by omega
    simp only [startBlock, if_neg hnot]
    have hp : Presenting (enterPerm .tagging .large s.acc s) (transformInstr dir m) :=
      ⟨by simp [enterPerm], hfree, hlive, hcmd⟩
    obtain ⟨r, hr⟩ := perm_reach hp rfl hl
    refine Eq.mp (congrArg _ ?_) hr
    have hc : perm (enterPerm .tagging .large s.acc s) .large s.acc s.rfu = perm s .large s.acc s.rfu :=
      perm_congr (perm_same_banks s (enterPerm .tagging .large s.acc s) rfl rfl rfl _ rfl) _ _
    show (match perm (enterPerm .tagging .large s.acc s) .large s.acc s.rfu with
      | (some q, u) => permDone (transformInstr dir m) { enterPerm .tagging .large s.acc s with rfu := u, t := q, round := r }
      | (none, u) => roundFault (transformInstr dir m) { enterPerm .tagging .large s.acc s with rfu := u }) = _
    rw [hc]
    simp only [List.range'_zero, List.map_nil, blockLoop, List.foldl_nil]
    generalize perm s .large s.acc s.rfu = p
    obtain ⟨o, u⟩ := p
    cases o with
    | none => exact roundFault_same rfl
    | some q =>
      simp only [permDone_transform, List.append_nil]
      rfl
  | succ n ih =>
    have hlt : b < m := by omega
    simp only [startBlock, if_pos hlt]
    have hp : Presenting (enterPerm .block .small (maskSeed s.rr.c0) { s with blk := b }) (transformInstr dir m) :=
      ⟨by simp [enterPerm], hfree, hlive, hcmd⟩
    obtain ⟨r, hr⟩ := perm_reach hp rfl hs
    refine hr.trans ?_
    have hc : perm (enterPerm .block .small (maskSeed s.rr.c0) { s with blk := b }) .small (maskSeed s.rr.c0) s.rfu
        = perm s .small (maskSeed s.rr.c0) s.rfu :=
      perm_congr (perm_same_banks s (enterPerm .block .small (maskSeed s.rr.c0) { s with blk := b }) rfl rfl rfl _ rfl) _ _
    show Reaches (match perm (enterPerm .block .small (maskSeed s.rr.c0) { s with blk := b }) .small
        (maskSeed s.rr.c0) s.rfu with
      | (some q, u) => permDone (transformInstr dir m)
          { enterPerm .block .small (maskSeed s.rr.c0) { s with blk := b } with rfu := u, t := q, round := r }
      | (none, u) => roundFault (transformInstr dir m)
          { enterPerm .block .small (maskSeed s.rr.c0) { s with blk := b } with rfu := u }) _
    rw [hc, List.range'_succ, List.map_cons, blockLoop]
    have hsil := perm_silent s .small (maskSeed s.rr.c0) s.rfu
    generalize perm s .small (maskSeed s.rr.c0) s.rfu = p at hsil
    obtain ⟨o, u⟩ := p
    cases o with
    | none =>
      exact .of_eq (roundFault_same rfl)
    | some q =>
      simp only [permDone_transform]
      let blk := blockOf s.field dir s.rr.c0 q.c0 (slotNat s .din b)
      let s1 : State := { enterPerm .block .small q { s with blk := b } with
        rfu := u, round := r, outs := s.outs ++ [blk.out], acc := tagFold s.field s.acc blk, rr := roll s.field s.rr }
      have hih := ih (s := s1) (b + 1) (by omega) hfree (hsil.trans hlive) hcmd hl hs
      have hbl := blockLoop_congr (perm_same_banks s s1 rfl rfl rfl _ rfl) dir
        ((List.range' (b + 1) n).map (slotNat s .din)) (roll s.field s.rr) u
      have hbank : slotNat s1 .din = slotNat s .din := funext fun j => slotNat_congr_mem rfl rfl rfl _ _
      have hperm := fun t u => perm_congr (perm_same_banks s s1 rfl rfl rfl .large rfl) t u
      refine Eq.mp ?_ hih
      congr 1
      rw [hbank]
      show (match blockLoop s1 dir ((List.range' (b + 1) n).map (slotNat s .din)) (roll s.field s.rr) u with
        | (none, u) => _
        | (some bs, u) => _) = _
      rw [hbl]
      generalize blockLoop s dir ((List.range' (b + 1) n).map (slotNat s .din)) (roll s.field s.rr) u = p
      obtain ⟨o, u'⟩ := p
      cases o with
      | none => exact roundFault_same rfl
      | some bs =>
        show (match perm s1 .large (bs.foldl (tagFold s.field) (tagFold s.field s.acc blk)) u' with
          | (none, u) => _
          | (some bs, u) => _) = _
        rw [hperm]
        simp only [List.foldl_cons, List.map_cons]
        generalize perm s .large (bs.foldl (tagFold s.field) (tagFold s.field s.acc blk)) u' = p
        obtain ⟨o, u''⟩ := p
        cases o with
        | none => exact roundFault_same rfl
        | some t =>
          show finishTransform ((s.outs ++ [blk.out]) ++ bs.map Block.out) t.c0 _ = _
          rw [List.append_assoc]
          rfl

end Sys2Proof.Machine
end

