-- ==== Sys2Proof/Laws/Completion.lean ====
section
/-! SUPPORT. Laws of completion and of the checks (spec/60_exceptions.md R228, R230, R242). -/

namespace Sys2Proof.Machine

theorem atRest_clearHidden (s : State) : AtRest (clearHidden s) := ⟨rfl, rfl, rfl, rfl, rfl, rfl, rfl, rfl, rfl⟩

theorem AtRest.clearHidden_eq {s : State} (h : AtRest s) : clearHidden s = s := by
  obtain ⟨h1, h2, h3, h4, h5, h6, h7, h8, h9⟩ := h
  cases s
  simp only at h1 h2 h3 h4 h5 h6 h7 h8 h9
  subst h1 h2 h3 h4 h5 h6 h7 h8 h9
  rfl

/-- A completion leaves the hidden state at rest (R48). -/
theorem atRest_complete (c : ResultCode) (s : State) : AtRest (complete c s) :=
  ⟨rfl, rfl, rfl, rfl, rfl, rfl, rfl, rfl, rfl⟩

/-- From rest, a completion writes the completion fields and no more (R242). -/
theorem complete_atRest {s : State} (h : AtRest s) (c : ResultCode) : complete c s = completionFields c.code s := by
  have hc : (c.code != 0) = decide (c ≠ .ok) := by cases c <;> rfl
  simp only [complete, completionFields, h.clearHidden_eq, hc]

theorem check_ok {i : Instr} {s : State} (h : check i s = .ok) :
    i.len ≤ Config.maxBlocks ∧ (readsKey i = true → s.klen.toNat ≤ 4) ∧ (commitsTo i).any (badConfig s) = false ∧
      (∀ x ∈ needsValid i, s.valid x = true) ∧ ∀ v ∈ elementOperands i s, canonical s.field v = true := by
  unfold check at h
  split at h
  · cases h
  · split at h
    · cases h
    · split at h
      · cases h
      · split at h
        · cases h
        · split at h
          · cases h
          · next h1 h2 h3 h4 h5 =>
            refine ⟨by omega, fun hk => ?_, by simpa using h3, fun x hx => ?_, fun v hv => ?_⟩
            · simp only [hk, Bool.true_and, decide_eq_true_eq] at h2; omega
            · simp only [List.any_eq_true, not_exists, not_and, Bool.not_eq_true'] at h4
              simpa using h4 x hx
            · simp only [List.any_eq_true, not_exists, not_and, Bool.not_eq_true'] at h5
              simpa using h5 v hv

end Sys2Proof.Machine
end

