-- ==== Sys2Proof/Laws/Decode.lean ====
section
/-! SUPPORT. The fields of a command word as numbers (spec/30_encoding.md R90), and the fields of an encoded command. -/

namespace Sys2Proof

theorem fields_toNat (w : Word) :
    (lenField w).toNat = w.toNat / 65536 ∧ (rsvField w).toNat = w.toNat / 256 % 256 ∧
      (opField w).toNat = w.toNat % 256 := by
  have := w.isLt
  simp [lenField, rsvField, opField, BitVec.extractLsb'_toNat, Nat.shiftRight_eq_div_pow]
  omega

theorem encode_toNat (i : Instr) : (encode i).toNat = (i.len % 65536) * 65536 + (opcode i).toNat := by
  have := (opcode i).isLt
  simp only [encode, BitVec.toNat_append, BitVec.toNat_ofNat]
  rw [← Nat.shiftLeft_add_eq_or_of_lt (by omega), Nat.shiftLeft_eq]
  simp
  omega

/-- A bus word put together from its own bytes (R63). -/
theorem wordOfBytes_extract (w : Word) :
    wordOfBytes (w.extractLsb' 0 8) (w.extractLsb' 8 8) (w.extractLsb' 16 8) (w.extractLsb' 24 8) = w := by
  unfold wordOfBytes
  ext k hk
  simp only [BitVec.getElem_append, BitVec.getElem_extractLsb']
  split
  · simp_all
  · split
    · have : 8 + (k - 8) = k := by omega
      simp_all
    · split
      · have : 16 + (k - 8 - 8) = k := by omega
        simp_all
      · have : 24 + (k - 8 - 8 - 8) = k := by omega
        simp_all

end Sys2Proof
end

