-- ==== Sys2Proof/Laws/Fixtures.lean ====
section
/-! SUPPORT. The two fields of the source's fixtures are legal (spec/00_scope.md R7): the prime by Lucas' test, the
polynomial by Rabin's, through the product of the binary field at a root of the polynomial (R12). -/

namespace Sys2Proof.Machine

open Polynomial

/-- `a ^ e % m` by squaring, `k` bits of `e`. -/
def powMod (m : Nat) : Nat → Nat → Nat → Nat
  | 0, _, _ => 1 % m
  | k + 1, a, e =>
    if e % 2 = 1 then a * powMod m k (a * a % m) (e / 2) % m else powMod m k (a * a % m) (e / 2)

theorem powMod_eq (m k a e : Nat) (he : e < 2 ^ k) : powMod m k a e = a ^ e % m := by
  induction k generalizing a e with
  | zero => simp only [pow_zero, Nat.lt_one_iff] at he; simp [powMod, he]
  | succ k ih =>
    have hsq : powMod m k (a * a % m) (e / 2) = (a * a) ^ (e / 2) % m := by
      rw [ih _ _ (by rw [pow_succ] at he; omega), ← Nat.pow_mod]
    have hdiv : a ^ e = a ^ (e % 2) * (a * a) ^ (e / 2) := by
      rw [← pow_two, ← pow_mul, ← pow_add]; congr 1; omega
    unfold powMod
    rw [hsq, hdiv]
    split
    · next h => rw [h, pow_one, Nat.mul_mod_mod]
    · next h => rw [show e % 2 = 0 by omega, pow_zero, one_mul]

/-- Lucas' test: `a` has order `p - 1` modulo `p`, which the primes `fs` factor. -/
theorem prime_of_lucas {p : Nat} (a : Nat) (fs : List Nat) (hp : 1 < p) (hb : p < 2 ^ 128) (hf : ∀ q ∈ fs, q.Prime)
    (hprod : fs.prod = p - 1) (h1 : powMod p 128 a (p - 1) = 1) (h2 : ∀ q ∈ fs, powMod p 128 a ((p - 1) / q) ≠ 1) :
    p.Prime := by
  have key : ∀ e < 2 ^ 128, ((a : ZMod p) ^ e = 1 ↔ powMod p 128 a e = 1) := by
    intro e he
    rw [powMod_eq p 128 a e he, ← Nat.cast_pow, ← Nat.cast_one (R := ZMod p), ZMod.natCast_eq_natCast_iff,
      Nat.ModEq, Nat.mod_eq_of_lt hp]
  refine lucas_primality p a ((key _ (by omega)).2 h1) fun q hq hd => ?_
  rw [← hprod] at hd
  obtain ⟨r, hr, hqr⟩ := (Prime.dvd_prod_iff hq.prime).1 hd
  obtain rfl : q = r := (Nat.prime_dvd_prime_iff_eq hq (hf r hr)).1 hqr
  have hle : (p - 1) / q ≤ p - 1 := Nat.div_le_self _ _
  rw [Ne, key _ (by omega)]
  exact h2 q hr

/-! ### The prime fixture -/

theorem prime_2976969967 : Nat.Prime 2976969967 :=
  prime_of_lucas 3 [2, 3, 1429, 347209] (by norm_num) (by norm_num) (by simp; norm_num) (by norm_num)
    (by decide +kernel) (by decide +kernel)

theorem prime_53585459407 : Nat.Prime 53585459407 :=
  prime_of_lucas 3 [2, 3, 3, 2976969967] (by norm_num) (by norm_num)
    (by simp only [List.forall_mem_cons]; exact ⟨by norm_num, by norm_num, by norm_num, prime_2976969967, by simp⟩)
    (by norm_num) (by decide +kernel) (by decide +kernel)

theorem prime_1466576173567 : Nat.Prime 1466576173567 :=
  prime_of_lucas 6 [2, 3, 3, 3, 3, 7, 1571, 823219] (by norm_num) (by norm_num) (by simp; norm_num) (by norm_num)
    (by decide +kernel) (by decide +kernel)

theorem prime_5514326412611921 : Nat.Prime 5514326412611921 :=
  prime_of_lucas 3 [2, 2, 2, 2, 5, 47, 1466576173567] (by norm_num) (by norm_num)
    (by
      simp only [List.forall_mem_cons]
      exact ⟨by norm_num, by norm_num, by norm_num, by norm_num, by norm_num, by norm_num, prime_1466576173567,
        by simp⟩)
    (by norm_num) (by decide +kernel) (by decide +kernel)

/-- The prime of the source's fixture (R7). -/
theorem prime_fixture : Nat.Prime 258439831533290445326983084816294483837 :=
  prime_of_lucas 2 [2, 2, 3, 13, 29, 233, 443, 1873, 53585459407, 5514326412611921] (by norm_num) (by norm_num)
    (by
      simp only [List.forall_mem_cons]
      exact ⟨by norm_num, by norm_num, by norm_num, by norm_num, by norm_num, by norm_num, by norm_num, by norm_num,
        prime_53585459407, prime_5514326412611921, by simp⟩)
    (by norm_num) (by decide +kernel) (by decide +kernel)

/-! ### Coefficient strings as polynomials -/

/-- A coefficient string as a polynomial (R9). -/
noncomputable def polyOf (v : Nat) : (ZMod 2)[X] := ∑ i ∈ Finset.range v, if v.testBit i then X ^ i else 0

theorem coeff_polyOf (v i : Nat) : (polyOf v).coeff i = if v.testBit i then 1 else 0 := by
  unfold polyOf
  rw [finsetSum_coeff]
  by_cases hi : i < v
  · rw [Finset.sum_eq_single_of_mem i (Finset.mem_range.2 hi)]
    · split <;> simp
    · intro j _ hj
      split <;> simp [coeff_X_pow, hj.symm]
  · have : v.testBit i = false := Nat.testBit_lt_two_pow (lt_of_lt_of_le Nat.lt_two_pow_self
      (Nat.pow_le_pow_right (by omega) (by omega)))
    rw [this]
    refine Finset.sum_eq_zero fun j hj => ?_
    have := Finset.mem_range.1 hj
    split <;> simp [coeff_X_pow, show ¬ i = j by omega]

theorem polyOf_xor (a b : Nat) : polyOf (a ^^^ b) = polyOf a + polyOf b := by
  ext i
  simp only [coeff_add, coeff_polyOf, Nat.testBit_xor]
  cases a.testBit i <;> cases b.testBit i <;> simp [CharTwo.add_self_eq_zero]

theorem polyOf_shiftLeft (a k : Nat) : polyOf (a <<< k) = polyOf a * X ^ k := by
  ext i
  simp only [coeff_mul_X_pow', coeff_polyOf, Nat.testBit_shiftLeft]
  by_cases h : k ≤ i <;> simp [h]

theorem polyOf_zero : polyOf 0 = 0 := by ext i; simp [coeff_polyOf]
theorem polyOf_one : polyOf 1 = 1 := by
  ext i
  rw [coeff_polyOf, coeff_one]
  cases i <;> simp [Nat.testBit_succ]

theorem polyOf_two : polyOf 2 = X := by
  have h := polyOf_shiftLeft 1 1
  rwa [polyOf_one, one_mul, pow_one] at h

theorem polyOf_ne_zero {v : Nat} (h : v ≠ 0) : polyOf v ≠ 0 := by
  obtain ⟨i, hi⟩ := Nat.exists_testBit_of_ne_zero h
  intro h0
  have := coeff_polyOf v i
  simp [h0, hi] at this

theorem natDegree_polyOf_lt {n v : Nat} (hn : 0 < n) (h : v < 2 ^ n) : (polyOf v).natDegree < n := by
  refine Nat.lt_of_le_pred hn (natDegree_le_iff_coeff_eq_zero.2 fun i hi => ?_)
  have hin : n ≤ i := by simp only [Nat.pred_eq_sub_one] at hi; omega
  rw [coeff_polyOf, Nat.testBit_lt_two_pow (h.trans_le (Nat.pow_le_pow_right (by omega) hin))]
  simp

theorem natDegree_polyOf {n v : Nat} (h1 : 2 ^ n ≤ v) (h2 : v < 2 ^ (n + 1)) : (polyOf v).natDegree = n := by
  have := natDegree_polyOf_lt (Nat.succ_pos n) h2
  refine le_antisymm (by omega) (le_natDegree_of_ne_zero ?_)
  have h : v / 2 ^ n = 1 := Nat.div_eq_of_lt_le (by omega) (by rw [pow_succ] at h2; omega)
  rw [coeff_polyOf, Nat.testBit_eq_decide_div_mod_eq, h]
  simp

theorem coeff_bit (c : Bool) (k i : Nat) :
    (if c then X ^ k else 0 : (ZMod 2)[X]).coeff i = if i = k ∧ c = true then 1 else 0 := by
  cases c <;> simp [coeff_X_pow]

/-- Bits below `k`, and bit `k`. -/
theorem polyOf_mod_succ (b k : Nat) :
    polyOf (b % 2 ^ (k + 1)) = polyOf (b % 2 ^ k) + if b.testBit k then X ^ k else 0 := by
  ext i
  rw [coeff_add, coeff_bit, coeff_polyOf, coeff_polyOf, Nat.testBit_mod_two_pow, Nat.testBit_mod_two_pow]
  rcases lt_trichotomy i k with h | rfl | h
  · simp [h, show i < k + 1 by omega, show ¬ i = k by omega]
  · simp
  · simp [show ¬ i < k by omega, show ¬ i < k + 1 by omega, show ¬ i = k by omega]

/-- Bit 0, and the bits above it. -/
theorem polyOf_mod_succ' (b k : Nat) :
    polyOf (b % 2 ^ (k + 1)) = (if b % 2 = 1 then 1 else 0 : (ZMod 2)[X]) + X * polyOf ((b >>> 1) % 2 ^ k) := by
  ext i
  rw [coeff_add, coeff_polyOf]
  cases i with
  | zero => split <;> simp_all [Nat.testBit_zero, pow_succ]
  | succ i =>
    rw [coeff_X_mul, coeff_polyOf, Nat.testBit_mod_two_pow, Nat.testBit_mod_two_pow, Nat.testBit_shiftRight,
      Nat.add_comm 1 i]
    split <;> split <;> simp_all [coeff_one]

theorem polyOf_polyMul (k a b : Nat) : polyOf (Config.polyMul k a b) = polyOf a * polyOf (b % 2 ^ k) := by
  induction k with
  | zero => simp [Config.polyMul, Nat.mod_one, polyOf_zero]
  | succ k ih =>
    rw [Config.polyMul, polyOf_xor, ih, polyOf_mod_succ, mul_add]
    congr 1
    split
    · rw [polyOf_shiftLeft]
    · simp [polyOf_zero]

section Root

variable {K : Type} [CommRing K] [Algebra (ZMod 2) K] {α : K} {n poly : Nat}

/-- At a root of `poly` the loop of `mulB` is the product (R12). -/
theorem aeval_mulLoop (h : aeval α (polyOf poly) = 0) (k a b r : Nat) :
    aeval α (polyOf (mulLoop n poly k a b r)) =
      aeval α (polyOf r) + aeval α (polyOf a) * aeval α (polyOf (b % 2 ^ k)) := by
  induction k generalizing a b r with
  | zero => simp [mulLoop, Nat.mod_one, polyOf_zero]
  | succ k ih =>
    have ha : aeval α (polyOf (if (a <<< 1).testBit n then (a <<< 1) ^^^ poly else a <<< 1)) =
        aeval α (polyOf a) * α := by
      split <;> simp [polyOf_xor, polyOf_shiftLeft, h]
    rw [mulLoop, ih, ha, polyOf_mod_succ']
    split <;> simp [polyOf_xor] <;> ring

theorem aeval_fieldMul (h : aeval α (polyOf poly) = 0) (a : Nat) {b : Nat} (hb : b < 2 ^ n) :
    aeval α (polyOf (fieldMul (.binary n poly) a b)) = aeval α (polyOf a) * aeval α (polyOf b) := by
  have := aeval_mulLoop (n := n) h n a b 0
  rwa [polyOf_zero, map_zero, zero_add, Nat.mod_eq_of_lt hb] at this

/-- Repeated squaring in the field is the Frobenius map at a root of `poly`. -/
theorem aeval_squarings (h : aeval α (polyOf poly) = 0) (hlo : 2 ^ n ≤ poly) (hhi : poly < 2 ^ (n + 1)) {v : Nat}
    (hv : v < 2 ^ n) (i : Nat) :
    (fun v => fieldMul (.binary n poly) v v)^[i] v < 2 ^ n ∧
      aeval α (polyOf ((fun v => fieldMul (.binary n poly) v v)^[i] v)) = aeval α (polyOf v) ^ 2 ^ i := by
  induction i with
  | zero => simpa using hv
  | succ i ih =>
    rw [Function.iterate_succ_apply']
    exact ⟨mulLoop_lt hlo hhi n _ ih.1 (Nat.two_pow_pos n),
      by rw [aeval_fieldMul h _ ih.1, ih.2, ← pow_add, pow_succ, mul_two]⟩

end Root

/-! ### The binary fixture -/

/-- Rabin's test for a degree `n = 2^(m+1)`: `x^(2^n) = x` modulo `poly`, and `x^(2^(n/2)) + x` has an inverse `c`. -/
theorem irreducible_of_rabin {n poly : Nat} (m c : Nat) (hn : n = 2 ^ (m + 1)) (hlo : 2 ^ n ≤ poly)
    (hhi : poly < 2 ^ (n + 1)) (hc : c < 2 ^ n)
    (h1 : (fun v => fieldMul (.binary n poly) v v)^[n] 2 = 2)
    (h2 : fieldMul (.binary n poly) ((fun v => fieldMul (.binary n poly) v v)^[2 ^ m] 2 ^^^ 2) c = 1) :
    Config.irreducible n poly = true := by
  have hn2 : 2 ≤ n := by rw [hn, pow_succ]; have := Nat.two_pow_pos m; omega
  have h4 : 2 < 2 ^ n := lt_of_lt_of_le (by norm_num) (Nat.pow_le_pow_right (by norm_num) hn2)
  have hdeg := natDegree_polyOf hlo hhi
  -- no irreducible polynomial of degree at most n / 2 divides it
  have key : ∀ g : (ZMod 2)[X], Irreducible g → g.natDegree ≤ 2 ^ m → ¬ g ∣ polyOf poly := by
    intro g hg hle hdvd
    have : Fact (Irreducible g) := ⟨hg⟩
    have : Module.Finite (ZMod 2) (AdjoinRoot g) := (AdjoinRoot.powerBasis hg.ne_zero).finite
    have : Finite (AdjoinRoot g) := Module.finite_of_finite (ZMod 2)
    have := Fintype.ofFinite (AdjoinRoot g)
    have hroot : aeval (AdjoinRoot.root g) (polyOf poly) = 0 := by
      rw [AdjoinRoot.aeval_eq]; exact AdjoinRoot.mk_eq_zero.2 hdvd
    have hcard : Fintype.card (AdjoinRoot g) = 2 ^ g.natDegree := by
      rw [Module.card_eq_pow_finrank (K := ZMod 2), (AdjoinRoot.powerBasis hg.ne_zero).finrank,
        AdjoinRoot.powerBasis_dim, ZMod.card]
    have hiter : ∀ i (x : AdjoinRoot g), (fun x : AdjoinRoot g => x ^ 2)^[i] x = x ^ 2 ^ i := by
      intro i x
      rw [pow_iterate]
    have hp1 : Function.IsPeriodicPt (fun x : AdjoinRoot g => x ^ 2) g.natDegree (AdjoinRoot.root g) := by
      show _ = _
      rw [hiter, ← hcard, FiniteField.pow_card]
    have hp2 : Function.IsPeriodicPt (fun x : AdjoinRoot g => x ^ 2) n (AdjoinRoot.root g) := by
      show _ = _
      have := (aeval_squarings hroot hlo hhi h4 n).2
      rw [h1, polyOf_two, aeval_X] at this
      rw [hiter, ← this]
    have hgcd : g.natDegree.gcd n ∣ 2 ^ m := by
      obtain ⟨k, hk, he⟩ := (Nat.dvd_prime_pow Nat.prime_two).1 ((Nat.gcd_dvd_right g.natDegree n).trans hn.dvd)
      rw [he]
      refine pow_dvd_pow 2 ?_
      have h0 : 0 < g.natDegree := hg.natDegree_pos
      have := Nat.le_of_dvd h0 (Nat.gcd_dvd_left g.natDegree n)
      rw [he] at this
      exact (Nat.pow_le_pow_iff_right (by norm_num)).1 (this.trans hle)
    have hp3 := (hp1.gcd hp2).trans_dvd hgcd
    have hfix : AdjoinRoot.root g ^ 2 ^ 2 ^ m = AdjoinRoot.root g := by rw [← hiter]; exact hp3
    have : CharP (AdjoinRoot g) 2 :=
      charP_of_injective_algebraMap (algebraMap (ZMod 2) (AdjoinRoot g)).injective 2
    have hs := (aeval_squarings hroot hlo hhi h4 (2 ^ m)).2
    have hone := aeval_fieldMul hroot ((fun v => fieldMul (.binary n poly) v v)^[2 ^ m] 2 ^^^ 2) hc
    rw [h2, polyOf_one, map_one, polyOf_xor, map_add, hs, polyOf_two, aeval_X, hfix, CharTwo.add_self_eq_zero,
      zero_mul] at hone
    exact one_ne_zero hone
  rw [Config.irreducible, decide_eq_true_eq]
  intro a ha b hb hab
  have hmul : polyOf poly = polyOf a * polyOf b := by rw [← hab, polyOf_polyMul, Nat.mod_eq_of_lt hb]
  have hne : polyOf poly ≠ 0 := polyOf_ne_zero (by have := Nat.two_pow_pos n; omega)
  have ha0 : polyOf a ≠ 0 := fun h => hne (by rw [hmul, h, zero_mul])
  have hb0 : polyOf b ≠ 0 := fun h => hne (by rw [hmul, h, mul_zero])
  have hsum : (polyOf a).natDegree + (polyOf b).natDegree = n := by rw [← natDegree_mul ha0 hb0, ← hmul, hdeg]
  have hda := natDegree_polyOf_lt (by omega) ha
  have hdb := natDegree_polyOf_lt (by omega) hb
  have small : ∀ q : (ZMod 2)[X], q ∣ polyOf poly → 0 < q.natDegree → q ≠ 0 → ¬ q.natDegree ≤ 2 ^ m := by
    intro q hq hq0 hqne hle
    obtain ⟨g, hg, hgq⟩ := exists_irreducible_of_natDegree_pos hq0
    exact key g hg ((natDegree_le_of_dvd hgq hqne).trans hle) (hgq.trans hq)
  have h1 := small _ ⟨_, hmul⟩ (by omega) ha0
  have h2 := small _ ⟨_, hmul.trans (mul_comm _ _)⟩ (by omega) hb0
  rw [pow_succ] at hn
  omega

/-- The source's prime fixture is a legal field (R7). -/
theorem fieldWf_primeFixture : Config.fieldWf (.prime 258439831533290445326983084816294483837) = true := by
  simp only [Config.fieldWf, prime_fixture, decide_true, Bool.true_and, decide_eq_true_eq]
  norm_num

/-- The source's binary fixture, `x^128 + x^7 + x^2 + x + 1`, is a legal field (R7). -/
theorem fieldWf_binaryFixture : Config.fieldWf (.binary 128 0x100000000000000000000000000000087) = true := by
  have h : Config.irreducible 128 0x100000000000000000000000000000087 = true :=
    irreducible_of_rabin 6 0x9e4af928ddbc838a41a8cafd2c95b018 (by norm_num) (by norm_num) (by norm_num) (by norm_num)
      (by decide +kernel) (by decide +kernel)
  simp only [Config.fieldWf, h, Bool.and_true, Bool.and_eq_true, decide_eq_true_eq]
  norm_num

/-- The instance's field is legal, whichever it is (R7). -/
theorem fieldWf_instanceField : Config.fieldWf Config.instanceField = true := by
  unfold Config.instanceField
  split
  · next h => exact h
  · exact fieldWf_primeFixture

end Sys2Proof.Machine
end

