-- ==== Sys2Proof/Laws/Invariant.lean ====
section
/-! SUPPORT. The invariant's part about registers, banks and configuration (spec/10_state.md R33, R50;
spec/40_permutation.md R123): what each operation needs to keep it, and that every command's meaning does. -/

namespace Sys2Proof.Machine

/-- The clauses of `Inv` about the registers, the banks and the committed permutations. -/
structure DataInv (s : State) : Prop where
  field : Config.fieldWf s.field = true
  memForm : Memory.wf s.mem = true
  memPlace : ∀ c ∈ s.mem, storageAddr s.field c.1 = true
  sreg : ∀ r ∈ quadList s.sreg, fitsSlot s.field r = true
  mkey : ∀ r ∈ quadList s.mkey, fitsSlot s.field r = true
  nonce : fitsSlot s.field s.nonce = true
  tag : canonical s.field s.tag.toNat = true
  outputs : ∀ b, b = .dout ∨ b = .ek → ∀ j < 1024, slotSpecified s b j → canonical s.field (slotNat s b j) = true
  committed : ∀ x, s.valid x = true → Committed s x
  errCode : s.errCode.toNat ≤ 6

theorem Inv.data {s : State} (h : Inv s) : DataInv s :=
  ⟨h.field, h.memForm, h.memPlace, h.sreg, h.mkey, h.nonce, h.tag, h.outputs, h.committed, h.errCode⟩

/-- The invariant from its part about data and its part about the pending command. -/
theorem DataInv.inv {s : State} (d : DataInv s) (hbusy : s.busy = s.pending.isSome)
    (hbegun : s.pending = none → s.phase = .idle) (hrest : s.phase = .idle → AtRest s)
    (hrun : s.phase ≠ .idle → ∃ i, Running s i) : Inv s :=
  ⟨d.field, hbusy, hbegun, hrest, hrun, d.memForm, d.memPlace, d.sreg, d.mkey, d.nonce, d.tag, d.outputs, d.committed,
    d.errCode⟩

/-! ### What the clauses read -/

theorem committed_congr {s s' : State} {x : Sel} (hf : s'.field = s.field) (hr : s'.rounds x = s.rounds x)
    (hl : s'.rclen x = s.rclen x) (hb : ∀ j < 1024, slotNat s' (rcBank x) j = slotNat s (rcBank x) j)
    (h : Committed s x) : Committed s' x := by
  obtain ⟨h1, h2, h3, h4⟩ := h
  refine ⟨by omega, by omega, by omega, fun j hj => ?_⟩
  rw [hf, hb j (by simp only [Config.maxRounds] at h2; omega)]
  exact h4 j (by omega)

theorem DataInv.congr {s s' : State} (d : DataInv s) (hf : s'.field = s.field) (hm : s'.mem = s.mem)
    (he : s'.past = s.past) (h1 : s'.sreg = s.sreg) (h2 : s'.mkey = s.mkey) (h3 : s'.nonce = s.nonce)
    (h4 : s'.tag = s.tag)
    (h5 : ∀ x, s'.valid x = true → s.valid x = true ∧ s'.rounds x = s.rounds x ∧ s'.rclen x = s.rclen x)
    (h6 : s'.errCode.toNat ≤ 6) : DataInv s' := by
  refine ⟨by rw [hf]; exact d.field, by rw [hm]; exact d.memForm, by rw [hf, hm]; exact d.memPlace,
    by rw [hf, h1]; exact d.sreg, by rw [hf, h2]; exact d.mkey, by rw [hf, h3]; exact d.nonce,
    by rw [hf, h4]; exact d.tag, fun b hb j hj hs => ?_, fun x hx => ?_, h6⟩
  · rw [hf, slotNat_congr_mem hf hm he]
    refine d.outputs b hb j hj fun k hk => ?_
    have := hs k (by rw [hf]; exact hk)
    rwa [hm] at this
  · obtain ⟨a, b, c⟩ := h5 x hx
    exact committed_congr hf b c (fun j _ => slotNat_congr_mem hf hm he _ _) (d.committed x a)

theorem ResultCode.code_le (c : ResultCode) : c.code.toNat ≤ 6 := by cases c <;> decide

/-- A completion of a state with sound data meets the whole invariant (R48, R242). -/
theorem inv_complete {s : State} (d : DataInv s) (c : ResultCode) : Inv (complete c s) :=
  DataInv.inv (d.congr rfl rfl rfl rfl rfl rfl rfl (fun _ h => ⟨h, rfl, rfl⟩) c.code_le) rfl (fun _ => rfl)
    (fun _ => atRest_complete c s) fun h => absurd rfl h

/-! ### Slot registers -/

theorem fitsSlot_rawOf {f : Field} (h : Config.fieldWf f = true) {v : Nat} (hv : v < fieldCard f) :
    fitsSlot f (rawOf v) = true := by
  simp only [fitsSlot, toNat_rawOf (hv.trans_le (fieldCard_le_raw h)), decide_eq_true_eq]
  exact hv.trans_le (fieldCard_le_storage f)

theorem fitsSlot_rawQuad {f : Field} (h : Config.fieldWf f = true) {q : Quad Elem} (hq : quadCanonical f q = true) :
    ∀ r ∈ quadList (rawQuad q), fitsSlot f r = true := by
  obtain ⟨h0, h1, h2, h3⟩ := (quadCanonical_iff f q).1 hq
  intro r hr
  simp only [quadList, rawQuad, quadMap, List.mem_cons, List.not_mem_nil, or_false] at hr
  rcases hr with rfl | rfl | rfl | rfl <;> exact fitsSlot_rawOf h ‹_›

theorem fitsSlot_zero (f : Field) : fitsSlot f 0 = true := by simp [fitsSlot]

theorem fitsSlot_fillQuad (f : Field) : ∀ r ∈ quadList (fillQuad (0 : Raw)), fitsSlot f r = true := by
  intro r hr
  have : r = 0 := by simpa [quadList, fillQuad] using hr
  subst this
  exact fitsSlot_zero f

theorem DataInv.withSreg {s : State} (d : DataInv s) (q : Quad Raw)
    (hq : ∀ r ∈ quadList q, fitsSlot s.field r = true) : DataInv { s with sreg := q } :=
  ⟨d.field, d.memForm, d.memPlace, hq, d.mkey, d.nonce, d.tag, d.outputs, d.committed, d.errCode⟩

theorem DataInv.withTag {s : State} (d : DataInv s) {v : Raw} (hv : canonical s.field v.toNat = true) :
    DataInv { s with tag := v } :=
  ⟨d.field, d.memForm, d.memPlace, d.sreg, d.mkey, d.nonce, hv, d.outputs, d.committed, d.errCode⟩

theorem DataInv.withRfu {s : State} (d : DataInv s) (u : Rfu) : DataInv { s with rfu := u } :=
  d.congr rfl rfl rfl rfl rfl rfl rfl (fun _ h => ⟨h, rfl, rfl⟩) d.errCode

theorem DataInv.withValid {s : State} (d : DataInv s) (x : Sel) (b : Bool) (h : b = true → Committed s x) :
    DataInv (setValid x b s) := by
  have hc : ∀ y, Committed s y → Committed (setValid x b s) y := by
    intro y h; cases x <;> cases y <;> exact h
  have hv : ∀ y, (setValid x b s).valid y = true → Committed (setValid x b s) y := by
    intro y hy
    apply hc
    by_cases hxy : y = x
    · subst hxy; apply h; cases y <;> exact hy
    · apply d.committed y
      cases x <;> cases y <;> first | exact absurd rfl hxy | exact hy
  cases x <;>
    exact ⟨d.field, d.memForm, d.memPlace, d.sreg, d.mkey, d.nonce, d.tag, d.outputs, hv, d.errCode⟩

/-! ### The engine's bank writes -/

theorem specified_writeBank_out {b b' : Bank} {vs : List Elem} {s : State} (hew : fieldWords s.field ≤ 8) {j : Nat}
    (h : (b' = b ∧ vs.length ≤ j) ∨ (b' ≠ b ∧ j < 1024 ∧ vs.length ≤ 1024))
    (hs : slotSpecified (writeBank b vs s) b' j) : slotSpecified s b' j := by
  intro k hk
  have := hs k hk
  rw [writeBank_mem, Memory.byteAt_putAll, byteAt_slotCells_out, Option.none_or] at this
  · exact this
  · intro i hi k' hk'
    rw [Nat.zero_add]
    refine slotAddr_ne (by omega) (by omega) ?_
    rcases h with ⟨rfl, h⟩ | ⟨h, hj, hl⟩
    · exact .inl ⟨rfl, by omega⟩
    · exact .inr ⟨h, hj, by omega⟩

/-- At most 1024 elements written to a bank that no permutation reads. -/
theorem DataInv.writeBank {s : State} (d : DataInv s) {b : Bank} (hb : b = .din ∨ b = .dout ∨ b = .ek)
    {vs : List Elem} (hl : vs.length ≤ 1024) (hv : ∀ v ∈ vs, v < fieldCard s.field) :
    DataInv (writeBank b vs s) := by
  have hew := fieldWords_le d.field
  refine ⟨d.field, Memory.wf_putAll d.memForm _, fun c hc => ?_, d.sreg, d.mkey, d.nonce, d.tag,
    fun b' hb' j hj hs => ?_, fun x hx => ?_, d.errCode⟩
  · rcases Memory.mem_putAll hc with h | h
    · obtain ⟨i, hi, k, hk, e⟩ := mem_slotCells h
      simp only [storageAddr, Bool.and_eq_true, decide_eq_true_eq, writeBank_field]
      rcases hb with rfl | rfl | rfl <;> simp only [slotAddr, Bank.base] at e <;>
        refine ⟨⟨by omega, by omega⟩, ?_⟩ <;> apply decide_eq_true <;> omega
    · exact d.memPlace c h
  · by_cases he : b' = b ∧ j < vs.length
    · obtain ⟨rfl, hj'⟩ := he
      have hlt := hv _ (List.getElem_mem hj')
      rw [slotNat_writeBank hew hj' (hlt.trans_le (fieldCard_le_storage _))]
      exact (canonical_iff _ _).2 hlt
    · have hc : (b' = b ∧ vs.length ≤ j) ∨ (b' ≠ b ∧ j < 1024 ∧ vs.length ≤ 1024) := by
        by_cases h : b' = b
        · exact .inl ⟨h, by by_contra hh; exact he ⟨h, by omega⟩⟩
        · exact .inr ⟨h, hj, hl⟩
      rw [slotNat_writeBank_out hew hc]
      exact d.outputs b' hb' j hj (specified_writeBank_out hew hc hs)
  · refine committed_congr (s := s) rfl (by cases x <;> rfl) (by cases x <;> rfl) (fun j hj => ?_) (d.committed x hx)
    refine slotNat_writeBank_out hew (.inr ⟨?_, hj, hl⟩)
    cases x <;> rcases hb with rfl | rfl | rfl <;> simp [rcBank]

theorem fieldCard_pos {f : Field} (h : Config.fieldWf f = true) : 0 < fieldCard f := by
  have := fieldCard_ge h
  omega

theorem canonical_zero {f : Field} (h : Config.fieldWf f = true) : canonical f (0 : Raw).toNat = true := by
  rw [canonical_iff]
  exact fieldCard_pos h

theorem zeros_lt {f : Field} (h : Config.fieldWf f = true) (n : Nat) : ∀ v ∈ List.replicate n 0, v < fieldCard f := by
  intro v hv
  rw [List.eq_of_mem_replicate hv]
  exact fieldCard_pos h

/-- RoundFault keeps the invariant (R231). -/
theorem inv_roundFault {s : State} (d : DataInv s) (i : Instr) (hl : i.len ≤ 1024) : Inv (roundFault i s) := by
  refine inv_complete ?_ _
  cases i with
  | permL => exact d.withSreg _ (fitsSlot_fillQuad _)
  | permS => exact d.withSreg _ (fitsSlot_fillQuad _)
  | schedule n => exact d.writeBank (by simp) (by simpa [Instr.len] using hl) (zeros_lt d.field n)
  | encrypt n =>
    exact (d.writeBank (by simp) (by simpa [Instr.len] using hl) (zeros_lt d.field n)).withTag (canonical_zero d.field)
  | decrypt n =>
    exact (d.writeBank (by simp) (by simpa [Instr.len] using hl) (zeros_lt d.field n)).withTag (canonical_zero d.field)
  | nop => exact d
  | commitL => exact d
  | commitS => exact d
  | roll => exact d
  | keystate => exact d
  | zeroize => exact d

/-! ### Results are elements -/

theorem extractStream_lt {f : Field} (h : Config.fieldWf f = true) (n : Nat) (q : Quad Elem)
    (hq : quadCanonical f q = true) :
    (extractStream f n q).length = n ∧ ∀ v ∈ extractStream f n q, v < fieldCard f := by
  induction n generalizing q with
  | zero => simp [extractStream]
  | succ n ih =>
    obtain ⟨a, b⟩ := ih _ (roll_canonical h hq)
    refine ⟨by simp [extractStream, a], fun v hv => ?_⟩
    rcases List.mem_cons.1 hv with rfl | hv
    · exact ((quadCanonical_iff f q).1 hq).1
    · exact b v hv

theorem inv_finishSchedule {s : State} (d : DataInv s) (n : Nat) (hn : n ≤ 1024) {q : Quad Elem}
    (hq : quadCanonical s.field q = true) : Inv (finishSchedule n q s) := by
  obtain ⟨a, b⟩ := extractStream_lt d.field n q hq
  exact inv_complete (d.writeBank (by simp) (by omega) b) _

theorem inv_finishTransform {s : State} (d : DataInv s) (outs : List Elem) (hn : outs.length ≤ 1024)
    (ho : ∀ v ∈ outs, v < fieldCard s.field) {t : Elem} (ht : t < fieldCard s.field) :
    Inv (finishTransform outs t s) := by
  refine inv_complete ((d.writeBank (by simp) hn ho).withTag ?_) _
  rw [toNat_rawOf (ht.trans_le (fieldCard_le_raw d.field))]
  exact (canonical_iff _ _).2 ht

/-- A command that checks S computes on a state vector (R229). -/
theorem stateVector_canonical {s : State} {i : Instr} (h : check i s = .ok)
    (hi : elementOperands i s = (quadList s.sreg).map BitVec.toNat) : quadCanonical s.field (stateVector s) = true := by
  have := (check_ok h).2.2.2.2
  rw [hi] at this
  simp only [quadList, List.map, List.mem_cons, List.not_mem_nil, or_false] at this
  rw [quadCanonical_iff]
  simp only [← canonical_iff, stateVector, elemQuad, quadMap]
  exact ⟨this _ (.inl rfl), this _ (.inr (.inl rfl)), this _ (.inr (.inr (.inl rfl))),
    this _ (.inr (.inr (.inr rfl)))⟩

theorem keyElem_lt {s : State} (hk : ∀ v ∈ keyElems s, canonical s.field v = true)
    (hf : Config.fieldWf s.field = true) (j : Nat) (hj : j < 4) :
    (if j < s.klen.toNat then quadGet (elemQuad s.mkey) j else 0) < fieldCard s.field := by
  split
  · next h =>
    rw [← canonical_iff]
    apply hk
    simp only [keyElems, quadList, List.map]
    rw [List.mem_take_iff_getElem]
    refine ⟨j, by simp; omega, ?_⟩
    match j, hj with
    | 0, _ => rfl
    | 1, _ => rfl
    | 2, _ => rfl
    | 3, _ => rfl
  · exact fieldCard_pos hf

theorem keyVector_canonical {s : State} (hf : Config.fieldWf s.field = true)
    (hk : ∀ v ∈ keyElems s, canonical s.field v = true) (hn : canonical s.field s.nonce.toNat = true) :
    quadCanonical s.field (keyVector s) = true := by
  rw [quadCanonical_iff]
  exact ⟨keyElem_lt hk hf 0 (by omega), keyElem_lt hk hf 1 (by omega), keyElem_lt hk hf 2 (by omega),
    fieldAdd_lt hf (keyElem_lt hk hf 3 (by omega)) ((canonical_iff _ _).1 hn)⟩

/-- A command that reads the key computes on a key state (R160, R229). -/
theorem keyVector_of_check {s : State} {i : Instr} (h : check i s = .ok)
    (hi : i = .keystate ∨ ∃ m, i = .encrypt m ∨ i = .decrypt m) (hf : Config.fieldWf s.field = true) :
    quadCanonical s.field (keyVector s) = true := by
  have := (check_ok h).2.2.2.2
  rcases hi with rfl | ⟨m, rfl | rfl⟩ <;> simp only [elementOperands, List.mem_append] at this
  · exact keyVector_canonical hf (fun v hv => this v (.inl hv)) (this _ (.inr (by simp)))
  · exact keyVector_canonical hf (fun v hv => this v (.inl (.inl hv))) (this _ (.inl (.inr (by simp))))
  · exact keyVector_canonical hf (fun v hv => this v (.inl (.inl hv))) (this _ (.inl (.inr (by simp))))

/-- Whatever the unit answers, a permutation that ends gives a state vector (R128). -/
theorem permRounds_canonical {s : State} (x : Sel) (n i : Nat) (t : Quad Elem) (u : Rfu)
    (ht : quadCanonical s.field t = true) (q : Quad Elem) (h : (permRounds s x n i t u).1 = some q) :
    quadCanonical s.field q = true := by
  induction n generalizing i t u with
  | zero => simp only [permRounds, Option.some.injEq] at h; subst h; exact ht
  | succ n ih =>
    rw [permRounds] at h
    simp only [rfuRound] at h
    split at h
    · next t' u' e =>
      refine ih _ _ _ ?_ h
      simp only [Prod.mk.injEq] at e
      obtain ⟨e, _⟩ := e
      split at e
      · next hc => cases e; exact hc
      · cases e
    · cases h

theorem perm_canonical {s : State} {x : Sel} {t : Quad Elem} {u u' : Rfu} {q : Quad Elem}
    (ht : quadCanonical s.field t = true) (h : perm s x t u = (some q, u')) : quadCanonical s.field q = true :=
  permRounds_canonical x _ _ _ _ ht q (by unfold perm at h; rw [h])

/-- The three parts of a block are elements. -/
def BlockCanonical (f : Field) (b : Block) : Prop := b.ek < fieldCard f ∧ b.msg < fieldCard f ∧ b.out < fieldCard f

theorem blockOf_canonical {f : Field} (hf : Config.fieldWf f = true) (dir : Direction) {ek z d : Elem}
    (he : ek < fieldCard f) (hz : z < fieldCard f) (hd : d < fieldCard f) : BlockCanonical f (blockOf f dir ek z d) := by
  cases dir
  · exact ⟨he, hd, fieldAdd_lt hf hd hz⟩
  · exact ⟨he, fieldSub_lt hf hd hz, fieldSub_lt hf hd hz⟩

theorem tagFold_canonical {f : Field} (hf : Config.fieldWf f = true) {a : Quad Elem} (ha : quadCanonical f a = true)
    {b : Block} (hb : BlockCanonical f b) : quadCanonical f (tagFold f a b) = true := by
  obtain ⟨h0, h1, h2, h3⟩ := (quadCanonical_iff f a).1 ha
  refine roll_canonical hf ?_
  rw [quadCanonical_iff]
  exact ⟨fieldAdd_lt hf h0 hb.2.1, fieldAdd_lt hf h1 hb.1, h2, h3⟩

theorem tagStart_canonical {f : Field} (hf : Config.fieldWf f = true) {a : Quad Elem} (ha : quadCanonical f a = true) :
    quadCanonical f (tagStart f a) = true := by
  obtain ⟨h0, h1, h2, h3⟩ := (quadCanonical_iff f a).1 ha
  rw [quadCanonical_iff]
  exact ⟨h0, h1, h2, fieldAdd_lt hf h3 (by have := fieldCard_ge hf; omega)⟩

theorem foldl_canonical {f : Field} (hf : Config.fieldWf f = true) (bs : List Block) {a : Quad Elem}
    (ha : quadCanonical f a = true) (h : ∀ b ∈ bs, BlockCanonical f b) :
    quadCanonical f (bs.foldl (tagFold f) a) = true := by
  induction bs generalizing a with
  | nil => exact ha
  | cons b bs ih => exact ih (tagFold_canonical hf ha (h b (by simp))) fun b' hb' => h b' (by simp [hb'])

theorem blockLoop_canonical {s : State} (hf : Config.fieldWf s.field = true) (dir : Direction) (ds : List Elem)
    {rr : Quad Elem} {u u' : Rfu} {bs : List Block} (hd : ∀ d ∈ ds, d < fieldCard s.field)
    (hr : quadCanonical s.field rr = true) (h : blockLoop s dir ds rr u = (some bs, u')) :
    bs.length = ds.length ∧ ∀ b ∈ bs, BlockCanonical s.field b := by
  induction ds generalizing rr u bs u' with
  | nil => simp only [blockLoop, Prod.mk.injEq, Option.some.injEq] at h; obtain ⟨rfl, _⟩ := h; simp
  | cons d ds ih =>
    rw [blockLoop] at h
    split at h
    · next t u1 e =>
      split at h
      · next bs' u2 e2 =>
        simp only [Prod.mk.injEq, Option.some.injEq] at h
        obtain ⟨rfl, _⟩ := h
        obtain ⟨a, b⟩ := ih (fun d hd' => hd d (by simp [hd'])) (roll_canonical hf hr) e2
        refine ⟨by simp [a], fun b' hb' => ?_⟩
        rcases List.mem_cons.1 hb' with rfl | hb'
        · have he := ((quadCanonical_iff _ _).1 hr).1
          exact blockOf_canonical hf dir he
            ((quadCanonical_iff _ _).1 (perm_canonical (maskSeed_canonical hf he) e)).1 (hd d (by simp))
        · exact b b' hb'
      · cases h
    · cases h

/-! ### The commands -/

theorem inv_transformCommand {s : State} (d : DataInv s) (dir : Direction) (m : Nat) (i : Instr)
    (hi : i = .encrypt m ∨ i = .decrypt m) : Inv (transformCommand dir m i s) := by
  unfold transformCommand
  have hil : i.len = m := by rcases hi with rfl | rfl <;> rfl
  split
  · next hc =>
    obtain ⟨hl, _, _, _, he⟩ := check_ok hc
    have hkey := keyVector_of_check hc (.inr ⟨m, hi⟩) d.field
    have hdin : ∀ v ∈ bankList s .din m, v < fieldCard s.field := by
      intro v hv
      rw [← canonical_iff]
      apply he
      rcases hi with rfl | rfl <;> simp [elementOperands, hv]
    split
    · next bs tag u e =>
      unfold transform at e
      split at e
      · cases e
      · next k0 u1 e1 =>
        split at e
        · cases e
        · next bs' u2 e2 =>
          split at e
          · cases e
          · next t u3 e3 =>
            simp only [Prod.mk.injEq, Option.some.injEq] at e
            obtain ⟨⟨rfl, rfl⟩, _⟩ := e
            have hk0 := perm_canonical hkey e1
            obtain ⟨hlen, hb⟩ := blockLoop_canonical d.field _ _ hdin hk0 e2
            have ht := perm_canonical (foldl_canonical d.field bs' (tagStart_canonical d.field hk0) hb) e3
            refine inv_finishTransform (d.withRfu u) _ ?_ ?_ ((quadCanonical_iff _ _).1 ht).1
            · rw [List.length_map, hlen, length_bankList]; simpa [hil, Config.maxBlocks] using hl
            · intro v hv
              obtain ⟨b, hb', rfl⟩ := List.mem_map.1 hv
              exact (hb b hb').2.2
    · exact inv_roundFault (d.withRfu _) i hl
  · exact inv_complete d _

theorem committed_of_check {s : State} (x : Sel) (i : Instr) (hc : commitsTo i = some x)
    (he : elementOperands i s = bankList s (rcBank x) (s.rclen x)) (h : check i s = .ok) : Committed s x := by
  obtain ⟨_, _, h3, _, h5⟩ := check_ok h
  simp only [hc, Option.any_some, badConfig, Bool.or_eq_false_iff, decide_eq_false_iff_not] at h3
  refine ⟨by omega, by omega, by omega, fun j hj => ?_⟩
  apply h5
  rw [he]
  exact mem_bankList.2 ⟨j, hj, rfl⟩

theorem inv_permCommand {s : State} (d : DataInv s) (x : Sel) (i : Instr) (hl : i.len ≤ 1024)
    (hi : elementOperands i s = (quadList s.sreg).map BitVec.toNat) : Inv (permCommand x i s) := by
  unfold permCommand
  split
  · next hc =>
    split
    · next t u e =>
      exact inv_complete ((d.withRfu u).withSreg _
        (fitsSlot_rawQuad d.field (perm_canonical (stateVector_canonical hc hi) e))) _
    · exact inv_roundFault (d.withRfu _) _ hl
  · exact inv_complete d _

/-- Every command's meaning ends in a state that meets the invariant. -/
theorem inv_exec {s t : State} (d : DataInv s) (i : Instr) (h : exec i s = .next t) : Inv t := by
  cases i with
  | nop => cases h; exact inv_complete d _
  | commitL =>
    cases h
    refine inv_complete (d.withValid _ _ fun h => ?_) _
    exact committed_of_check .large .commitL rfl rfl (by simpa using h)
  | commitS =>
    cases h
    refine inv_complete (d.withValid _ _ fun h => ?_) _
    exact committed_of_check .small .commitS rfl rfl (by simpa using h)
  | permL => cases h; exact inv_permCommand d _ _ (by simp [Instr.len]) rfl
  | permS => cases h; exact inv_permCommand d _ _ (by simp [Instr.len]) rfl
  | roll =>
    simp only [exec, execRoll, Host.Outcome.next.injEq] at h
    subst h
    split
    · next hc =>
      exact inv_complete (d.withSreg _
        (fitsSlot_rawQuad d.field (roll_canonical d.field (stateVector_canonical hc rfl)))) _
    · exact inv_complete d _
  | keystate =>
    simp only [exec, execKeystate, Host.Outcome.next.injEq] at h
    subst h
    split
    · next hc =>
      exact inv_complete (d.withSreg _ (fitsSlot_rawQuad d.field (keyVector_of_check hc (.inl rfl) d.field))) _
    · exact inv_complete d _
  | schedule n =>
    cases h
    unfold scheduleCommand
    split
    · next hc =>
      have hl := (check_ok hc).1
      split
      · next t u e =>
        have ht := perm_canonical (stateVector_canonical hc rfl) e
        exact inv_finishSchedule (d.withRfu u) n hl ht
      · exact inv_roundFault (d.withRfu _) _ hl
    · exact inv_complete d _
  | encrypt m => cases h; exact inv_transformCommand d _ _ _ (.inl rfl)
  | decrypt m => cases h; exact inv_transformCommand d _ _ _ (.inr rfl)
  | zeroize =>
    cases h
    have hl : (List.replicate Config.maxBlocks 0).length ≤ 1024 := by rw [List.length_replicate]; decide
    have hz := zeros_lt d.field Config.maxBlocks
    have d3 : DataInv (zeroBanks s) :=
      ((d.writeBank (b := .ek) (by simp) hl hz).writeBank (b := .dout) (by simp) hl hz).writeBank (b := .din) (by simp)
        hl hz
    exact inv_complete
      (s := { zeroBanks s with sreg := fillQuad 0, mkey := fillQuad 0, nonce := 0, tag := 0, klen := 0 })
      ⟨d3.field, d3.memForm, d3.memPlace, fitsSlot_fillQuad _, fitsSlot_fillQuad _, fitsSlot_zero _,
        canonical_zero d.field, d3.outputs, d3.committed, d3.errCode⟩ _

end Sys2Proof.Machine
end

