-- ==== Sys2Proof/Laws/Moves.lean ====
section
/-! SUPPORT. The moves of the agents (spec/10_state.md R20) and the invariant: what each one needs of it and leaves. -/

namespace Sys2Proof.Machine

/-! ### Updates that leave registers, banks and configuration alone -/

theorem check_congr {s s' : State} (i : Instr) (hf : s'.field = s.field) (hm : s'.mem = s.mem)
    (he : s'.past = s.past) (h1 : s'.sreg = s.sreg) (h2 : s'.mkey = s.mkey) (h3 : s'.nonce = s.nonce)
    (h4 : s'.klen = s.klen) (h5 : ∀ x, s'.valid x = s.valid x ∧ s'.rounds x = s.rounds x ∧ s'.rclen x = s.rclen x) :
    check i s' = check i s := by
  have hb : badConfig s' = badConfig s := funext fun x => by simp [badConfig, (h5 x).2.1, (h5 x).2.2]
  have hk : keyElems s' = keyElems s := by simp [keyElems, h2, h4]
  have hl : ∀ b n, bankList s' b n = bankList s b n := fun b n =>
    bankList_congr fun j _ => slotNat_congr_mem hf hm he b j
  have he : elementOperands i s' = elementOperands i s := by
    cases i <;> simp [elementOperands, hk, hl, h1, h3, (h5 _).2.2]
  simp only [check, he, h4, hf, (h5 _).1, hb]

/-- The two states agree on the registers, the banks, the configuration and the pending word. -/
structure SameData (s s' : State) : Prop where
  field : s'.field = s.field
  mem : s'.mem = s.mem
  past : s'.past = s.past
  sreg : s'.sreg = s.sreg
  mkey : s'.mkey = s.mkey
  nonce : s'.nonce = s.nonce
  tag : s'.tag = s.tag
  klen : s'.klen = s.klen
  cfg : ∀ x, s'.valid x = s.valid x ∧ s'.rounds x = s.rounds x ∧ s'.rclen x = s.rclen x
  errCode : s'.errCode = s.errCode
  busy : s'.busy = s.busy
  pending : s'.pending = s.pending

/-- The fields outside `SameData` may change. -/
theorem sameData (s s' : State)
    (h : s' = { s with
      irqEn := s'.irqEn, done := s'.done, err := s'.err, wrDrop := s'.wrDrop, cmdDrop := s'.cmdDrop, cmd := s'.cmd
      rr := s'.rr, acc := s'.acc, t := s'.t, round := s'.round, blk := s'.blk, sel := s'.sel, rfOut := s'.rfOut
      phase := s'.phase, outs := s'.outs, hRdata := s'.hRdata, rstN := s'.rstN, specified := s'.specified
      rfu := s'.rfu, schedule := s'.schedule }) : SameData s s' := by
  rw [h]
  exact ⟨rfl, rfl, rfl, rfl, rfl, rfl, rfl, rfl, fun x => by cases x <;> exact ⟨rfl, rfl, rfl⟩, rfl, rfl, rfl⟩

theorem SameData.data {s s' : State} (h : SameData s s') (d : DataInv s) : DataInv s' :=
  d.congr h.field h.mem h.past h.sreg h.mkey h.nonce h.tag
    (fun x hx => ⟨by rw [← (h.cfg x).1]; exact hx, (h.cfg x).2⟩) (by rw [h.errCode]; exact d.errCode)

theorem SameData.commandOf {s s' : State} (h : SameData s s') : commandOf s' = commandOf s := by
  simp [Machine.commandOf, h.pending]

theorem SameData.check {s s' : State} (h : SameData s s') (i : Instr) : check i s' = check i s :=
  check_congr i h.field h.mem h.past h.sreg h.mkey h.nonce h.klen h.cfg

/-- The two states agree on the hidden state but for `rf_out` (R48). -/
def SameHidden (s s' : State) : Prop :=
  s'.phase = s.phase ∧ s'.sel = s.sel ∧ s'.round = s.round ∧ s'.blk = s.blk ∧ s'.outs = s.outs ∧ s'.t = s.t ∧
    s'.rr = s.rr ∧ s'.acc = s.acc

theorem SameHidden.rfl (s s' : State)
    (h : s' = { s' with
      phase := s.phase, sel := s.sel, round := s.round, blk := s.blk, outs := s.outs, t := s.t, rr := s.rr
      acc := s.acc }) : SameHidden s s' := by
  rw [h]
  exact ⟨Eq.refl _, Eq.refl _, Eq.refl _, Eq.refl _, Eq.refl _, Eq.refl _, Eq.refl _, Eq.refl _⟩

theorem SameData.running {s s' : State} (h : SameData s s') (hh : SameHidden s s') {i : Instr} (r : Running s i) :
    Running s' i := by
  obtain ⟨hp, hs, hr, hb, ho, ht, hrr, ha⟩ := hh
  refine ⟨by rw [h.commandOf]; exact r.command, by rw [h.check]; exact r.checked, ?_, ?_, ?_, ?_, ?_, ?_⟩
  · have := r.phase
    unfold PhaseLegal at this ⊢
    rw [hp, hs, ho, hb]
    exact this
  · rw [hr, hs, (h.cfg _).2.1]; exact r.round
  · rw [h.field, ht]; exact r.t
  · rw [h.field, hrr]; exact r.rr
  · rw [h.field, ha]; exact r.acc
  · rw [h.field, ho]; exact r.outs

/-- An update outside data and hidden state keeps the invariant. -/
theorem SameData.inv {s s' : State} (h : SameData s s') (hh : SameHidden s s')
    (hf : s.phase = .idle → s'.rfOut = s.rfOut) (i : Inv s) : Inv s' := by
  have ⟨hp, hs, hr, hb, ho, ht, hrr, ha⟩ := hh
  refine (h.data i.data).inv ?_ ?_ ?_ ?_
  · rw [h.busy, h.pending]; exact i.busy
  · rw [h.pending, hp]; exact i.begun
  · rw [hp]
    intro hi
    have := i.rest hi
    exact ⟨by rw [hrr]; exact this.rr, by rw [ha]; exact this.acc, by rw [ht]; exact this.t,
      by rw [hr]; exact this.round, by rw [hb]; exact this.blk, by rw [hs]; exact this.sel,
      by rw [hf hi]; exact this.rfOut, by rw [hp]; exact this.phase, by rw [ho]; exact this.outs⟩
  · rw [hp]
    intro hi
    obtain ⟨i, r⟩ := i.running hi
    exact ⟨i, h.running hh r⟩

/-- An update outside data and hidden state that leaves `rf_out` alone too. -/
theorem inv_outside {s s' : State}
    (h : s' = { s with
      irqEn := s'.irqEn, done := s'.done, err := s'.err, wrDrop := s'.wrDrop, cmdDrop := s'.cmdDrop, cmd := s'.cmd
      hRdata := s'.hRdata, rstN := s'.rstN, specified := s'.specified, rfu := s'.rfu, schedule := s'.schedule })
    (i : Inv s) : Inv s' := by
  rw [h]
  exact SameData.inv (sameData _ _ rfl) (.rfl _ _ rfl) (fun _ => rfl) i

theorem AtRest.congr {s s' : State} (hr : AtRest s)
    (h : s' = { s' with
      rr := s.rr, acc := s.acc, t := s.t, round := s.round, blk := s.blk, sel := s.sel, rfOut := s.rfOut
      phase := s.phase, outs := s.outs }) : AtRest s' := by
  rw [h]
  exact ⟨hr.rr, hr.acc, hr.t, hr.round, hr.blk, hr.sel, hr.rfOut, hr.phase, hr.outs⟩

/-! ### A command begun -/

theorem commandOf_some {s : State} {w : Word} {i : Instr} (h1 : s.pending = some w) (h2 : decode w = .command i) :
    commandOf s = some i := by simp [commandOf, h1, h2]

theorem Inv.busy_of_command {s : State} (h : Inv s) {i : Instr} (hc : commandOf s = some i) : s.busy = true := by
  rw [h.busy]
  unfold commandOf at hc
  cases e : s.pending with
  | none => simp [e] at hc
  | some w => rfl

theorem inv_of_running {s : State} (d : DataInv s) (hb : s.busy = true) {i : Instr} (r : Running s i)
    (hp : s.phase ≠ .idle) : Inv s := by
  have hpd : s.pending.isSome = true := by
    have := r.command
    unfold commandOf at this
    cases h : s.pending with
    | none => simp [h] at this
    | some w => rfl
  refine d.inv (by rw [hb, hpd]) (fun h => ?_) (fun h => absurd h hp) fun _ => ⟨i, r⟩
  rw [h] at hpd
  cases hpd

/-- A permutation entered inside a command whose checks passed. -/
theorem inv_enterPerm {s : State} (d : DataInv s) (ph : Phase) (x : Sel) (t : Quad Elem) (i : Instr) (hph : ph ≠ .idle)
    (hb : s.busy = true) (hcmd : commandOf s = some i) (hc : check i s = .ok)
    (hleg : PhaseLegal (enterPerm ph x t s) i) (hv : s.valid x = true) (ht : quadCanonical s.field t = true)
    (hrr : quadCanonical s.field s.rr = true) (hacc : quadCanonical s.field s.acc = true)
    (ho : ∀ v ∈ s.outs, canonical s.field v = true) : Inv (enterPerm ph x t s) := by
  have hsb : SameData s (enterPerm ph x t s) := sameData _ _ rfl
  refine inv_of_running (hsb.data d) hb (i := i)
    ⟨by rw [hsb.commandOf]; exact hcmd, by rw [hsb.check]; exact hc, hleg, ?_, ht, hrr, hacc, ho⟩ hph
  show 0 < (enterPerm ph x t s).rounds x
  rw [(hsb.cfg x).2.1]
  exact (d.committed x hv).1

theorem inv_openCommand {s s' : State} (h : Inv s) {i : Instr} (hp : s.phase = .idle) (hcmd : commandOf s = some i)
    (ho : openCommand i s = some s') : Inv s' := by
  have hr := h.rest hp
  have hb := h.busy_of_command hcmd
  have hz := fillQuad_zero_canonical h.field
  unfold openCommand at ho
  split at ho
  · next hc =>
    have hv := (check_ok hc).2.2.2.1
    have hrr : quadCanonical s.field s.rr = true := by rw [hr.rr]; exact hz
    have hacc : quadCanonical s.field s.acc = true := by rw [hr.acc]; exact hz
    have hout : ∀ v ∈ s.outs, canonical s.field v = true := by rw [hr.outs]; simp
    cases i <;> simp only [Option.some.injEq, reduceCtorEq] at ho
    case permL =>
      subst ho
      exact inv_enterPerm h.data _ _ _ _ (by simp) hb hcmd hc (.inl ⟨rfl, rfl⟩) (hv _ (by simp [needsValid]))
        (stateVector_canonical hc rfl) hrr hacc hout
    case permS =>
      subst ho
      exact inv_enterPerm h.data _ _ _ _ (by simp) hb hcmd hc (.inr ⟨rfl, rfl⟩) (hv _ (by simp [needsValid]))
        (stateVector_canonical hc rfl) hrr hacc hout
    case schedule n =>
      subst ho
      exact inv_enterPerm h.data _ _ _ _ (by simp) hb hcmd hc ⟨rfl, hr.outs, n, .inl rfl⟩
        (hv _ (by simp [needsValid])) (stateVector_canonical hc rfl) hrr hacc hout
    case encrypt n =>
      subst ho
      exact inv_enterPerm h.data _ _ _ _ (by simp) hb hcmd hc ⟨rfl, hr.outs, n, .inr (.inl rfl)⟩
        (hv _ (by simp [needsValid])) (keyVector_of_check hc (.inr ⟨n, .inl rfl⟩) h.field) hrr hacc hout
    case decrypt n =>
      subst ho
      exact inv_enterPerm h.data _ _ _ _ (by simp) hb hcmd hc ⟨rfl, hr.outs, n, .inr (.inr rfl)⟩
        (hv _ (by simp [needsValid])) (keyVector_of_check hc (.inr ⟨n, .inr rfl⟩) h.field) hrr hacc hout
  · cases ho

theorem inv_startBlock {s : State} (d : DataInv s) (hb : s.busy = true) {dir : Direction} {m b : Nat} (hbm : b ≤ m)
    (hcmd : commandOf s = some (transformInstr dir m)) (hc : check (transformInstr dir m) s = .ok)
    (hlen : s.outs.length = b) (hrr : quadCanonical s.field s.rr = true) (hacc : quadCanonical s.field s.acc = true)
    (ho : ∀ v ∈ s.outs, canonical s.field v = true) : Inv (startBlock m b s) := by
  have hv := (check_ok hc).2.2.2.1
  have hi : transformInstr dir m = .encrypt m ∨ transformInstr dir m = .decrypt m := by
    cases dir <;> simp [transformInstr]
  have hvalid : ∀ x, s.valid x = true := by
    intro x
    apply hv
    cases dir <;> cases x <;> simp [transformInstr, needsValid]
  unfold startBlock
  split
  · next hlt =>
    have hsb : SameData s { s with blk := b } := sameData _ _ rfl
    exact inv_enterPerm (s := { s with blk := b }) (hsb.data d) _ _ _ (transformInstr dir m) (by simp) hb hcmd
      (by rw [hsb.check]; exact hc) ⟨rfl, hlen, m, hlt, hi⟩ (by rw [(hsb.cfg _).1]; exact hvalid _)
      (maskSeed_canonical d.field ((quadCanonical_iff _ _).1 hrr).1) hrr hacc ho
  · exact inv_enterPerm d _ _ _ (transformInstr dir m) (by simp) hb hcmd hc
      ⟨rfl, m, by show s.outs.length = m; omega, hi⟩ (hvalid _) hacc hrr hacc ho

theorem inv_transformPermDone {s : State} (dir : Direction) (m : Nat) (d : DataInv s) (hb : s.busy = true)
    (r : Running s (transformInstr dir m)) : Inv (transformPermDone dir m s) := by
  have hil : (transformInstr dir m).len = m := by cases dir <;> rfl
  have hinj : ∀ m', transformInstr dir m = .encrypt m' ∨ transformInstr dir m = .decrypt m' → m' = m := by
    intro m' h
    cases dir <;> simp [transformInstr] at h <;> exact h.symm
  obtain ⟨hl, _, _, _, he⟩ := check_ok r.checked
  have hph := r.phase
  unfold transformPermDone
  unfold PhaseLegal at hph
  cases hp : s.phase with
  | idle => simp [hp] at hph
  | perm => rw [hp] at hph; cases dir <;> simp [transformInstr] at hph
  | boot =>
    rw [hp] at hph
    simp only at hph ⊢
    have hsb : SameData s { s with rr := s.t, acc := tagStart s.field s.t } := sameData _ _ rfl
    exact inv_startBlock (dir := dir) (hsb.data d) hb (Nat.zero_le m) r.command (by rw [hsb.check]; exact r.checked)
      (by show s.outs.length = 0; simp [hph.2.1]) r.t (tagStart_canonical d.field r.t) r.outs
  | block =>
    rw [hp] at hph
    simp only at hph ⊢
    obtain ⟨_, hlen, m', hlt, hm'⟩ := hph
    have := hinj m' hm'
    subst this
    have hd : slotNat s .din s.blk < fieldCard s.field := by
      rw [← canonical_iff]
      apply he
      have hmem : slotNat s .din s.blk ∈ bankList s .din m' := mem_bankList.2 ⟨_, hlt, rfl⟩
      cases dir <;> simp [transformInstr, elementOperands, hmem]
    have hbk := blockOf_canonical d.field dir ((quadCanonical_iff _ _).1 r.rr).1 ((quadCanonical_iff _ _).1 r.t).1 hd
    unfold finishBlock
    generalize blockOf s.field dir s.rr.c0 s.t.c0 (slotNat s .din s.blk) = B at hbk
    have hsb : SameData s
        { s with outs := s.outs ++ [B.out], acc := tagFold s.field s.acc B, rr := roll s.field s.rr } := sameData _ _ rfl
    refine inv_startBlock (dir := dir) (hsb.data d) hb (by omega) r.command (by rw [hsb.check]; exact r.checked)
      (by simp [hlen]) (roll_canonical d.field r.rr) (tagFold_canonical d.field r.acc hbk) fun v hv => ?_
    rcases List.mem_append.1 hv with h | h
    · exact r.outs v h
    · rw [List.mem_singleton] at h
      subst h
      exact (canonical_iff _ _).2 hbk.2.2
  | tagging =>
    rw [hp] at hph
    simp only at hph ⊢
    obtain ⟨_, m', hlen, hm'⟩ := hph
    have := hinj m' hm'
    subst this
    exact inv_finishTransform d _ (by rw [hlen, ← hil]; exact hl) (fun v hv => (canonical_iff _ _).1 (r.outs v hv))
      ((quadCanonical_iff _ _).1 r.t).1

theorem inv_permDone {s : State} {i : Instr} (d : DataInv s) (hb : s.busy = true) (r : Running s i)
    (hp : s.phase ≠ .idle) : Inv (permDone i s) := by
  cases i with
  | permL => exact inv_complete (d.withSreg _ (fitsSlot_rawQuad d.field r.t)) _
  | permS => exact inv_complete (d.withSreg _ (fitsSlot_rawQuad d.field r.t)) _
  | schedule n => exact inv_finishSchedule d n (check_ok r.checked).1 r.t
  | encrypt m => exact inv_transformPermDone .encrypting m d hb r
  | decrypt m => exact inv_transformPermDone .decrypting m d hb r
  | nop => exact inv_of_running d hb r hp
  | commitL => exact inv_of_running d hb r hp
  | commitS => exact inv_of_running d hb r hp
  | roll => exact inv_of_running d hb r hp
  | keystate => exact inv_of_running d hb r hp
  | zeroize => exact inv_of_running d hb r hp

/-! ### The round-function port -/

theorem inv_rfuRespond {s : State} (h : Inv s) : Inv (rfuRespond s) := by
  unfold rfuRespond
  split
  · exact h
  · split
    · next hout =>
      have hp : s.phase ≠ .idle := by
        intro hi
        rw [(h.rest hi).rfOut] at hout
        cases hout
      obtain ⟨i, r⟩ := h.running hp
      have hb := h.busy_of_command r.command
      rw [r.command]
      simp only
      generalize rfuAnswer s.field s.rfu (currentRequest s) = q
      split
      · next hq =>
        unfold roundDone
        split
        · next hlt =>
          have hsb : SameData s { s with rfu := rfuDrop s.rfu, rfOut := false, t := q, round := s.round + 1 } :=
            sameData _ _ rfl
          refine inv_of_running (hsb.data h.data) hb (i := i)
            ⟨r.command, by rw [hsb.check]; exact r.checked, r.phase, ?_, hq, r.rr, r.acc, r.outs⟩ hp
          show s.round + 1 < _
          exact hlt
        · have hsb : SameData s { s with rfu := rfuDrop s.rfu, rfOut := false, t := q } := sameData _ _ rfl
          exact inv_permDone (s := { s with rfu := rfuDrop s.rfu, rfOut := false, t := q }) (hsb.data h.data) hb
            ⟨r.command, by rw [hsb.check]; exact r.checked, r.phase, r.round, hq, r.rr, r.acc, r.outs⟩ hp
      · have hsb : SameData s { s with rfu := rfuDrop s.rfu, rfOut := false } := sameData _ _ rfl
        exact inv_roundFault (hsb.data h.data) i (check_ok r.checked).1
    · exact inv_outside rfl h

theorem inv_rfuTake {s : State} (h : Inv s) : Inv (rfuTake s) := by
  unfold rfuTake
  split
  · next hv =>
    refine SameData.inv (s := s) (sameData _ _ rfl) (.rfl _ _ rfl) (fun hi => ?_) h
    simp [rfReqValid, hi] at hv
  · exact h

theorem inv_portEdge {s : State} (h : Inv s) : Inv (portEdge s) := by
  unfold portEdge
  split
  · exact inv_rfuTake h
  · exact inv_rfuRespond h

/-! ### The engine -/

theorem inv_beginCommand {s t : State} {i : Instr} (h : Inv s) (hp : s.phase = .idle) (hcmd : commandOf s = some i)
    (e : beginCommand i s = .next t) : Inv t := by
  unfold beginCommand at e
  split at e
  · next s' ho => cases e; exact inv_openCommand h hp hcmd ho
  · exact inv_exec h.data i e

theorem inv_turn {s t : State} {g : Instr → State → Host.Outcome State Fault Refusal} (h : Inv s)
    (hg : ∀ i t, s.phase = .idle → commandOf s = some i → g i s = .next t → Inv t) (e : turn g s = .next t) :
    Inv t := by
  unfold turn at e
  split at e
  · cases e; exact h
  · next w hw =>
    split at e
    · next hp =>
      split at e
      · next i hd => exact hg i t hp (commandOf_some hw hd) e
      · cases e; exact inv_complete h.data _
    all_goals cases e; exact inv_portEdge h

theorem inv_engineTurn {s t : State} (h : Inv s) (e : engineTurn s = .next t) : Inv t :=
  inv_turn h (fun i t hp hc e => by
    unfold runCommand at e
    split at e
    · exact inv_beginCommand h hp hc e
    · exact inv_exec h.data i e) e

theorem inv_startTurn {s t : State} (h : Inv s) (e : startTurn s = .next t) : Inv t :=
  inv_turn h (fun _ _ hp hc e => inv_beginCommand h hp hc e) e

/-- Reset gives the invariant from any state of a legal field (R263). -/
theorem inv_resetState {s : State} (hf : Config.fieldWf s.field = true) : Inv (resetState s) := by
  have hm : ∀ c ∈ (resetState s).mem, storageAddr s.field c.1 = true := fun c hc => by cases hc
  refine DataInv.inv (s := resetState s)
    ⟨hf, rfl, hm, fitsSlot_fillQuad _, fitsSlot_fillQuad _, fitsSlot_zero _, canonical_zero hf,
      fun b hb j hj hs => ?_, fun x hx => ?_, Nat.zero_le _⟩
    rfl (fun _ => rfl) (fun _ => ⟨rfl, rfl, rfl, rfl, rfl, rfl, rfl, rfl, rfl⟩) fun h => absurd rfl h
  · have hw := fieldWords_pos hf
    have := hs 0 (by show 0 < 4 * fieldWords s.field; omega)
    cases this
  · cases x <;> cases hx

/-! ### The host port -/

theorem fitsSlot_setSlotWord {f : Field} {r : Raw} (h : fitsSlot f r = true) (w : Nat) (v : Word) :
    fitsSlot f (setSlotWord f r w v) = true := by
  unfold setSlotWord
  split
  · next hw =>
    simp only [fitsSlot, decide_eq_true_eq] at h ⊢
    simp only [BitVec.toNat_or]
    apply Nat.or_lt_two_pow
    · simp only [BitVec.toNat_and]
      exact Nat.lt_of_le_of_lt Nat.and_le_left h
    · simp only [BitVec.toNat_shiftLeft, BitVec.toNat_setWidth]
      refine (Nat.mod_le _ _).trans_lt ?_
      rw [Nat.shiftLeft_eq, Nat.mod_eq_of_lt (by have := v.isLt; omega)]
      calc v.toNat * 2 ^ (32 * w) < 2 ^ 32 * 2 ^ (32 * w) := Nat.mul_lt_mul_of_pos_right v.isLt (by positivity)
        _ = 2 ^ (32 + 32 * w) := by rw [← pow_add]
        _ ≤ _ := Nat.pow_le_pow_right (by omega) (by omega)
  · exact h

theorem fitsSlot_quadSet {f : Field} {q : Quad Raw} (h : ∀ r ∈ quadList q, fitsSlot f r = true) (i w : Nat) (v : Word) :
    ∀ r ∈ quadList (quadSet q i (setSlotWord f (quadGet q i) w v)), fitsSlot f r = true := by
  simp only [quadList, List.mem_cons, List.not_mem_nil, or_false, forall_eq_or_imp, forall_eq] at h ⊢
  obtain ⟨h0, h1, h2, h3⟩ := h
  unfold quadSet quadGet
  split <;> simp only [fitsSlot_setSlotWord, *, and_self]

/-- A storage word outside a slot leaves the slot's bytes alone. -/
theorem putWord_outside {b b' : Bank} {j j' w k : Nat} {v : Word} {s : State} (hj : j < 1024) (hj' : j' < 1024)
    (hw : w < fieldWords s.field) (hew : fieldWords s.field ≤ 8) (hk : k < 4 * fieldWords s.field) (hne : b' ≠ b) :
    bankByte (putWord (slotAddr b j + 4 * w) v s) (slotAddr b' j' + k) = bankByte s (slotAddr b' j' + k) := by
  rw [bankByte_putWord, if_neg]
  intro ⟨h1, h2⟩
  have := slotAddr_ne (b := b') (b' := b) (j := j') (j' := j) (k := k)
    (k' := 4 * w + (slotAddr b' j' + k - (slotAddr b j + 4 * w))) (by omega) (by omega) (.inr ⟨hne, hj', hj⟩)
  omega

/-- A storage word of a host-writable bank written, no committed permutation reading it. -/
theorem DataInv.putWord {s : State} (d : DataInv s) (b : Bank) (hb : b = .rcL ∨ b = .rcS ∨ b = .din) (j w : Nat)
    (v : Word) (hj : j < 1024) (hw : w < fieldWords s.field) (hval : ∀ x, rcBank x = b → s.valid x = false) :
    DataInv (putWord (slotAddr b j + 4 * w) v s) := by
  have hew := fieldWords_le d.field
  refine ⟨d.field, Memory.wf_putAll d.memForm _, fun c hc => ?_, d.sreg, d.mkey, d.nonce, d.tag,
    fun b' hb' j' hj' hs => ?_, fun x hx => ?_, d.errCode⟩
  · rcases Memory.mem_putAll hc with h | h
    · obtain ⟨k, hk, rfl⟩ := mem_natCells h
      simp only [storageAddr, Bool.and_eq_true, decide_eq_true_eq]
      rcases hb with rfl | rfl | rfl <;> simp only [slotAddr, Bank.base] <;>
        refine ⟨⟨by omega, by omega⟩, ?_⟩ <;> simp only [putWord_field] <;> omega
    · exact d.memPlace c h
  · have hne : b' ≠ b := by rcases hb with rfl | rfl | rfl <;> rcases hb' with rfl | rfl <;> simp
    have hsame : slotNat (Machine.putWord (slotAddr b j + 4 * w) v s) b' j' = slotNat s b' j' :=
      slotNat_congr (s := s) (s' := Machine.putWord (slotAddr b j + 4 * w) v s) rfl fun k hk =>
        putWord_outside hj hj' hw hew hk hne
    rw [hsame]
    refine d.outputs b' hb' j' hj' fun k hk => ?_
    have := hs k hk
    rw [putWord_mem, Memory.byteAt_putAll, byteAt_natCells_out, Option.none_or] at this
    · exact this
    · intro k' hk'
      have hk : k < 4 * fieldWords s.field := hk
      have := slotAddr_ne (b := b') (b' := b) (j := j') (j' := j) (k := k) (k' := 4 * w + k') (by omega) (by omega)
        (.inr ⟨hne, hj', hj⟩)
      omega
  · have hx' : s.valid x = true := by cases x <;> exact hx
    have hne : rcBank x ≠ b := by
      intro e
      rw [hval x e] at hx'
      cases hx'
    refine committed_congr (s := s) rfl (by cases x <;> rfl) (by cases x <;> rfl) (fun j' hj' => ?_) (d.committed x hx')
    exact slotNat_congr (s := s) (s' := Machine.putWord (slotAddr b j + 4 * w) v s) rfl fun k hk =>
      putWord_outside hj hj' hw hew hk hne

/-- An update of data by an idle machine that leaves hidden state, BUSY and `pending` alone. -/
theorem Inv.update {s s' : State} (h : Inv s) (hb : s.busy = false) (d : DataInv s')
    (e : s' = { s' with
      busy := s.busy, pending := s.pending, rr := s.rr, acc := s.acc, t := s.t, round := s.round, blk := s.blk
      sel := s.sel, rfOut := s.rfOut, phase := s.phase, outs := s.outs }) : Inv s' := by
  have hp : s.pending = none := by
    have := h.busy
    rw [hb] at this
    cases e : s.pending with
    | none => rfl
    | some w => rw [e] at this; cases this
  have hr := h.rest (h.begun hp)
  rw [e] at d ⊢
  exact d.inv h.busy h.begun (fun _ => hr.congr rfl) fun hh => absurd hr.phase hh

theorem locate_bank {off : Offset} {b : Bank} {j w : Nat} (h : locate off = .bank b j w) : j < 1024 := by
  unfold locate at h
  simp only at h
  have := off.isLt
  repeat' split at h
  all_goals
    first
    | (simp only [Loc.bank.injEq] at h; omega)
    | (exfalso; unfold registerAt at h; split at h <;> cases h)
    | cases h

/-- A host write keeps the invariant (R66 to R72). -/
theorem inv_hostWrite {s : State} (h : Inv s) (off : Offset) (v : Word) : Inv (hostWrite off v s) := by
  have d := h.data
  have hdrop : Inv (dropWrite s) := inv_outside rfl h
  have hidle : ∀ g : State → State, (s.busy = false → Inv (g s)) → Inv (ifIdle s g) := by
    intro g hg
    unfold ifIdle
    split
    · exact hdrop
    · next hb => exact hg (by simpa using hb)
  have hsto : ∀ w (g : State → State), (s.busy = false → w < fieldWords s.field → Inv (g s)) → Inv (ifStorage s w g) := by
    intro w g hg
    unfold ifStorage
    split
    · next hw => exact hidle g fun hb => hg hb hw
    · exact h
  unfold hostWrite
  cases hloc : locate off with
  | id => exact h
  | param0 => exact h
  | param1 => exact h
  | tag => exact h
  | reserved => exact h
  | ctrl =>
    unfold writeLoc
    simp only
    split
    · exact inv_resetState h.field
    · exact inv_outside rfl h
  | status => exact inv_outside rfl h
  | cmd =>
    unfold writeLoc
    simp only
    split
    · exact inv_outside rfl h
    · next hb =>
      have hb : s.busy = false := by simpa using hb
      have hp : s.pending = none := by
        have := h.busy
        rw [hb] at this
        cases e : s.pending with
        | none => rfl
        | some w => rw [e] at this; cases this
      have hr := h.rest (h.begun hp)
      have da : DataInv (accept v s) :=
        d.congr rfl rfl rfl rfl rfl rfl rfl (fun x hx => by cases x <;> exact ⟨hx, rfl, rfl⟩) h.errCode
      exact da.inv rfl (fun hh => by cases hh) (fun _ => hr.congr rfl) fun hh => absurd hr.phase hh
  | rounds x =>
    refine hidle _ fun hb => ?_
    cases x <;> refine h.update hb (d.congr rfl rfl rfl rfl rfl rfl rfl ?_ h.errCode) rfl
    all_goals intro x hx; cases x <;> first | exact ⟨hx, rfl, rfl⟩ | cases hx
  | rclen x =>
    refine hidle _ fun hb => ?_
    cases x <;> refine h.update hb (d.congr rfl rfl rfl rfl rfl rfl rfl ?_ h.errCode) rfl
    all_goals intro x hx; cases x <;> first | exact ⟨hx, rfl, rfl⟩ | cases hx
  | klen =>
    refine hidle (fun s => { s with klen := v.setWidth 3 }) fun hb => ?_
    exact h.update hb
      (d.congr rfl rfl rfl rfl rfl rfl rfl (fun x hx => by cases x <;> exact ⟨hx, rfl, rfl⟩) h.errCode) rfl
  | sreg i w => exact hsto _ _ fun hb _ => h.update hb (d.withSreg _ (fitsSlot_quadSet h.sreg _ _ _)) rfl
  | mkey i w =>
    refine hsto _ _ fun hb _ => h.update hb ?_ rfl
    exact ⟨d.field, d.memForm, d.memPlace, d.sreg, fitsSlot_quadSet h.mkey _ _ _, d.nonce, d.tag, d.outputs,
      d.committed, d.errCode⟩
  | nonce w =>
    refine hsto _ _ fun hb _ => h.update hb ?_ rfl
    exact ⟨d.field, d.memForm, d.memPlace, d.sreg, d.mkey, fitsSlot_setSlotWord h.nonce _ _, d.tag, d.outputs,
      d.committed, d.errCode⟩
  | bank b j w =>
    have hj := locate_bank hloc
    cases b with
    | rcL =>
      refine hsto _ _ fun hb hw => ?_
      have dv := (d.withValid .large false (fun h => by cases h)).putWord .rcL (by simp) j w v hj hw
        fun x hx => by cases x <;> first | rfl | cases hx
      exact h.update (s' := setValid .large false (putWord (slotAddr .rcL j + 4 * w) v s)) hb dv rfl
    | rcS =>
      refine hsto _ _ fun hb hw => ?_
      have dv := (d.withValid .small false (fun h => by cases h)).putWord .rcS (by simp) j w v hj hw
        fun x hx => by cases x <;> first | rfl | cases hx
      exact h.update (s' := setValid .small false (putWord (slotAddr .rcS j + 4 * w) v s)) hb dv rfl
    | din =>
      refine hsto _ _ fun hb hw => ?_
      exact h.update hb (d.putWord .din (by simp) j w v hj hw fun x hx => by cases x <;> cases hx) rfl
    | dout => exact h
    | ek => exact h

/-! ### Every move -/

theorem inv_move {s t : State} (h : Inv s) (m : Move) (e : move m s = .next t) : Inv t := by
  cases m with
  | write off v =>
    cases e
    unfold transfer
    split
    · exact inv_hostWrite h off v
    · exact h
  | read off =>
    cases e
    unfold transfer
    split
    · exact inv_outside rfl h
    · exact h
  | engine => exact inv_engineTurn h e
  | start => exact inv_startTurn h e
  | rfuTake => cases e; exact inv_rfuTake h
  | rfuRespond => cases e; exact inv_rfuRespond h
  | rfuFallSilent => cases e; exact inv_outside rfl h
  | assertReset => cases e; exact inv_outside (s := resetState s) rfl (inv_resetState h.field)
  | deassertReset => cases e; exact inv_outside rfl h
  | powerCycle => cases e; exact inv_outside rfl h

end Sys2Proof.Machine
end

