-- ==== Sys2Proof/Laws/PerInstr.lean ====
section
/-! SUPPORT. The per-instruction family: the fields of every command's word (spec/30_encoding.md R90, R92, R93, R98). -/

namespace Sys2Proof.Laws.EncodedFields

/-- The word of a well-formed command holds its opcode in OP, 0 in RSV and its length operand in LEN. -/
def Statement (i : Instr) : Prop :=
  i.wf = true → opField (encode i) = opcode i ∧ rsvField (encode i) = 0 ∧ (lenField (encode i)).toNat = i.len

theorem all (i : Instr) : Statement i := by
  intro h
  have hl : i.len < 65536 := by simpa [Instr.wf] using h
  have := (opcode i).isLt
  obtain ⟨h1, h2, h3⟩ := fields_toNat (encode i)
  rw [encode_toNat] at h1 h2 h3
  refine ⟨BitVec.eq_of_toNat_eq ?_, BitVec.eq_of_toNat_eq ?_, ?_⟩
  · rw [h3]; omega
  · rw [h2]; show _ = 0; omega
  · rw [h1]; omega

theorem nop : Statement .nop := all _
theorem commitL : Statement .commitL := all _
theorem commitS : Statement .commitS := all _
theorem permL : Statement .permL := all _
theorem permS : Statement .permS := all _
theorem roll : Statement .roll := all _
theorem keystate : Statement .keystate := all _
theorem schedule (n : Nat) : Statement (.schedule n) := all _
theorem encrypt (m : Nat) : Statement (.encrypt m) := all _
theorem decrypt (m : Nat) : Statement (.decrypt m) := all _
theorem zeroize : Statement .zeroize := all _

end Sys2Proof.Laws.EncodedFields
end

