-- ==== Sys2Proof/Laws/Runs.lean ====
section
/-! SUPPORT. Runs of several steps (spec/60_exceptions.md R243, R244): a command begun reaches, one port edge a step, the
state its meaning gives in one step. -/

namespace Sys2Proof.Machine

theorem complete_same {c : ResultCode} {s s' : State} (h : clearHidden s = clearHidden s') :
    complete c s = complete c s' := by
  have he : (clearHidden s).err = (clearHidden s').err := by rw [h]
  change s.err = s'.err at he
  unfold complete
  rw [h, he]

/-- A run whose first step is known. -/
theorem run_succ {s t : State} (h : step s = .next t) (k : Nat) :
    Host.Core.run Sys2Proof.core (k + 1) s = Host.Core.run Sys2Proof.core k t := by
  have : Sys2Proof.core.step s = .next t := h
  simp only [Host.Core.run, this]

theorem startBlock_keeps (m b : Nat) (s : State) :
    (startBlock m b s).specified = s.specified ∧ (startBlock m b s).schedule = s.schedule := by
  unfold startBlock
  split <;> exact ⟨rfl, rfl⟩

theorem permDone_keeps (i : Instr) (s : State) :
    (permDone i s).specified = s.specified ∧ (permDone i s).schedule = s.schedule := by
  have htp : ∀ dir m (s : State), (transformPermDone dir m s).specified = s.specified ∧
      (transformPermDone dir m s).schedule = s.schedule := by
    intro dir m s
    unfold transformPermDone
    split
    · exact startBlock_keeps _ _ _
    · exact startBlock_keeps _ _ _
    · exact ⟨rfl, rfl⟩
    · exact ⟨rfl, rfl⟩
    · exact ⟨rfl, rfl⟩
  cases i <;> first | exact htp _ _ _ | exact ⟨rfl, rfl⟩

/-- A port edge touches neither power nor the schedule. -/
theorem portEdge_keeps (s : State) :
    (portEdge s).specified = s.specified ∧ (portEdge s).schedule = s.schedule := by
  have hrf : ∀ i (s : State), (roundFault i s).specified = s.specified ∧ (roundFault i s).schedule = s.schedule :=
    fun i s => by cases i <;> exact ⟨rfl, rfl⟩
  unfold portEdge
  split
  · unfold rfuTake
    split <;> exact ⟨rfl, rfl⟩
  · unfold rfuRespond
    split
    · exact ⟨rfl, rfl⟩
    · split
      · split
        · exact ⟨rfl, rfl⟩
        · simp only
          split
          · unfold roundDone
            split
            · exact ⟨rfl, rfl⟩
            · exact permDone_keeps _ _
          · exact hrf _ _
      · exact ⟨rfl, rfl⟩

/-- Port edges of a begun command are the steps of a machine with no other move. -/
theorem run_reaches {s t : State} (h : Reaches s t) (h1 : s.specified = true) (h2 : s.schedule = []) :
    ∃ k, Host.Core.run Sys2Proof.core k s = .next t := by
  induction h with
  | refl s => exact ⟨0, rfl⟩
  | @edge s t hb hp _ ih =>
    obtain ⟨k1, k2⟩ := portEdge_keeps s
    obtain ⟨k, hk⟩ := ih (by rw [k1]; exact h1) (by rw [k2]; exact h2)
    refine ⟨k + 1, ?_⟩
    have hstep : step s = .next (portEdge s) := by
      simp only [step, h2, agentMove, h1, if_true, move, engineTurn, turn]
      cases hpd : s.pending with
      | none => exact absurd hpd hp
      | some w => simp only; cases hph : s.phase <;> first | exact absurd hph hb | rfl
    rw [run_succ hstep]
    exact hk

/-- A permutation entered from rest, edge by edge. -/
theorem enterPerm_reaches {s : State} {i : Instr} (hr : AtRest s) (hl : s.rfu.silent = false)
    (hcmd : commandOf s = some i) (ph : Phase) (x : Sel) (v : Quad Elem) (hph : ph ≠ .idle) (hx : 1 ≤ s.rounds x) :
    ∃ r, Reaches (enterPerm ph x v s) (match perm s x v s.rfu with
      | (some q, u) => permDone i { enterPerm ph x v s with rfu := u, t := q, round := r }
      | (none, u) => roundFault i { s with rfu := u }) := by
  have hp : Presenting (enterPerm ph x v s) i := ⟨hph, hr.rfOut, hl, hcmd⟩
  have hrd : (enterPerm ph x v s).rounds x = s.rounds x := by cases x <;> rfl
  obtain ⟨r, h⟩ := perm_reach hp rfl (by show 1 ≤ (enterPerm ph x v s).rounds x; rw [hrd]; exact hx)
  refine ⟨r, ?_⟩
  have hcg : perm (enterPerm ph x v s) x v s.rfu = perm s x v s.rfu :=
    perm_congr (perm_same_banks s (enterPerm ph x v s) rfl rfl rfl _ hrd) _ _
  change Reaches (enterPerm ph x v s) (match perm (enterPerm ph x v s) x v s.rfu with
    | (some q, u) => permDone i { enterPerm ph x v s with rfu := u, t := q, round := r }
    | (none, u) => roundFault i { enterPerm ph x v s with rfu := u }) at h
  rw [hcg] at h
  generalize perm s x v s.rfu = p at h ⊢
  obtain ⟨o, u⟩ := p
  cases o with
  | some q => exact h
  | none =>
    simp only at h ⊢
    exact h.trans (.of_eq (roundFault_same rfl))

/-- The transform begun from rest, edge by edge (R183, R184, R186). -/
theorem transform_reaches {s : State} (dir : Direction) (m : Nat) (hr : AtRest s) (hl : s.rfu.silent = false)
    (hcmd : commandOf s = some (transformInstr dir m)) (hc : check (transformInstr dir m) s = .ok)
    (hvl : 1 ≤ s.rounds .large) (hvs : 1 ≤ s.rounds .small) :
    Reaches (enterPerm .boot .large (keyVector s) s) (transformCommand dir m (transformInstr dir m) s) := by
  obtain ⟨r, h⟩ := enterPerm_reaches hr hl hcmd .boot .large (keyVector s) (by simp) hvl
  unfold transformCommand
  rw [if_pos hc]
  unfold transform
  have hsil := perm_silent s .large (keyVector s) s.rfu
  generalize perm s .large (keyVector s) s.rfu = p at h hsil ⊢
  obtain ⟨o, u⟩ := p
  cases o with
  | none => exact h
  | some k0 =>
    refine h.trans ?_
    simp only [permDone_transform]
    have hb := blocks_reach dir m m
      (s := { enterPerm .boot .large (keyVector s) s with
        rfu := u, t := k0, round := r, rr := k0, acc := tagStart s.field k0 })
      0 (by omega) hr.rfOut (hsil.trans hl) hcmd hvl hvs
    refine (show Reaches (transformPermDone dir m
      { enterPerm .boot .large (keyVector s) s with rfu := u, t := k0, round := r }) _ from hb).trans (.of_eq ?_)
    have hbank : slotNat { enterPerm .boot .large (keyVector s) s with
        rfu := u, t := k0, round := r, rr := k0, acc := tagStart s.field k0 } .din = slotNat s .din :=
      funext fun j => slotNat_congr_mem rfl rfl rfl _ _
    have hl1 : (List.range' 0 m).map (slotNat s .din) = bankList s .din m := by rw [← List.range_eq_range']; rfl
    rw [hbank, hl1]
    have hbl : ∀ rr u, blockLoop { enterPerm .boot .large (keyVector s) s with
          rfu := u, t := k0, round := r, rr := k0, acc := tagStart s.field k0 } dir (bankList s .din m) rr u
        = blockLoop s dir (bankList s .din m) rr u := fun rr u =>
      blockLoop_congr (perm_same_banks s { enterPerm .boot .large (keyVector s) s with
        rfu := u, t := k0, round := r, rr := k0, acc := tagStart s.field k0 } rfl rfl rfl _ rfl) _ _ _ _
    have hpm : ∀ v u', perm { enterPerm .boot .large (keyVector s) s with
          rfu := u, t := k0, round := r, rr := k0, acc := tagStart s.field k0 } .large v u'
        = perm s .large v u' := fun v u' =>
      perm_congr (perm_same_banks s { enterPerm .boot .large (keyVector s) s with
        rfu := u, t := k0, round := r, rr := k0, acc := tagStart s.field k0 } rfl rfl rfl _ rfl) _ _
    simp only [hbl]
    generalize blockLoop s dir (bankList s .din m) k0 u = p
    obtain ⟨o, u'⟩ := p
    cases o with
    | none => exact roundFault_same rfl
    | some bs =>
      simp only [hpm]
      simp only [show (enterPerm .boot .large (keyVector s) s).field = s.field from rfl]
      generalize perm s .large (bs.foldl (tagFold s.field) (tagStart s.field k0)) u' = p
      obtain ⟨o, u''⟩ := p
      cases o with
      | none => exact roundFault_same rfl
      | some t =>
        show finishTransform (s.outs ++ bs.map Block.out) t.c0 _ = finishTransform (bs.map Block.out) t.c0 _
        rw [hr.outs, List.nil_append]
        exact complete_same rfl

/-- A command begun from rest reaches the state its meaning gives (R243). -/
theorem openCommand_reaches {s s1 : State} {i : Instr} (hv : ∀ x, s.valid x = true → 1 ≤ s.rounds x) (hr : AtRest s)
    (hl : s.rfu.silent = false) (hcmd : commandOf s = some i) (ho : openCommand i s = some s1) :
    ∃ t, exec i s = .next t ∧ Reaches s1 t := by
  unfold openCommand at ho
  split at ho
  · next hc =>
    have hval := (check_ok hc).2.2.2.1
    have hperm : ∀ x, s.valid x = true →
        (i = .permL ∨ i = .permS) → Reaches (enterPerm .perm x (stateVector s) s) (permCommand x i s) := by
      intro x hx hi
      obtain ⟨r, h⟩ := enterPerm_reaches hr hl hcmd .perm x (stateVector s) (by simp) (hv x hx)
      unfold permCommand
      rw [if_pos hc]
      generalize perm s x (stateVector s) s.rfu = p at h ⊢
      obtain ⟨o, u⟩ := p
      cases o with
      | none => exact h
      | some q =>
        refine h.trans (.of_eq ?_)
        rcases hi with rfl | rfl <;> exact complete_same rfl
    cases i <;> simp only [Option.some.injEq, reduceCtorEq] at ho
    case permL => subst ho; exact ⟨_, rfl, hperm .large (hval _ (by simp [needsValid])) (.inl rfl)⟩
    case permS => subst ho; exact ⟨_, rfl, hperm .small (hval _ (by simp [needsValid])) (.inr rfl)⟩
    case schedule n =>
      subst ho
      obtain ⟨r, h⟩ := enterPerm_reaches hr hl hcmd .boot .large (stateVector s) (by simp)
        (hv _ (hval _ (by simp [needsValid])))
      refine ⟨_, rfl, ?_⟩
      unfold scheduleCommand
      rw [if_pos hc]
      generalize perm s .large (stateVector s) s.rfu = p at h ⊢
      obtain ⟨o, u⟩ := p
      cases o with
      | none => exact h
      | some q => exact h.trans (.of_eq (complete_same rfl))
    case encrypt m =>
      subst ho
      exact ⟨_, rfl, transform_reaches .encrypting m hr hl hcmd hc (hv _ (hval _ (by simp [needsValid])))
        (hv _ (hval _ (by simp [needsValid])))⟩
    case decrypt m =>
      subst ho
      exact ⟨_, rfl, transform_reaches .decrypting m hr hl hcmd hc (hv _ (hval _ (by simp [needsValid])))
        (hv _ (hval _ (by simp [needsValid])))⟩
  · cases ho

end Sys2Proof.Machine
end

