-- ==== Sys2Proof/Laws/Scripts.lean ====
section
/-! SUPPORT. What a script of answers does to a computation (spec/40_permutation.md R128, R129): it ends with a RoundFault
exactly when one of the answers to its requests is not canonical, and after the requests up to that answer. -/

namespace Sys2Proof.Machine

/-- One of the next `n` answers of the script is not canonical. -/
def HasBad (f : Field) (n : Nat) (u : Rfu) : Prop := ∃ q, some q ∈ u.script.take n ∧ BadAnswer f q

theorem badAnswer_iff (f : Field) (q : Quad Raw) :
    BadAnswer f q ↔ quadCanonical f (quadMap (fun r => r.toNat % 2 ^ fieldWidth f) q) = false := by
  rw [← Bool.not_eq_true, quadCanonical_iff]
  simp only [BadAnswer, quadList, quadMap, List.mem_cons, List.not_mem_nil, or_false, exists_eq_or_imp, exists_eq_left,
    not_and_or, Nat.not_lt]

/-! ### Whether a computation ends with a RoundFault -/

/-- A computation of `n` requests from unit `u`: no result exactly when an answer is bad, and else `n` answers used. -/
def Answered {α : Type} (f : Field) (n : Nat) (u : Rfu) (r : Option α × Rfu) : Prop :=
  (r.1 = none ↔ HasBad f n u) ∧ (r.1 ≠ none → r.2.script = u.script.drop n)

theorem hasBad_zero (f : Field) (u : Rfu) : ¬ HasBad f 0 u := by rintro ⟨q, hq, -⟩; simp at hq

theorem hasBad_add (f : Field) (m n : Nat) (u u' : Rfu) (h : u'.script = u.script.drop m) :
    HasBad f (m + n) u ↔ HasBad f m u ∨ HasBad f n u' := by
  simp only [HasBad, h, List.take_add, List.mem_append, or_and_right, exists_or]

theorem hasBad_one {f : Field} (hf : Config.fieldWf f = true) (req : RfRequest) (u : Rfu) :
    HasBad f 1 u ↔ quadCanonical f (rfuAnswer f u req) = false := by
  unfold HasBad rfuAnswer
  split
  · next q l hq => simp [hq, badAnswer_iff]
  · next hq =>
    simp only [mix_canonical hf, Bool.true_eq_false, iff_false]
    rintro ⟨q, hm, -⟩
    cases hs : u.script with
    | nil => simp [hs] at hm
    | cons e l =>
      simp only [hs, List.take_succ_cons, List.take_zero, List.mem_singleton] at hm
      exact hq q l (by rw [hs, ← hm])

theorem permRounds_answered {s : State} (hf : Config.fieldWf s.field = true) (x : Sel) (n i : Nat) (t : Quad Elem)
    (u : Rfu) : Answered s.field n u (permRounds s x n i t u) := by
  induction n generalizing i t u with
  | zero => exact ⟨by simp [permRounds, hasBad_zero], fun _ => rfl⟩
  | succ n ih =>
    have h1 := hasBad_one hf ⟨x, i, t, roundConstants s x i⟩ u
    have hd : (rfuDrop (rfuShow ⟨x, i, t, roundConstants s x i⟩ u)).script = u.script.drop 1 := rfl
    have hadd := hasBad_add s.field 1 n u _ hd
    rw [Nat.add_comm] at hadd
    by_cases hq : quadCanonical s.field (rfuAnswer s.field u ⟨x, i, t, roundConstants s x i⟩) = true
    · obtain ⟨ih1, ih2⟩ := ih (i + 1) (rfuAnswer s.field u ⟨x, i, t, roundConstants s x i⟩)
        (rfuDrop (rfuShow ⟨x, i, t, roundConstants s x i⟩ u))
      simp only [permRounds, rfuRound, hq, if_true]
      refine ⟨ih1.trans ?_, fun h => (ih2 h).trans ?_⟩
      · rw [hadd, h1, hq]; simp
      · rw [hd, List.drop_drop, Nat.add_comm]
    · simp only [permRounds, rfuRound, hq]
      exact ⟨iff_of_true rfl (hadd.2 (.inl (h1.2 (by simpa using hq)))), fun h => absurd rfl h⟩

/-- `P_x` ends with a RoundFault exactly when one of the next ROUNDS_x answers is not canonical (R128). -/
theorem perm_answered {s : State} (hf : Config.fieldWf s.field = true) (x : Sel) (t : Quad Elem) (u : Rfu) :
    Answered s.field (s.rounds x) u (perm s x t u) := permRounds_answered hf x _ _ t u

theorem blockLoop_answered {s : State} (hf : Config.fieldWf s.field = true) (dir : Direction) (ds : List Elem)
    (rr : Quad Elem) (u : Rfu) :
    Answered s.field (ds.length * s.rounds .small) u (blockLoop s dir ds rr u) := by
  induction ds generalizing rr u with
  | nil => exact ⟨by simp [blockLoop, hasBad_zero], fun _ => by simp [blockLoop]⟩
  | cons d ds ih =>
    obtain ⟨h1, h2⟩ := perm_answered hf .small (maskSeed rr.c0) u
    rw [List.length_cons, Nat.succ_mul, Nat.add_comm, blockLoop]
    cases hp : perm s .small (maskSeed rr.c0) u with
    | mk o u' =>
      rw [hp] at h1 h2
      cases o with
      | none =>
        have hb := h1.1 rfl
        refine ⟨iff_of_true rfl ?_, fun h => absurd rfl h⟩
        exact (hasBad_add s.field _ _ u { u with script := u.script.drop (s.rounds .small) } rfl).2 (.inl hb)
      | some t =>
        have hd : u'.script = u.script.drop (s.rounds .small) := h2 (by simp)
        have hadd := hasBad_add s.field (s.rounds .small) (ds.length * s.rounds .small) u u' hd
        have hn : ¬ HasBad s.field (s.rounds .small) u := fun h => by simpa using h1.2 h
        obtain ⟨ih1, ih2⟩ := ih (roll s.field rr) u'
        simp only
        cases hl : blockLoop s dir ds (roll s.field rr) u' with
        | mk o' u'' =>
          rw [hl] at ih1 ih2
          cases o' with
          | none => exact ⟨iff_of_true rfl (hadd.2 (.inr (ih1.1 rfl))), fun h => absurd rfl h⟩
          | some bs =>
            refine ⟨iff_of_false (by simp) fun h => ?_, fun _ => ?_⟩
            · exact (hadd.1 h).elim hn fun h => by simpa using ih1.2 h
            · rw [ih2 (by simp), hd, List.drop_drop]

/-- The transform ends with a RoundFault exactly when one of its `2*ROUNDS_L + m*ROUNDS_S` answers is not canonical. -/
theorem transform_answered {s : State} (hf : Config.fieldWf s.field = true) (dir : Direction) (m : Nat) :
    (transform s dir m).1 = none ↔
      HasBad s.field (s.rounds .large + (m * s.rounds .small + s.rounds .large)) s.rfu := by
  obtain ⟨h1, h2⟩ := perm_answered hf .large (keyVector s) s.rfu
  unfold transform
  cases hp : perm s .large (keyVector s) s.rfu with
  | mk o u =>
    rw [hp] at h1 h2
    cases o with
    | none =>
      exact iff_of_true rfl ((hasBad_add s.field _ _ s.rfu { s.rfu with script := s.rfu.script.drop _ } rfl).2
        (.inl (h1.1 rfl)))
    | some k0 =>
      rw [hasBad_add s.field _ _ s.rfu u (h2 (by simp))]
      have hn : ¬ HasBad s.field (s.rounds .large) s.rfu := fun h => by simpa using h1.2 h
      simp only [hn, false_or]
      obtain ⟨h3, h4⟩ := blockLoop_answered hf dir (bankList s .din m) k0 u
      rw [length_bankList] at h3 h4
      cases hl : blockLoop s dir (bankList s .din m) k0 u with
      | mk o' u' =>
        rw [hl] at h3 h4
        cases o' with
        | none =>
          exact iff_of_true rfl ((hasBad_add s.field _ _ u { u with script := u.script.drop _ } rfl).2
            (.inl (h3.1 rfl)))
        | some bs =>
          rw [hasBad_add s.field _ _ u u' (h4 (by simp))]
          have hn' : ¬ HasBad s.field (m * s.rounds .small) u := fun h => by simpa using h3.2 h
          simp only [hn', false_or]
          obtain ⟨h5, -⟩ := perm_answered hf .large (bs.foldl (tagFold s.field) (tagStart s.field k0)) u'
          cases hq : perm s .large (bs.foldl (tagFold s.field) (tagStart s.field k0)) u' with
          | mk o'' u'' =>
            rw [hq] at h5
            cases o'' with
            | none => exact iff_of_true rfl (h5.1 rfl)
            | some t => exact iff_of_false (by simp) fun h => by simpa using h5.2 h

/-! ### Where a computation ends, when the answers before the bad one are the contract's -/

/-- The unit's next `k` answers are the contract's, the one after them is `q`. -/
def NextBad (u : Rfu) (k : Nat) (q : Quad Raw) (rest : List (Option (Quad Raw))) : Prop :=
  u.script = List.replicate k none ++ some q :: rest

/-- The unit after a computation with requests `reqs` that the answer to request `k` ended. -/
def stopped (u : Rfu) (reqs : List RfRequest) (k : Nat) (rest : List (Option (Quad Raw))) : Rfu :=
  { u with script := rest, trace := u.trace ++ reqs.take (k + 1) }

theorem NextBad.after {u : Rfu} {k : Nat} {q : Quad Raw} {rest : List (Option (Quad Raw))} (h : NextBad u k q rest)
    {reqs : List RfRequest} (hl : reqs.length ≤ k) : NextBad (afterRequests u reqs) (k - reqs.length) q rest := by
  obtain ⟨j, rfl⟩ := Nat.exists_eq_add_of_le hl
  unfold NextBad at h ⊢
  simp [afterRequests, h, List.drop_append]

theorem stopped_left {u : Rfu} {l : List RfRequest} {k : Nat} (h : k < l.length) (r : List RfRequest)
    (rest : List (Option (Quad Raw))) : stopped u (l ++ r) k rest = stopped u l k rest := by
  unfold stopped
  rw [List.take_append_of_le_length h]

theorem stopped_right {u : Rfu} {l : List RfRequest} {k : Nat} (h : l.length ≤ k) (r : List RfRequest)
    (rest : List (Option (Quad Raw))) :
    stopped (afterRequests u l) r (k - l.length) rest = stopped u (l ++ r) k rest := by
  unfold stopped afterRequests
  rw [List.take_append, List.take_of_length_le (by omega : l.length ≤ k + 1),
    show k + 1 - l.length = k - l.length + 1 by omega, List.append_assoc]

theorem permRounds_stops {s : State} (hf : Config.fieldWf s.field = true) (x : Sel) (t : Quad Elem) {q : Quad Raw}
    (hq : BadAnswer s.field q) (rest : List (Option (Quad Raw))) (n i k : Nat) {u : Rfu} (h : NextBad u k q rest) :
    let reqs := (List.range' i n).map fun i => ⟨x, i, roundState s x t i, roundConstants s x i⟩
    permRounds s x n i (roundState s x t i) u =
      if k < n then (none, stopped u reqs k rest) else (some (roundState s x t (i + n)), afterRequests u reqs) := by
  induction n generalizing i k u with
  | zero => simp [permRounds, afterRequests_nil]
  | succ n ih =>
    simp only [permRounds, rfuRound, List.range'_succ, List.map_cons]
    cases k with
    | zero =>
      have hs : u.script = some q :: rest := by simpa [NextBad] using h
      have ha : quadCanonical s.field
          (rfuAnswer s.field u ⟨x, i, roundState s x t i, roundConstants s x i⟩) = false := by
        simpa [rfuAnswer, hs] using (badAnswer_iff _ _).1 hq
      simp [ha, rfuDrop, rfuShow, hs, stopped]
    | succ k =>
      have hs : u.script = none :: (List.replicate k none ++ some q :: rest) := by
        simpa [NextBad, List.replicate_succ] using h
      have ha : rfuAnswer s.field u ⟨x, i, roundState s x t i, roundConstants s x i⟩ = roundState s x t (i + 1) := by
        simp [rfuAnswer, hs, roundState]
      have hnext : NextBad (rfuDrop (rfuShow ⟨x, i, roundState s x t i, roundConstants s x i⟩ u)) k q rest := by
        simp [NextBad, rfuDrop, rfuShow, hs]
      rw [ha, show quadCanonical s.field (roundState s x t (i + 1)) = true from mix_canonical hf x _ _]
      simp only [if_true]
      rw [ih (i + 1) k hnext]
      simp only [Nat.add_lt_add_iff_right, show i + 1 + n = i + (n + 1) by omega]
      split <;> simp [stopped, afterRequests, rfuDrop, rfuShow, hs]

/-- `P_x` up to the bad answer (R128, R129). -/
theorem perm_stops {s : State} (hf : Config.fieldWf s.field = true) (x : Sel) (t : Quad Elem) {q : Quad Raw}
    (hq : BadAnswer s.field q) (rest : List (Option (Quad Raw))) (k : Nat) {u : Rfu} (h : NextBad u k q rest) :
    perm s x t u =
      if k < (permRequests s x t).length then (none, stopped u (permRequests s x t) k rest)
      else (some (permutation s x t), afterRequests u (permRequests s x t)) := by
  have := permRounds_stops hf x t hq rest (s.rounds x) 0 k h
  simp only [Nat.zero_add, ← List.range_eq_range'] at this
  rw [length_permRequests]
  exact this

theorem blockLoop_stops {s : State} (hf : Config.fieldWf s.field = true) (dir : Direction) (g : Nat → Elem)
    {q : Quad Raw} (hq : BadAnswer s.field q) (rest : List (Option (Quad Raw))) (n i k : Nat) {u : Rfu}
    (h : NextBad u k q rest) :
    let reqs := (List.range' i n).flatMap (blockRequests s)
    blockLoop s dir ((List.range' i n).map g) ((roll s.field)^[i] (bootstrap s)) u =
      if k < reqs.length then (none, stopped u reqs k rest)
      else (some ((List.range' i n).map fun j => blockAt s dir j (g j)), afterRequests u reqs) := by
  induction n generalizing i k u with
  | zero => simp [blockLoop, afterRequests_nil]
  | succ n ih =>
    simp only [List.range'_succ, List.map_cons, List.flatMap_cons, blockLoop, List.length_append]
    have hp := perm_stops hf .small (maskSeed ((roll s.field)^[i] (bootstrap s)).c0) hq rest k h
    change perm s .small _ u = if k < (blockRequests s i).length then (none, stopped u (blockRequests s i) k rest)
      else (some _, afterRequests u (blockRequests s i)) at hp
    rw [hp]
    by_cases hk : k < (blockRequests s i).length
    · simp only [hk, if_true, show k < (blockRequests s i).length + _ from Nat.lt_add_right _ hk, stopped_left hk]
    · have hk' : (blockRequests s i).length ≤ k := Nat.le_of_not_lt hk
      simp only [hk, if_false]
      rw [← Function.iterate_succ_apply' (roll s.field), ih (i + 1) _ (h.after hk')]
      simp only [stopped_right hk', afterRequests_append,
        show (k - (blockRequests s i).length < ((List.range' (i + 1) n).flatMap (blockRequests s)).length ↔
          k < (blockRequests s i).length + ((List.range' (i + 1) n).flatMap (blockRequests s)).length) by omega]
      by_cases h2 : k < (blockRequests s i).length + ((List.range' (i + 1) n).flatMap (blockRequests s)).length
      · simp only [h2, if_true]
      · simp only [h2, if_false]
        rfl

/-- The transform up to the bad answer, in whichever phase it comes (R128, R184). -/
theorem transform_stops {s : State} (hf : Config.fieldWf s.field = true) (dir : Direction) (m : Nat) {q : Quad Raw}
    (hq : BadAnswer s.field q) (rest : List (Option (Quad Raw))) (k : Nat) (h : NextBad s.rfu k q rest)
    (hk : k < (transformRequests s (messageOf s dir) m).length) :
    transform s dir m = (none, stopped s.rfu (transformRequests s (messageOf s dir) m) k rest) := by
  have hb : bankList s .din m = (List.range' 0 m).map (slotNat s .din) := by rw [← List.range_eq_range']; rfl
  have hreq : transformRequests s (messageOf s dir) m =
      permRequests s .large (keyVector s) ++ ((List.range m).flatMap (blockRequests s) ++
        permRequests s .large (accumulator s (messageOf s dir) m)) := by
    rw [← List.append_assoc]; rfl
  rw [hreq] at hk ⊢
  unfold transform
  rw [perm_stops hf .large (keyVector s) hq rest k h]
  by_cases h1 : k < (permRequests s .large (keyVector s)).length
  · simp only [h1, if_true, stopped_left h1]
  · have h1' := Nat.le_of_not_lt h1
    simp only [h1, if_false, ← stopped_right h1']
    have hl := blockLoop_stops hf dir (slotNat s .din) hq rest m 0 _ (h.after h1')
    rw [← hb, ← List.range_eq_range'] at hl
    rw [show permutation s .large (keyVector s) = (roll s.field)^[0] (bootstrap s) from rfl, hl]
    by_cases h2 : k - (permRequests s .large (keyVector s)).length < ((List.range m).flatMap (blockRequests s)).length
    · simp only [h2, if_true, stopped_left h2]
    · have h2' := Nat.le_of_not_lt h2
      simp only [h2, if_false, ← stopped_right h2']
      simp only [Function.iterate_zero, id_eq]
      rw [accumulator_eq_foldl, perm_stops hf .large _ hq rest _ ((h.after h1').after h2'), if_pos]
      simp only [List.length_append] at hk
      omega

end Sys2Proof.Machine
end

