-- ==== Sys2Proof/Tests/Slice0.lean ====
section
/-! SUPPORT. Tests of the model against spec/95_test_vectors.md and the rules' own examples, each one step on a small state,
and one witness for the hypotheses of every statement that has some. -/

namespace Sys2Proof.Tests

open Sys2Proof Sys2Proof.Machine

set_option Elab.async false

/-! ### States -/

/-- Right after reset, in GF(101) (TC-A's field). -/
def fresh : State := State.initial (.prime 101)

/-- The field of TC-C. -/
def gf2n : Field := .binary 128 0x100000000000000000000000000000087

/-- Test configuration TC-A of spec/95_test_vectors.md, both permutations committed, with its fixture inputs: KLEN = 2,
MK = (0, 0), NONCE = 1, DIN = [0, 1], S = (0, 0, 0, 1). -/
def tcA : State :=
  { fresh with
    roundsL := 3
    roundsS := 2
    rclenL := 12
    rclenS := 8
    validL := true
    validS := true
    klen := 2
    nonce := 1
    sreg := ⟨0, 0, 0, 1⟩
    mem := slotCells 1 .rcL 0 [1, 2, 3, 4, 5, 6, 7, 8, 9, 10, 11, 12] ++
      slotCells 1 .rcS 0 [10, 11, 12, 13, 14, 15, 16, 17] ++ slotCells 1 .din 0 [0, 1] }

/-- The unit about to give these answers (`MIX_TEST`'s, from the spec's round traces). -/
def answering (l : List (Quad Elem)) (s : State) : State :=
  { s with rfu := { s.rfu with script := l.map fun q => some (rawQuad q) } }

/-- The outcome is a next state with the property. -/
def gives (o : Host.Outcome State Fault Refusal) (p : State → Bool) : Bool :=
  match o with
  | .next t => p t
  | .fault _ => false
  | .refused _ => false

/-- The word run by the next step. -/
def run (w : Nat) (s : State) : Host.Outcome State Fault Refusal := step (s.withFetchWord 32 w)

def mixL0 : List (Quad Elem) := [⟨2, 2, 3, 4⟩, ⟨13, 8, 9, 11⟩, ⟨23, 23, 19, 21⟩]

/-- The ten answers of the ENCRYPT 2 trace, section 3.8. -/
def mixTransform : List (Quad Elem) :=
  mixL0 ++ [⟨10, 34, 12, 13⟩, ⟨64, 25, 50, 29⟩, ⟨10, 56, 12, 13⟩, ⟨82, 25, 72, 29⟩] ++
    [⟨77, 1, 74, 72⟩, ⟨53, 83, 8, 82⟩, ⟨46, 63, 94, 20⟩]

/-! ### Well-formed terms -/

theorem test_wf_refuses_long_schedule : Instr.wf (.schedule 65536) = false := by decide
theorem test_wf_refuses_long_encrypt : Instr.wf (.encrypt 65536) = false := by decide
theorem test_wf_refuses_long_decrypt : Instr.wf (.decrypt 70000) = false := by decide
theorem test_wf_takes_longest : Instr.wf (.schedule 65535) = true := by decide

/-! ### Decoding: the words of section 3.1, each written from the fields of R90 -/

theorem test_decode_control :
    decode (0x0000#16 ++ 0x00#8 ++ 0x00#8) = .command .nop ∧
      decode (0x0000#16 ++ 0x00#8 ++ 0x0A#8) = .command .zeroize := by decide

theorem test_decode_permutation :
    decode (0x0000#16 ++ 0x00#8 ++ 0x01#8) = .command .commitL ∧
      decode (0x0000#16 ++ 0x00#8 ++ 0x02#8) = .command .commitS ∧
      decode (0x0000#16 ++ 0x00#8 ++ 0x03#8) = .command .permL ∧
      decode (0x0000#16 ++ 0x00#8 ++ 0x04#8) = .command .permS := by decide

theorem test_decode_rolling_and_key :
    decode (0x0000#16 ++ 0x00#8 ++ 0x05#8) = .command .roll ∧
      decode (0x0000#16 ++ 0x00#8 ++ 0x06#8) = .command .keystate ∧
      decode (0x0003#16 ++ 0x00#8 ++ 0x07#8) = .command (.schedule 3) ∧
      decode (0x0401#16 ++ 0x00#8 ++ 0x07#8) = .command (.schedule 1025) := by decide

theorem test_decode_transform :
    decode (0x0002#16 ++ 0x00#8 ++ 0x08#8) = .command (.encrypt 2) ∧
      decode (0xFFFF#16 ++ 0x00#8 ++ 0x09#8) = .command (.decrypt 65535) := by decide

theorem test_decode_illegal :
    decode 0x0000000B = .illegal .reservedOpcode ∧ decode 0x000000FF = .illegal .reservedOpcode ∧
      decode 0x00000108 = .illegal .reservedField ∧ decode 0x00010003 = .illegal .lengthNotAllowed ∧
      decode 0x0001000A = .illegal .lengthNotAllowed ∧ decode 0x80000000 = .illegal .lengthNotAllowed := by decide

theorem test_decode_bytes :
    decodeBytes [0x07, 0x00, 0x03, 0x00, 0xAA] = (.command (.schedule 3), [0xAA]) ∧
      decodeBytes [0x07, 0x00, 0x03] = (.illegal .truncated, [0x07, 0x00, 0x03]) := by decide

theorem test_decode_table_word :
    decodeTableWord 32 0x04000009 = some (.decrypt 1024) ∧ decodeTableWord 32 0x0B = none := by decide

/-! ### Field arithmetic, section 3.2 -/

theorem test_field_prime :
    fieldAdd (.prime 101) 100 1 = 0 ∧ fieldSub (.prime 101) 0 1 = 100 ∧ fieldMul (.prime 101) 100 100 = 1 := by decide

theorem test_field_binary :
    fieldMul gf2n 5 7 = 27 ∧ fieldMul gf2n (2 ^ 127) 2 = 0x87 ∧
      fieldMul gf2n (2 ^ 127) (2 ^ 127) = 0xC0000000000000000000000000001067 := by decide +kernel

/-! ### Commands: sections 3.3 to 3.9 -/

/-- N-1: after reset, NOP leaves STATUS = 0x002. -/
theorem test_nop_after_reset : gives (run 0x00000000 fresh) (fun t => statusWord t == 0x002#32) = true := by
  decide +kernel

/-- N-2: ERR stays, ERR_CODE becomes 0. -/
theorem test_nop_keeps_err :
    gives (run 0x00000000 { tcA with done := true, err := true, errCode := 4 })
      (fun t => statusWord t == 0x066#32) = true := by decide +kernel

/-- C-1. -/
theorem test_commitL_commits :
    gives (run 0x00000001 { tcA with validL := false, validS := false }) (fun t => statusWord t == 0x022#32) = true := by
  decide +kernel

/-- C-6: RC_L[5] = 101. -/
theorem test_commitL_field_mismatch :
    gives (run 0x00000001 { tcA with validS := false, mem := Memory.put tcA.mem (0x8000 + 0x20 * 5) 101 })
      (fun t => statusWord t == 0x306#32) = true := by decide +kernel

/-- C-2. -/
theorem test_commitS_commits :
    gives (run 0x00000002 { tcA with validS := false }) (fun t => statusWord t == 0x062#32) = true := by decide +kernel

/-- C-4 for the small permutation: 257 rounds. -/
theorem test_commitS_too_many_rounds :
    gives (run 0x00000002 { tcA with validL := false, roundsS := 257, rclenS := 1028 })
      (fun t => statusWord t == 0x106#32) = true := by decide +kernel

/-- Section 3.4. -/
theorem test_permL_vector :
    gives (run 0x00000003 (answering mixL0 tcA))
      (fun t => decide (t.sreg = ⟨23, 23, 19, 21⟩) && t.rfu.trace.length == 3) = true := by decide +kernel

/-- PM-5: round 2 answered with (23, 23, 19, 110). -/
theorem test_permL_round_fault :
    gives (run 0x00000003 (answering [⟨2, 2, 3, 4⟩, ⟨13, 8, 9, 11⟩, ⟨23, 23, 19, 110⟩] tcA))
      (fun t => decide (t.sreg = ⟨0, 0, 0, 0⟩) && t.errCode == 6#4 && t.rfu.trace.length == 3) = true := by
  decide +kernel

/-- Section 3.4. -/
theorem test_permS_vector :
    gives (run 0x00000004 (answering [⟨10, 16, 12, 13⟩, ⟨86, 25, 32, 29⟩] { tcA with sreg := ⟨5, 0, 0, 0⟩ }))
      (fun t => decide (t.sreg = ⟨86, 25, 32, 29⟩)) = true := by decide +kernel

/-- PM-2. -/
theorem test_permS_needs_commit :
    gives (run 0x00000004 { tcA with validS := false })
      (fun t => t.errCode == 1#4 && decide (t.sreg = tcA.sreg) && t.rfu.trace.length == 0) = true := by decide +kernel

/-- Section 3.5: (100, 100, 0, 0) in GF(101), with no permutation committed. -/
theorem test_roll_wraps :
    gives (run 0x00000005 { fresh with sreg := ⟨100, 100, 0, 0⟩ })
      (fun t => decide (t.sreg = ⟨1, 100, 100, 0⟩) && t.errCode == 0#4) = true := by decide +kernel

/-- Section 3.5: (2, 3, 4, 5) in GF(2^128). -/
theorem test_roll_binary :
    gives (run 0x00000005 { State.initial gf2n with sreg := ⟨2, 3, 4, 5⟩ })
      (fun t => decide (t.sreg = ⟨3, 2, 3, 4⟩)) = true := by decide +kernel

/-- Section 3.6: KLEN 4 in GF(101). -/
theorem test_keystate_four :
    gives (run 0x00000006 { fresh with klen := 4, mkey := ⟨1, 2, 3, 4⟩, nonce := 5 })
      (fun t => decide (t.sreg = ⟨1, 2, 3, 9⟩)) = true := by decide +kernel

/-- Section 3.6: KLEN 7 and a non-canonical nonce give DimensionError. -/
theorem test_keystate_dimension_first :
    gives (run 0x00000006 { fresh with klen := 7, nonce := 101 }) (fun t => t.errCode == 2#4) = true := by
  decide +kernel

/-- Section 3.7: n = 3. -/
theorem test_schedule_three :
    gives (run 0x00030007 (answering mixL0 tcA))
      (fun t => decide (bankList t .ek 3 = [23, 45, 44]) && decide (t.sreg = tcA.sreg)) = true := by decide +kernel

/-- SC-5: LengthError before ConfigError. -/
theorem test_schedule_length_first :
    gives (run 0x04010007 { tcA with validL := false }) (fun t => t.errCode == 5#4) = true := by decide +kernel

/-- Section 3.8: the fixture inputs. -/
theorem test_encrypt_fixture :
    gives (run 0x00020008 (answering mixTransform tcA))
      (fun t => decide (bankList t .dout 2 = [64, 83]) && t.tag == 46#256 && t.rfu.trace.length == 10) = true := by
  decide +kernel

/-- T-6: request 6 answered non-canonically. -/
theorem test_encrypt_round_fault :
    gives (run 0x00020008 (answering (mixTransform.take 5 ++ [⟨10, 101, 12, 13⟩]) { tcA with tag := 7 }))
      (fun t => decide (bankList t .dout 2 = [0, 0]) && t.tag == 0#256 && t.errCode == 6#4 &&
        t.rfu.trace.length == 6) = true := by decide +kernel

/-- Section 3.8: the ciphertext of the fixture. -/
theorem test_decrypt_fixture :
    gives (run 0x00020009 (answering mixTransform
        { tcA with mem := Memory.putAll (slotCells 1 .din 0 [64, 83]) tcA.mem }))
      (fun t => decide (bankList t .dout 2 = [0, 1]) && t.tag == 46#256) = true := by decide +kernel

/-- T-7 for DECRYPT: LengthError first. -/
theorem test_decrypt_length_first :
    gives (run 0x04010009 { tcA with klen := 5, validL := false }) (fun t => t.errCode == 5#4) = true := by
  decide +kernel

/-- Z-1. -/
theorem test_zeroize_registers :
    gives (run 0x0000000A { tcA with tag := 46, mkey := ⟨1, 2, 3, 4⟩ })
      (fun t => decide (t.sreg = ⟨0, 0, 0, 0⟩) && decide (t.mkey = ⟨0, 0, 0, 0⟩) && t.nonce == 0#256 && t.tag == 0#256 &&
        t.klen == 0#3 && t.roundsL == 3#16 && statusWord t == 0x062#32) = true := by decide +kernel

/-- Illegal words: section 3.1 and P3. -/
theorem test_illegal_word :
    gives (run 0x0000000B { tcA with done := true }) (fun t => statusWord t == 0x466#32) = true := by decide +kernel

/-! ### Host port, section 3.10 -/

/-- H-1 to H-3, H-5. -/
theorem test_port_reads :
    hostRead tcA 0x000 = 0x43490100 ∧ hostRead tcA 0x008 = 0x01000400 ∧ hostRead tcA 0x002 = 0x43490100 ∧
      hostRead tcA 0x104 = 0 ∧ hostRead tcA 0x160 = 1 ∧ hostRead tcA 0x18020 = 1 := by decide +kernel

/-- H-7, H-9 to H-11: a busy machine. -/
theorem test_port_busy :
    hostRead { tcA with busy := true } 0x160 = 0 ∧ (hostWrite 0x180 9 { tcA with busy := true }).wrDrop = true ∧
      (hostWrite 0x220 9 { tcA with busy := true }).wrDrop = false ∧
      (hostWrite 0x014 5 { tcA with busy := true }).cmdDrop = true := by decide +kernel

/-- C-9, C-10: a write to word 1 of RC_L[0] keeps VALID_L, one to word 0 of RC_L[11] clears it. -/
theorem test_port_commit_lost :
    (hostWrite 0x08004 0 tcA).validL = true ∧ (hostWrite 0x08160 12 tcA).validL = false := by decide +kernel

/-- H-16: soft reset wins over IRQ_EN. -/
theorem test_port_soft_reset :
    hostRead (hostWrite 0x00C 3 tcA) 0x00C = 0 ∧ hostRead (hostWrite 0x00C 3 tcA) 0x010 = 0 := by decide +kernel

/-! ### The first step after reset -/

theorem test_reset_runs_nop :
    gives (step (State.reset.withFetchWord 32 0)) (fun t => t.done && !t.busy && t.errCode == 0#4) = true := by
  decide +kernel

theorem test_reset_schedule_needs_commit :
    gives (step (State.reset.withFetchWord 32 0x00030007)) (fun t => t.errCode == 1#4) = true := by decide +kernel

/-! ### One round of a begun command -/

/-- P3 (b): a PERM_L begun, its first request taken, STATUS = 0x61. -/
theorem test_begun_permL :
    gives (startTurn (accept 3 tcA)) (fun s => gives (move .rfuTake s) (fun t => statusWord t == 0x61#32 && t.rfOut)) =
      true := by decide +kernel

/-! ## Witnesses: states and operands that meet the hypotheses of the statements -/

theorem rest_tcA : AtRest tcA := ⟨rfl, rfl, rfl, rfl, rfl, rfl, rfl, rfl, rfl⟩
theorem rest_fresh : AtRest fresh := ⟨rfl, rfl, rfl, rfl, rfl, rfl, rfl, rfl, rfl⟩
theorem wf_tcA : Config.fieldWf tcA.field = true := by
  simp only [Config.fieldWf, tcA, fresh, State.initial]
  norm_num
theorem wf_gf2n : Config.fieldWf gf2n = true := fieldWf_binaryFixture
/-- S of TC-A holds elements. -/
theorem elements_tcA : ∀ r ∈ quadList tcA.sreg, r.toNat < fieldCard tcA.field := by
  simp [quadList, fieldCard, tcA, fresh, State.initial]

theorem honest_tcA : Honest tcA.rfu := fun e he => by cases he

theorem ready_tcA (m : Nat) (hm : m ≤ 2) : TransformReady tcA m where
  length := by omega
  klen := by decide
  validL := rfl
  validS := rfl
  key := by unfold KeyCanonical; decide +kernel
  blocks := by
    have h : ∀ i < 2, slotNat tcA .din i < fieldCard tcA.field := by decide +kernel
    exact fun i hi => h i (by omega)

/-! ### The command word -/

theorem witness_DecodeOfEncodeIsTheCommand :
    Instr.wf (.decrypt 65535) = true ∧ Instr.wf (.schedule 0) = true ∧ Instr.wf .zeroize = true := by decide

/-- A word for each clause, at the ends of its range: rsv, then op above 0x0A, the length commands at 0 and 65535, a length
where none is allowed, and each command without one. -/
theorem witness_DecodeFollowsTheOpcodeMap :
    (0x00000100#32).toNat / 256 % 256 ≠ 0 ∧ 0x0A < (0x0000000B#32).toNat % 256 ∧ 0x0A < (0x000000FF#32).toNat % 256 ∧
      (0x00000007#32).toNat % 256 = 0x07 ∧ (0xFFFF0007#32).toNat / 65536 = 65535 ∧
      (0xFFFF0008#32).toNat % 256 = 0x08 ∧ (0xFFFF0009#32).toNat % 256 = 0x09 ∧
      (0x00010006#32).toNat % 256 < 0x07 ∧ (0x0001000A#32).toNat % 256 = 0x0A ∧
      (0x00000000#32).toNat / 65536 = 0 ∧ (0x0000000A#32).toNat % 256 = 0x0A ∧
      decode 0xFFFF0009 = .command (.decrypt 65535) := by decide

/-! ### The life of a command -/

theorem witness_CommandWriteAcceptedOrDropped :
    (0x14#18).toNat / 4 = 5 ∧ (0x17#18).toNat / 4 = 5 ∧ tcA.busy = false ∧ (accept 3 tcA).busy = true := by decide

theorem witness_StepRunsTheDecodedCommand :
    (accept 3 tcA).specified = true ∧ (accept 3 tcA).rfu.silent = false ∧ (accept 3 tcA).phase = .idle ∧
      (accept 3 tcA).pending = some 3 ∧ decode 3 = .command .permL ∧ (accept 3 tcA).schedule = [] ∧
      (withCommand 3 tcA).schedule = [.engine] ∧ (withCommand 3 tcA).pending = some 3 := by
  refine ⟨rfl, rfl, rfl, rfl, by decide, rfl, rfl, rfl⟩

theorem witness_IllegalWordCompletesWithIllegalCommand :
    tcA.specified = true ∧ tcA.rstN = true ∧ tcA.busy = false ∧ tcA.pending = none ∧ AtRest tcA ∧
      0x0A < (0x0000000B#32).toNat % 256 ∧ (0x00000100#32).toNat / 256 % 256 ≠ 0 ∧
      ((0x00010006#32).toNat % 256 < 0x07 ∧ (0x00010006#32).toNat / 65536 ≠ 0) ∧
      ((0x8000000A#32).toNat % 256 = 0x0A ∧ (0x8000000A#32).toNat / 65536 ≠ 0) :=
  ⟨rfl, rfl, rfl, rfl, rest_tcA, by decide, by decide, by decide, by decide⟩

theorem witness_CommandsKeepTablesAndInputs :
    Config.fieldWf tcA.field = true ∧ ∃ t, exec (.encrypt 2) tcA = .next t := ⟨wf_tcA, _, rfl⟩

theorem witness_StartErrorsWriteOnlyCompletionFields :
    (AtRest fresh ∧ check .commitL fresh = .configError) ∧
      (AtRest (accept 0x0B fresh) ∧ (accept 0x0B fresh).pending = some 0x0B ∧
        decode 0x0B = .illegal .reservedOpcode) :=
  ⟨⟨rest_fresh, by decide +kernel⟩, ⟨rfl, rfl, rfl, rfl, rfl, rfl, rfl, rfl, rfl⟩, rfl, by decide⟩

/-- Every command completes from TC-A; states at the boundaries of the clauses: 0, 1, 256 and 257 rounds, a table one
entry short, KLEN 4 and 5, lengths 1024 and 1025, a slot holding p - 1 and one holding p. -/
theorem witness_FirstFailingCheckGivesTheCode :
    ((accept 0x0B tcA).phase = .idle ∧ (accept 0x0B tcA).pending = some 0x0B ∧
        decode 0x0B = .illegal .reservedOpcode) ∧
      (∀ i, ∃ t, exec i tcA = .next t) ∧
      (∀ r ∈ quadList tcA.sreg, r.toNat < fieldCard tcA.field) ∧
      ¬ (∀ r ∈ quadList (⟨100, 101, 0, 0⟩ : Quad Raw), r.toNat < fieldCard tcA.field) ∧
      (1 ≤ tcA.roundsL.toNat ∧ tcA.roundsL.toNat ≤ 256 ∧ tcA.rclenL.toNat = 4 * tcA.roundsL.toNat) ∧
      (1 ≤ (256#16).toNat ∧ (256#16).toNat ≤ 256 ∧ (1024#16).toNat = 4 * (256#16).toNat) ∧
      ¬ (1 ≤ (0#16).toNat ∧ (0#16).toNat ≤ 256 ∧ (0#16).toNat = 4 * (0#16).toNat) ∧
      ¬ (1 ≤ (3#16).toNat ∧ (3#16).toNat ≤ 256 ∧ (11#16).toNat = 4 * (3#16).toNat) ∧
      (∀ j < tcA.rclenL.toNat, slotNat tcA .rcL j < fieldCard tcA.field) ∧
      ¬ (∀ j < tcA.rclenL.toNat,
        slotNat { tcA with mem := Memory.put tcA.mem 0x80A0 101 } .rcL j < fieldCard tcA.field) ∧
      (4#3).toNat ≤ 4 ∧ 4 < (5#3).toNat ∧ TransformReady tcA 2 := by
  refine ⟨⟨rfl, rfl, by decide⟩, fun i => ?_, elements_tcA, fun h => absurd (h 101 (.tail _ (.head _))) (by decide), by decide, by decide,
    by decide, by decide,
    by decide +kernel, by decide +kernel, by decide, by decide, ready_tcA 2 le_rfl⟩
  cases i <;> exact ⟨_, rfl⟩

/-! ### The commands -/

theorem witness_NopOnlyCompletes : AtRest fresh := rest_fresh

theorem witness_CommitLConstructsOrFails :
    AtRest tcA ∧ (1 ≤ tcA.roundsL.toNat ∧ tcA.roundsL.toNat ≤ 256 ∧ tcA.rclenL.toNat = 4 * tcA.roundsL.toNat) ∧
      (∀ j < tcA.rclenL.toNat, slotNat tcA .rcL j < fieldCard tcA.field) ∧
      (AtRest fresh ∧
        ¬ (1 ≤ fresh.roundsL.toNat ∧ fresh.roundsL.toNat ≤ 256 ∧ fresh.rclenL.toNat = 4 * fresh.roundsL.toNat)) ∧
      ¬ (∀ j < tcA.rclenL.toNat,
        slotNat { tcA with mem := Memory.put tcA.mem 0x80A0 101 } .rcL j < fieldCard tcA.field) :=
  ⟨rest_tcA, by decide, by decide +kernel, ⟨rest_fresh, by decide⟩, by decide +kernel⟩

theorem witness_CommitSConstructsOrFails :
    AtRest tcA ∧ (1 ≤ tcA.roundsS.toNat ∧ tcA.roundsS.toNat ≤ 256 ∧ tcA.rclenS.toNat = 4 * tcA.roundsS.toNat) ∧
      (∀ j < tcA.rclenS.toNat, slotNat tcA .rcS j < fieldCard tcA.field) ∧
      (AtRest fresh ∧
        ¬ (1 ≤ fresh.roundsS.toNat ∧ fresh.roundsS.toNat ≤ 256 ∧ fresh.rclenS.toNat = 4 * fresh.roundsS.toNat)) ∧
      ¬ (∀ j < tcA.rclenS.toNat,
        slotNat { tcA with mem := Memory.put tcA.mem 0x10000 101 } .rcS j < fieldCard tcA.field) :=
  ⟨rest_tcA, by decide, by decide +kernel, ⟨rest_fresh, by decide⟩, by decide +kernel⟩

/-- One state for each clause: the contract kept, not committed, S = (100, 101, 0, 0), and a response of (101, 0, 0, 0). -/
theorem witness_PermLAppliesTheLargePermutation :
    (AtRest tcA ∧ Config.fieldWf tcA.field = true ∧ Honest tcA.rfu ∧ tcA.validL = true ∧
        ∀ r ∈ quadList tcA.sreg, r.toNat < fieldCard tcA.field) ∧
      (AtRest { tcA with validL := false } ∧ { tcA with validL := false }.validL = false) ∧
      (AtRest { tcA with sreg := ⟨100, 101, 0, 0⟩ } ∧
        ¬ ∀ r ∈ quadList (⟨100, 101, 0, 0⟩ : Quad Raw), r.toNat < fieldCard tcA.field) ∧
      AtRest (answering [⟨101, 0, 0, 0⟩] tcA) ∧
        ∃ t, exec .permL (answering [⟨101, 0, 0, 0⟩] tcA) = .next t ∧ t.errCode = 6 :=
  ⟨⟨rest_tcA, wf_tcA, honest_tcA, rfl, elements_tcA⟩, ⟨⟨rfl, rfl, rfl, rfl, rfl, rfl, rfl, rfl, rfl⟩, rfl⟩,
    ⟨⟨rfl, rfl, rfl, rfl, rfl, rfl, rfl, rfl, rfl⟩, fun h => absurd (h 101 (.tail _ (.head _))) (by decide)⟩,
    ⟨rfl, rfl, rfl, rfl, rfl, rfl, rfl, rfl, rfl⟩, _, rfl, by decide +kernel⟩

/-- One state for each clause: the contract kept, not committed, S = (100, 101, 0, 0), and a response of (101, 0, 0, 0). -/
theorem witness_PermSAppliesTheSmallPermutation :
    (AtRest tcA ∧ Config.fieldWf tcA.field = true ∧ Honest tcA.rfu ∧ tcA.validS = true ∧
        ∀ r ∈ quadList tcA.sreg, r.toNat < fieldCard tcA.field) ∧
      (AtRest { tcA with validS := false } ∧ { tcA with validS := false }.validS = false) ∧
      (AtRest { tcA with sreg := ⟨100, 101, 0, 0⟩ } ∧
        ¬ ∀ r ∈ quadList (⟨100, 101, 0, 0⟩ : Quad Raw), r.toNat < fieldCard tcA.field) ∧
      AtRest (answering [⟨101, 0, 0, 0⟩] tcA) ∧
        ∃ t, exec .permS (answering [⟨101, 0, 0, 0⟩] tcA) = .next t ∧ t.errCode = 6 :=
  ⟨⟨rest_tcA, wf_tcA, honest_tcA, rfl, elements_tcA⟩, ⟨⟨rfl, rfl, rfl, rfl, rfl, rfl, rfl, rfl, rfl⟩, rfl⟩,
    ⟨⟨rfl, rfl, rfl, rfl, rfl, rfl, rfl, rfl, rfl⟩, fun h => absurd (h 101 (.tail _ (.head _))) (by decide)⟩,
    ⟨rfl, rfl, rfl, rfl, rfl, rfl, rfl, rfl, rfl⟩, _, rfl, by decide +kernel⟩

/-- A bad answer to the last request of PERM_L (as in PM-4), and to the first request of each later phase of ENCRYPT 2 (ten
requests: 0 to 2 bootstrap, 3 to 6 masks, 7 to 9 tag) and to its last; a command with code 6, one with code 0. -/
theorem witness_RoundFaultIffANonCanonicalResponse :
    let bad : Quad Raw := ⟨101, 0, 0, 0⟩
    let s (k : Nat) : State := { tcA with rfu := ⟨List.replicate k none ++ [some bad], [], false⟩ }
    (∀ k, AtRest (s k)) ∧ Config.fieldWf tcA.field = true ∧ BadAnswer tcA.field bad ∧
      (check .permL (s 2) = .ok ∧ 2 < (commandRequests .permL (s 2)).length) ∧
      (check .permS (s 1) = .ok ∧ 1 < (commandRequests .permS (s 1)).length) ∧
      (check (.schedule 0) (s 2) = .ok ∧ 2 < (commandRequests (.schedule 0) (s 2)).length) ∧
      (∀ k ∈ [0, 3, 7, 9], check (.encrypt 2) (s k) = .ok ∧ k < (commandRequests (.encrypt 2) (s k)).length) ∧
      (∀ k ∈ [0, 3, 7, 9], check (.decrypt 2) (s k) = .ok ∧ k < (commandRequests (.decrypt 2) (s k)).length) ∧
      (∃ t, exec .permL (s 0) = .next t ∧ t.errCode = 6) ∧
      ∃ t, exec .permL (answering mixL0 tcA) = .next t ∧ t.errCode = 0 := by
  refine ⟨fun k => ⟨rfl, rfl, rfl, rfl, rfl, rfl, rfl, rfl, rfl⟩, wf_tcA, ⟨101, .head _, by decide⟩, ⟨?_, ?_⟩, ⟨?_, ?_⟩,
    ⟨?_, ?_⟩, fun k hk => ?_, fun k hk => ?_, ⟨_, rfl, ?_⟩, _, rfl, ?_⟩
  case refine_7 => fin_cases hk <;> exact ⟨by decide +kernel, by decide +kernel⟩
  case refine_8 => fin_cases hk <;> exact ⟨by decide +kernel, by decide +kernel⟩
  all_goals decide +kernel

theorem witness_RollAdvancesTheStateRegister :
    (AtRest tcA ∧ Config.fieldWf tcA.field = true ∧ ∀ r ∈ quadList tcA.sreg, r.toNat < fieldCard tcA.field) ∧
      AtRest { tcA with sreg := ⟨100, 101, 0, 0⟩ } ∧
        ¬ ∀ r ∈ quadList (⟨100, 101, 0, 0⟩ : Quad Raw), r.toNat < fieldCard tcA.field :=
  ⟨⟨rest_tcA, wf_tcA, elements_tcA⟩, ⟨rfl, rfl, rfl, rfl, rfl, rfl, rfl, rfl, rfl⟩,
    fun h => absurd (h 101 (.tail _ (.head _))) (by decide)⟩

theorem witness_RollIsInvertibleAndFixesZero :
    Config.fieldWf gf2n = true ∧ quadCanonical gf2n ⟨2 ^ 128 - 1, 0, 5, 7⟩ = true := ⟨wf_gf2n, by decide +kernel⟩

/-- KLEN 4 and KLEN 0; KLEN 5; a nonce of 101. -/
theorem witness_KeystateBuildsTheKeyState :
    let s : State := { fresh with klen := 4, mkey := ⟨1, 2, 3, 100⟩, nonce := 5 }
    AtRest s ∧ Config.fieldWf s.field = true ∧ s.klen.toNat ≤ 4 ∧ KeyCanonical s ∧ fresh.klen.toNat = 0 ∧
      KeyCanonical fresh ∧ 4 < { s with klen := 5 }.klen.toNat ∧ ¬ KeyCanonical { s with nonce := 101 } :=
  ⟨⟨rfl, rfl, rfl, rfl, rfl, rfl, rfl, rfl, rfl⟩, wf_tcA, by decide, by unfold KeyCanonical; decide +kernel,
    by decide, by unfold KeyCanonical; decide +kernel, by decide, fun h => absurd h.2 (by decide)⟩

theorem witness_ScheduleExpandsTheKey :
    AtRest tcA ∧ Config.fieldWf tcA.field = true ∧ Honest tcA.rfu ∧ 1024 ≤ 1024 ∧ tcA.validL = true ∧
      (∀ r ∈ quadList tcA.sreg, r.toNat < fieldCard tcA.field) ∧ OutsideSlots tcA .ek 1024 0x27FFF :=
  ⟨rest_tcA, wf_tcA, honest_tcA, le_rfl, rfl, elements_tcA, fun j hj k hk => by
    simp only [slotAddr, Bank.base]; omega⟩

theorem witness_ScheduleOfLengthZeroRunsThePermutation :
    AtRest tcA ∧ Config.fieldWf tcA.field = true ∧ Honest tcA.rfu ∧ tcA.validL = true ∧
      ∀ r ∈ quadList tcA.sreg, r.toNat < fieldCard tcA.field :=
  ⟨rest_tcA, wf_tcA, honest_tcA, rfl, elements_tcA⟩

theorem witness_EncryptComputesCiphertextAndTag :
    AtRest tcA ∧ Config.fieldWf tcA.field = true ∧ Honest tcA.rfu ∧ TransformReady tcA 2 :=
  ⟨rest_tcA, wf_tcA, honest_tcA, ready_tcA 2 le_rfl⟩

theorem witness_DecryptRecoversMessageAndTag :
    AtRest tcA ∧ Config.fieldWf tcA.field = true ∧ Honest tcA.rfu ∧ TransformReady tcA 2 :=
  ⟨rest_tcA, wf_tcA, honest_tcA, ready_tcA 2 le_rfl⟩

theorem witness_EmptyMessageHasATag :
    AtRest tcA ∧ Config.fieldWf tcA.field = true ∧ Honest tcA.rfu ∧ TransformReady tcA 0 :=
  ⟨rest_tcA, wf_tcA, honest_tcA, ready_tcA 0 (by omega)⟩

theorem witness_TransformRequestOrder :
    Config.fieldWf tcA.field = true ∧ Honest tcA.rfu ∧ TransformReady tcA 2 ∧ ∃ t, exec (.encrypt 2) tcA = .next t :=
  ⟨wf_tcA, honest_tcA, ready_tcA 2 le_rfl, _, rfl⟩

/-- What ENCRYPT and DECRYPT answer when their checks pass and the unit keeps its contract. -/
theorem transformCommand_honest {s : State} (hf : Config.fieldWf s.field = true) (h : Honest s.rfu) (dir : Direction)
    (m : Nat) (i : Instr) (hc : check i s = .ok) :
    transformCommand dir m i s = finishTransform
      (((List.range m).map fun j => blockAt s dir j (slotNat s .din j)).map Block.out) (tagOf s (messageOf s dir) m)
      { s with rfu := afterRequests s.rfu (transformRequests s (messageOf s dir) m) } := by
  unfold transformCommand
  rw [if_pos hc, transform_honest hf h]

theorem check_tcA : check (.encrypt 1) tcA = .ok := by decide +kernel

/-- The state after ENCRYPT 1 in TC-A, under the contract: code 0 and the ciphertext in DOUT[0]. -/
theorem encrypt_tcA : ∃ t, exec (.encrypt 1) tcA = .next t ∧ t.errCode = 0 ∧
    slotNat t .dout 0 < fieldCard tcA.field := by
  refine ⟨_, rfl, ?_⟩
  rw [transformCommand_honest wf_tcA honest_tcA .encrypting 1 _ check_tcA]
  refine ⟨rfl, ?_⟩
  have hout : (blockAt tcA .encrypting 0 (slotNat tcA .din 0)).out < fieldCard tcA.field := by
    have h0 : slotNat tcA .din 0 < fieldCard tcA.field := by decide +kernel
    have hz : mask tcA 0 < fieldCard tcA.field := by
      have hb := permutation_canonical (s := tcA) wf_tcA .large (keyVector_of_check check_tcA (.inr ⟨1, .inl rfl⟩) wf_tcA)
      have he := expandedKey_lt wf_tcA hb 0
      exact ((quadCanonical_iff _ _).1
        (permutation_canonical (s := tcA) wf_tcA .small (maskSeed_canonical wf_tcA he))).1
    exact fieldAdd_lt wf_tcA h0 hz
  have hs : slotNat (writeBank .dout [(blockAt tcA .encrypting 0 (slotNat tcA .din 0)).out] tcA) .dout 0 =
      (blockAt tcA .encrypting 0 (slotNat tcA .din 0)).out :=
    slotNat_writeBank (fieldWords_le wf_tcA) (by simp) (hout.trans_le (fieldCard_le_storage _))
  refine lt_of_eq_of_lt ?_ hout
  rw [← hs]
  exact slotNat_congr_mem rfl rfl rfl _ _

/-- ENCRYPT 1 in TC-A, then the same state with the ciphertext in DIN[0]. -/
theorem witness_DecryptUndoesEncrypt :
    ∃ t u, Config.fieldWf tcA.field = true ∧ Honest tcA.rfu ∧ exec (.encrypt 1) tcA = .next t ∧ t.errCode = 0 ∧
      Honest u.rfu ∧ u.field = tcA.field ∧ u.klen = tcA.klen ∧ u.nonce = tcA.nonce ∧
      (∀ j < tcA.klen.toNat, quadGet u.mkey j = quadGet tcA.mkey j) ∧
      (∀ x, u.valid x = tcA.valid x ∧ u.rounds x = tcA.rounds x ∧
        ∀ j < 4 * tcA.rounds x, slotNat u (rcBank x) j = slotNat tcA (rcBank x) j) ∧
      ∀ i < 1, slotNat u .din i = slotNat t .dout i := by
  obtain ⟨t, ht, hc, hlt⟩ := encrypt_tcA
  have hew := fieldWords_le wf_tcA
  refine ⟨t, writeBank .din [slotNat t .dout 0] tcA, wf_tcA, honest_tcA, ht, hc, honest_tcA, rfl, rfl, rfl,
    fun _ _ => rfl, fun x => ⟨by cases x <;> simp [State.valid], by cases x <;> simp [State.rounds], fun j hj => ?_⟩, fun i hi => ?_⟩
  · have h4 : 4 * tcA.rounds x ≤ 1024 := by cases x <;> decide
    exact slotNat_writeBank_out hew (.inr ⟨by cases x <;> simp [rcBank], by omega, by simp⟩)
  · obtain rfl : i = 0 := by omega
    exact slotNat_writeBank hew (by simp) (hlt.trans_le (fieldCard_le_storage _))

theorem witness_RoundFaultZeroesDestinations :
    let s := answering [⟨101, 0, 0, 0⟩] tcA
    AtRest s ∧ Config.fieldWf s.field = true ∧
      (∃ t, exec .permL s = .next t ∧ t.errCode = 6) ∧ (∃ t, exec (.schedule 3) s = .next t ∧ t.errCode = 6) ∧
      ∃ t, exec (.encrypt 2) s = .next t ∧ t.errCode = 6 :=
  ⟨⟨rfl, rfl, rfl, rfl, rfl, rfl, rfl, rfl, rfl⟩, wf_tcA, ⟨_, rfl, by decide +kernel⟩, ⟨_, rfl, by decide +kernel⟩,
    _, rfl, by decide +kernel⟩

theorem witness_ZeroizeClearsTheSecrets : AtRest tcA ∧ Config.fieldWf tcA.field = true := ⟨rest_tcA, wf_tcA⟩

/-! ### What results depend on -/

/-- Another S, and a byte of EK[0] written. -/
theorem witness_TransformIgnoresAndKeepsSAndEk :
    Config.fieldWf tcA.field = true ∧ (∀ x, tcA.valid x = true → tcA.rounds x ≤ 256) ∧
      (∀ a, a < 0x28000 →
        bankByte { tcA with mem := Memory.put tcA.mem 0x28000 7 } a = bankByte tcA a) ∧
      (∃ t, exec (.encrypt 2) tcA = .next t) ∧
      ∃ t, exec (.encrypt 2) { tcA with sreg := ⟨1, 2, 3, 4⟩, mem := Memory.put tcA.mem 0x28000 7 } = .next t := by
  refine ⟨wf_tcA, fun x _ => by cases x <;> decide, fun a ha => ?_, ⟨_, rfl⟩, _, rfl⟩
  simp only [bankByte, Memory.byteAt_put]
  rw [if_neg (by omega)]

theorem witness_TransformIsDeterminedByItsOperands :
    let s' : State := { tcA with sreg := ⟨1, 2, 3, 4⟩, irqEn := true, tag := 9 }
    Config.fieldWf tcA.field = true ∧ Honest tcA.rfu ∧ Honest s'.rfu ∧ s'.field = tcA.field ∧ s'.klen = tcA.klen ∧
      s'.nonce = tcA.nonce ∧ (∀ j < tcA.klen.toNat, quadGet s'.mkey j = quadGet tcA.mkey j) ∧
      (∀ x, s'.rounds x = tcA.rounds x ∧
        ∀ j < 4 * tcA.rounds x, slotNat s' (rcBank x) j = slotNat tcA (rcBank x) j) ∧
      (∀ j < 1, slotNat s' .din j = slotNat tcA .din j) ∧
      ∃ t t', exec (.encrypt 1) tcA = .next t ∧ exec (.encrypt 1) s' = .next t' ∧ t.errCode = 0 ∧ t'.errCode = 0 := by
  refine ⟨wf_tcA, honest_tcA, honest_tcA, rfl, rfl, rfl, fun _ _ => rfl,
    fun x => ⟨by cases x <;> rfl, fun _ _ => rfl⟩, fun _ _ => rfl, ?_⟩
  obtain ⟨t, ht, hc, _⟩ := encrypt_tcA
  refine ⟨t, _, ht, rfl, hc, ?_⟩
  rw [transformCommand_honest (s := { tcA with sreg := ⟨1, 2, 3, 4⟩, irqEn := true, tag := 9 }) wf_tcA honest_tcA
    .encrypting 1 _ (by decide +kernel)]
  rfl

theorem witness_PermIsDeterminedByItsOperands :
    let s' : State := { tcA with nonce := 77, irqEn := true }
    Config.fieldWf tcA.field = true ∧ Honest tcA.rfu ∧ Honest s'.rfu ∧ s'.field = tcA.field ∧ s'.sreg = tcA.sreg ∧
      s'.valid .small = tcA.valid .small ∧ s'.rounds .small = tcA.rounds .small ∧
      (∀ j < 4 * tcA.rounds .small, slotNat s' (rcBank .small) j = slotNat tcA (rcBank .small) j) ∧
      ∃ t t', exec .permS tcA = .next t ∧ exec .permS s' = .next t' :=
  ⟨wf_tcA, honest_tcA, honest_tcA, rfl, rfl, rfl, rfl, fun _ _ => rfl, _, _, rfl, rfl⟩

theorem committed_tcA : ∀ x, Committed tcA x := by
  intro x
  cases x
  · exact ⟨by decide, by decide, by decide, by decide +kernel⟩
  · exact ⟨by decide, by decide, by decide, by decide +kernel⟩

/-- The hypotheses on the state; a bijective round function is one of the choices of `MIX` (R127), an open constant. -/
theorem witness_BijectiveRoundsGiveABijectivePermutation :
    Config.fieldWf tcA.field = true ∧ Committed tcA .large ∧ Committed tcA .small ∧
      Set.BijOn (fun q : Quad Elem => q) { q | quadCanonical tcA.field q = true }
        { q | quadCanonical tcA.field q = true } :=
  ⟨wf_tcA, committed_tcA _, committed_tcA _, Set.bijOn_id _⟩

/-! ### The host port -/

theorem witness_RegisterReads : Config.fieldWf tcA.field = true ∧ Config.fieldWf gf2n = true := ⟨wf_tcA, wf_gf2n⟩

/-- The first and the last storage word of each region. -/
theorem witness_SlotWordsReadBack :
    tcA.busy = false ∧ fieldWords tcA.field = 1 ∧ (0x100#18).toNat / 4 % 8 < 1 ∧ (0x200#18).toNat < 0x220 ∧
      (0x200#18).toNat / 4 % 8 < 1 ∧ 0x8000 ≤ (0x8000#18).toNat ∧ (0x1FFE0#18).toNat < 0x20000 ∧
      (0x1FFE0#18).toNat / 4 % 8 < 1 ∧ (0x120#18).toNat / 4 ≠ (0x100#18).toNat / 4 ∧ (0x120#18).toNat / 4 ≠ 4 ∧
      (tcA.busy = false ∧ Config.fieldWf tcA.field = true ∧ 0 < fieldWords tcA.field) ∧
      (State.initial gf2n).busy = false ∧ Config.fieldWf gf2n = true ∧ 3 < fieldWords gf2n := by
  refine ⟨rfl, rfl, ?_, ?_, ?_, ?_, ?_, ?_, ?_, ?_, ⟨rfl, wf_tcA, ?_⟩, rfl, wf_gf2n, ?_⟩ <;> decide +kernel

theorem witness_BusySlotReadsAreZero :
    (accept 3 tcA).busy = true ∧ 0x100 ≤ (0x100#18).toNat ∧ (0x23F#18).toNat < 0x240 ∧ 0x8000 ≤ (0x8000#18).toNat ∧
      (0x2FFFF#18).toNat < 0x30000 := by decide

/-- An offset at each end of each clause's range. -/
theorem witness_BusyWritesAreDropped :
    (accept 3 tcA).busy = true ∧ (0x18#18).toNat = 0x18 ∧ (0x2B#18).toNat < 0x2C ∧ (0x100#18).toNat / 4 % 8 < 1 ∧
      (0x21F#18).toNat < 0x220 ∧ 1 ≤ (0x21F#18).toNat / 4 % 8 ∧ (0x8000#18).toNat / 4 % 8 < 1 ∧
      1 ≤ (0x1FFFF#18).toNat / 4 % 8 ∧ (0x0B#18).toNat < 0x0C ∧ 0x2C ≤ (0x2C#18).toNat ∧ (0xFF#18).toNat < 0x100 ∧
      0x220 ≤ (0x220#18).toNat ∧ (0x7FFF#18).toNat < 0x8000 ∧ 0x20000 ≤ (0x20000#18).toNat ∧
      fieldWords (accept 3 tcA).field = 1 := by decide

theorem witness_ReservedAndReadOnlyLocations :
    0x2C ≤ (0x2C#18).toNat ∧ (0xFF#18).toNat < 0x100 ∧ 0x240 ≤ (0x240#18).toNat ∧ (0x7FFF#18).toNat < 0x8000 ∧
      0x30000 ≤ (0x3FFFF#18).toNat ∧ fieldWords tcA.field ≤ (0x104#18).toNat / 4 % 8 ∧
      fieldWords tcA.field ≤ (0x2FFFF#18).toNat / 4 % 8 ∧ (0x0B#18).toNat < 0x0C ∧ (0x23F#18).toNat < 0x240 ∧
      0x20000 ≤ (0x20000#18).toNat := by decide

theorem witness_OffsetLowBitsAreIgnored : (0x3FFFC#18).toNat / 4 = (0x3FFFF#18).toNat / 4 := by decide

theorem witness_ConfigurationWritesClearValid :
    tcA.busy = false ∧ (0x18#18).toNat / 4 = 6 ∧ (0x1F#18).toNat / 4 = 7 ∧ (0x20#18).toNat / 4 = 8 ∧
      (0x27#18).toNat / 4 = 9 ∧ (0x28#18).toNat / 4 = 10 ∧ (0x8000#18).toNat / 4 % 8 < fieldWords tcA.field ∧
      (0xFFE3#18).toNat / 4 % 8 < fieldWords tcA.field ∧ (0x10000#18).toNat / 4 % 8 < fieldWords tcA.field ∧
      (0x18000#18).toNat / 4 % 8 < fieldWords tcA.field ∧ fieldWords tcA.field ≤ (0x1FFFF#18).toNat / 4 % 8 := by
  decide

theorem witness_StatusWriteOneToClear :
    (0x10#18).toNat / 4 = 4 ∧ (0x1E#32).toNat / 2 % 2 = 1 ∧ (0x1E#32).toNat / 4 % 2 = 1 ∧
      (0x1E#32).toNat / 8 % 2 = 1 ∧ (0x1E#32).toNat / 16 % 2 = 1 ∧ (0x1#32).toNat / 2 % 2 = 0 ∧
      (0x1#32).toNat / 16 % 2 = 0 := by decide

theorem witness_ControlWriteStoresOrResets :
    (0x0C#18).toNat / 4 = 3 ∧ (0x1#32).toNat / 2 % 2 = 0 ∧ (0x3#32).toNat / 2 % 2 = 1 := by decide

theorem witness_HostReadsHaveNoSideEffect :
    let s : State := { tcA with schedule := [.read 0x10] }
    s.specified = true ∧ s.rstN = true ∧ s.schedule = .read 0x10 :: [] := ⟨rfl, rfl, rfl⟩

theorem witness_InterruptFollowsDone :
    (∃ t, exec .nop tcA = .next t) ∧ tcA.busy = false ∧ { tcA with done := true }.irqEn = false :=
  ⟨⟨_, rfl⟩, rfl, rfl⟩

/-! ### Reset and power -/

theorem registersReset_fresh : RegistersReset fresh :=
  ⟨rfl, rfl, rfl, rfl, rfl, rfl, rfl, rfl, rfl, rfl, rfl, rfl, rfl, rfl, rfl, rfl, rfl, rfl, rfl, rfl, rest_fresh, rfl⟩

/-- The first edge of reset, and a host write presented while it is asserted. -/
theorem witness_AssertedResetHoldsEverything :
    { tcA with schedule := [.assertReset] }.schedule = .assertReset :: [] ∧
      let s : State := { fresh with rstN := false, schedule := [.write 0x14 0] }
      step s = .next { fresh with rstN := false } ∧ s.rstN = false ∧ RegistersReset s :=
  ⟨rfl, rfl, rfl, { registersReset_fresh with
    rest := ⟨rfl, rfl, rfl, rfl, rfl, rfl, rfl, rfl, rfl⟩ }⟩

theorem witness_NothingRunsBeforeTheFirstReset :
    { tcA with specified := false }.specified = false ∧ Move.engine ≠ .assertReset ∧ Move.engine ≠ .powerCycle ∧
      { tcA with specified := false, schedule := [.engine] }.schedule = .engine :: [] ∧
      { tcA with specified := false }.schedule = [] ∧
      { tcA with specified := false, schedule := [.assertReset] }.schedule = .assertReset :: [] :=
  ⟨rfl, by decide, by decide, rfl, rfl, rfl⟩

/-! ### The invariant and the sequencer

A machine of the invariant, from reset: the host writes a one-round large permutation, COMMIT_L runs, PERM_L is accepted. -/

theorem inv_fresh : Inv fresh :=
  inv_outside (s := resetState fresh) (s' := { resetState fresh with schedule := [] }) rfl
    (inv_resetState (s := fresh) wf_tcA) |> fun h => by
      have hf : Config.fieldWf fresh.field = true := wf_tcA
      refine DataInv.inv ⟨hf, rfl, (fun c hc => by cases hc), fitsSlot_fillQuad _, fitsSlot_fillQuad _, fitsSlot_zero _,
        canonical_zero hf, (fun b hb j hj hs => ?_), (fun x hx => by cases x <;> cases hx), Nat.zero_le _⟩ rfl
        (fun _ => rfl) (fun _ => rest_fresh) fun h => absurd rfl h
      have := hs 0 (by show 0 < 4; omega)
      cases this

/-- Host writes one after the other. -/
def writes (l : List (Offset × Word)) (s : State) : State := l.foldl (fun s p => hostWrite p.1 p.2 s) s

theorem inv_writes {s : State} (h : Inv s) (l : List (Offset × Word)) : Inv (writes l s) := by
  induction l generalizing s with
  | nil => exact h
  | cons p l ih => exact ih (inv_hostWrite h p.1 p.2)

/-- The large permutation committed. -/
def committed : State :=
  commitCommand .large .commitL
    (writes [(0x18, 1), (0x20, 4), (0x8000, 1), (0x8020, 2), (0x8040, 3), (0x8060, 100)] fresh)

/-- PERM_L accepted. -/
def accepted : State := hostWrite 0x14 3 committed

theorem inv_committed : Inv committed := inv_exec (inv_writes inv_fresh _).data .commitL rfl

theorem inv_accepted : Inv accepted := inv_hostWrite inv_committed _ _

theorem facts_accepted :
    accepted.specified = true ∧ accepted.rfu.silent = false ∧ accepted.schedule = [] ∧ accepted.phase = .idle ∧
      accepted.pending = some 3 ∧ accepted.busy = true ∧ check .permL accepted = .ok := by decide +kernel

theorem witness_StepKeepsTheInvariant : Inv committed ∧ step committed = .next committed := ⟨inv_committed, rfl⟩

theorem witness_StepKeepsTheMemoryForm : Memory.wf tcA.mem = true ∧ ∃ t, step tcA = .next t := by
  exact ⟨by decide +kernel, _, rfl⟩

theorem witness_FieldNeverChanges : ∃ t, step tcA = .next t := ⟨_, rfl⟩

theorem witness_CommittedPermutationIsImmutable :
    Inv committed ∧ step committed = .next committed ∧ committed.valid .large = true :=
  ⟨inv_committed, rfl, by decide +kernel⟩

theorem witness_RoundByRoundEqualsOneStep :
    Inv accepted ∧ accepted.specified = true ∧ accepted.rfu.silent = false ∧ accepted.schedule = [] ∧
      accepted.phase = .idle ∧ accepted.pending = some 3 ∧ decode 3 = .command .permL := by
  obtain ⟨h1, h2, h3, h4, h5, _⟩ := facts_accepted
  exact ⟨inv_accepted, h1, h2, h3, h4, h5, by decide⟩

/-- The PERM_L begun: its one request is presented. -/
def begun : State := enterPerm .perm .large (stateVector accepted) accepted

theorem inv_begun : Inv begun := by
  obtain ⟨_, _, _, h4, h5, _, h7⟩ := facts_accepted
  exact inv_openCommand inv_accepted h4 (commandOf_some h5 (show decode 3 = .command .permL by decide)) (by
    unfold openCommand
    rw [if_pos h7]
    rfl)

theorem witness_PendingCommandsComplete :
    Inv begun ∧ begun.specified = true ∧ begun.rfu.silent = false ∧ begun.schedule = [] ∧ begun.busy = true := by
  obtain ⟨h1, h2, h3, _, _, h6, _⟩ := facts_accepted
  exact ⟨inv_begun, h1, h2, h3, h6⟩

/-- A command accepted by a machine whose unit is silent; one begun; one begun whose unit is about to fall silent. -/
theorem witness_SilentUnitHangsUntilReset :
    (let s : State := { accepted with rfu := ⟨[], [], true⟩ }
    s.specified = true ∧ s.rfu.silent = true ∧ s.schedule = [] ∧ s.phase = .idle ∧ s.busy = true ∧
      s.pending = some 3 ∧ decode 3 = .command .permL ∧ check .permL s = .ok) ∧
    (let s : State := { begun with rfu := ⟨[], [], true⟩ }
    Inv s ∧ s.specified = true ∧ s.phase ≠ .idle ∧ s.rfu.silent = true ∧ s.schedule = []) ∧
    (let s : State := { begun with schedule := [.rfuFallSilent] }
    Inv s ∧ s.specified = true ∧ s.phase ≠ .idle ∧ s.schedule = [.rfuFallSilent]) := by
  refine ⟨by decide +kernel, ⟨inv_outside rfl inv_begun, ?_⟩, inv_outside rfl inv_begun, ?_⟩ <;> decide +kernel

theorem witness_RequestSignalsAreStable :
    rfReqValid fresh = false ∧ rfReqValid begun = true ∧
      let s : State := { begun with schedule := [.write 0x10 0x1E] }
      Inv s ∧ rfReqValid s = true ∧ ¬ ((0x10#18).toNat / 4 = 3 ∧ (0x1E#32).toNat / 2 % 2 = 1) ∧
        ∃ t, step s = .next t := by
  refine ⟨by decide, by decide +kernel, inv_outside rfl inv_begun, by decide +kernel, by decide, ?_⟩
  have h : begun.specified = true := facts_accepted.1
  simp only [step, agentMove, h, if_true, move]
  exact ⟨_, rfl⟩

theorem witness_ResponsesWithoutARequestAreIgnored : fresh.rfOut = false := rfl

/-! ### The field unit -/

theorem witness_PrimeFieldArithmetic : 2 ≤ 101 ∧ 100 < 101 := by decide

theorem witness_BinaryFieldArithmetic :
    Config.fieldWf gf2n = true ∧ 2 ^ 128 - 1 < 2 ^ 128 ∧ 2 * (2 ^ 127 - 1) < 2 ^ 128 :=
  ⟨wf_gf2n, by norm_num, by norm_num⟩

/-- The first and the last byte of a slot, whose value is an element. -/
theorem witness_SlotBytesEncodeTheElement :
    Config.fieldWf tcA.field = true ∧ 0 < 4 * fieldWords tcA.field ∧ 3 < 4 * fieldWords tcA.field ∧
      slotNat tcA .rcL 11 < fieldCard tcA.field := by
  refine ⟨wf_tcA, ?_, ?_, ?_⟩ <;> decide +kernel

/-! ### Reads of slots -/

/-- EW = 1, and the last storage word of a field with EW = 4. -/
theorem witness_IdleSlotReadsGiveTheRawWords :
    (tcA.busy = false ∧ Config.fieldWf tcA.field = true ∧ 0 < fieldWords tcA.field) ∧
      (State.initial gf2n).busy = false ∧ Config.fieldWf gf2n = true ∧ 3 < fieldWords gf2n := by
  refine ⟨⟨rfl, wf_tcA, ?_⟩, rfl, wf_gf2n, ?_⟩ <;> decide +kernel

end Sys2Proof.Tests
end

section
/-! PROOFS. The field of the instance is fixed (spec/00_scope.md R10): no operation of a step touches it. -/

namespace Sys2Proof.Machine

/-! ### Commands -/

@[simp] theorem zeroDestinations_field (i : Instr) (s : State) : (zeroDestinations i s).field = s.field := by
  cases i <;> rfl

@[simp] theorem roundFault_field (i : Instr) (s : State) : (roundFault i s).field = s.field := by simp [roundFault]

@[simp] theorem commitCommand_field (x : Sel) (i : Instr) (s : State) : (commitCommand x i s).field = s.field := by
  simp [commitCommand]

@[simp] theorem permCommand_field (x : Sel) (i : Instr) (s : State) : (permCommand x i s).field = s.field := by
  unfold permCommand
  split
  · split
    · rfl
    · simp
  · rfl

@[simp] theorem scheduleCommand_field (n : Nat) (s : State) : (scheduleCommand n s).field = s.field := by
  unfold scheduleCommand
  split
  · split
    · rfl
    · simp
  · rfl

@[simp] theorem transformCommand_field (dir : Direction) (m : Nat) (i : Instr) (s : State) :
    (transformCommand dir m i s).field = s.field := by
  unfold transformCommand
  split
  · split
    · rfl
    · simp
  · rfl

@[simp] theorem zeroBanks_field (s : State) : (zeroBanks s).field = s.field := by
  simp only [zeroBanks, writeBank_field]

theorem exec_field {i : Instr} {s t : State} (e : exec i s = .next t) : t.field = s.field := by
  cases i with
  | nop => cases e; rfl
  | zeroize => cases e; exact zeroBanks_field s
  | commitL | commitS => cases e; exact commitCommand_field _ _ s
  | permL | permS => cases e; exact permCommand_field _ _ s
  | roll | keystate => cases e; split <;> rfl
  | schedule n => cases e; exact scheduleCommand_field n s
  | encrypt m | decrypt m => cases e; exact transformCommand_field _ m _ s

/-! ### The round-function port -/

@[simp] theorem startBlock_field (m b : Nat) (s : State) : (startBlock m b s).field = s.field := by
  unfold startBlock
  split <;> rfl

@[simp] theorem transformPermDone_field (dir : Direction) (m : Nat) (s : State) :
    (transformPermDone dir m s).field = s.field := by
  unfold transformPermDone
  cases s.phase with
  | idle | perm | tagging => rfl
  | boot | block => exact startBlock_field _ _ _

@[simp] theorem permDone_field (i : Instr) (s : State) : (permDone i s).field = s.field := by
  cases i with
  | encrypt m | decrypt m => exact transformPermDone_field _ m s
  | nop | commitL | commitS | permL | permS | roll | keystate | schedule | zeroize => rfl

@[simp] theorem roundDone_field (i : Instr) (q : Quad Elem) (s : State) : (roundDone i q s).field = s.field := by
  unfold roundDone
  split
  · rfl
  · exact permDone_field i _

@[simp] theorem rfuTake_field (s : State) : (rfuTake s).field = s.field := by
  unfold rfuTake
  split <;> rfl

@[simp] theorem rfuRespond_field (s : State) : (rfuRespond s).field = s.field := by
  unfold rfuRespond
  split
  · rfl
  split
  · split
    · rfl
    · dsimp only
      split
      · exact roundDone_field _ _ _
      · exact roundFault_field _ _
  · rfl

@[simp] theorem portEdge_field (s : State) : (portEdge s).field = s.field := by
  unfold portEdge
  split
  · exact rfuTake_field s
  · exact rfuRespond_field s

/-! ### The engine's turns -/

/-- What a turn of the engine can do: nothing, the illegal word's completion, a port edge of a command already begun, or
what `g` says of a command not yet begun. -/
theorem turn_cases {g : Instr → State → Host.Outcome State Fault Refusal} {s t : State} (e : turn g s = .next t) :
    (s.pending = none ∧ t = s) ∨
    (s.phase = .idle ∧ (∃ w why, s.pending = some w ∧ decode w = .illegal why) ∧ t = complete .illegalCommand s) ∨
    (s.phase ≠ .idle ∧ s.pending ≠ none ∧ t = portEdge s) ∨
    ∃ i, s.phase = .idle ∧ commandOf s = some i ∧ g i s = .next t := by
  unfold turn at e
  split at e
  · next hp => cases e; exact .inl ⟨hp, rfl⟩
  · next w hw =>
    split at e
    · next hp =>
      split at e
      · next i hd => exact .inr (.inr (.inr ⟨i, hp, commandOf_some hw hd, e⟩))
      · next why hd => cases e; exact .inr (.inl ⟨hp, ⟨w, why, hw, hd⟩, rfl⟩)
    all_goals
      next hp => cases e; exact .inr (.inr (.inl ⟨by simp [hp], by simp [hw], rfl⟩))

theorem turn_field {g : Instr → State → Host.Outcome State Fault Refusal} {s t : State}
    (hg : ∀ i t, g i s = .next t → t.field = s.field) (e : turn g s = .next t) : t.field = s.field := by
  obtain ⟨-, rfl⟩ | ⟨-, -, rfl⟩ | ⟨-, -, rfl⟩ | ⟨i, -, -, h⟩ := turn_cases e
  · rfl
  · rfl
  · exact portEdge_field s
  · exact hg i t h

theorem openCommand_field {i : Instr} {s t : State} (e : openCommand i s = some t) : t.field = s.field := by
  unfold openCommand at e
  split at e
  · cases i <;> cases e <;> rfl
  · cases e

theorem beginCommand_field {i : Instr} {s t : State} (e : beginCommand i s = .next t) : t.field = s.field := by
  unfold beginCommand at e
  split at e
  · next h => cases e; exact openCommand_field h
  · exact exec_field e

theorem runCommand_field {i : Instr} {s t : State} (e : runCommand i s = .next t) : t.field = s.field := by
  unfold runCommand at e
  split at e
  · exact beginCommand_field e
  · exact exec_field e

/-! ### The host port -/

theorem ifIdle_field {s : State} {g : State → State} (hg : (g s).field = s.field) :
    (ifIdle s g).field = s.field := by
  unfold ifIdle
  split
  · rfl
  · exact hg

theorem ifStorage_field {s : State} (w : Nat) {g : State → State} (hg : (g s).field = s.field) :
    (ifStorage s w g).field = s.field := by
  unfold ifStorage
  split
  · exact ifIdle_field hg
  · rfl

@[simp] theorem writeBankWord_field (b : Bank) (j w : Nat) (v : Word) (s : State) :
    (writeBankWord b j w v s).field = s.field := by
  cases b with
  | rcL | rcS | din => exact ifStorage_field w rfl
  | dout | ek => rfl

@[simp] theorem writeLoc_field (s : State) (v : Word) (l : Loc) : (writeLoc s v l).field = s.field := by
  cases l with
  | id | param0 | param1 | tag | reserved | status => rfl
  | ctrl | cmd => unfold writeLoc; dsimp only; split <;> rfl
  | rounds x | rclen x => cases x <;> exact ifIdle_field rfl
  | klen => exact ifIdle_field rfl
  | sreg i w | mkey i w | nonce w => exact ifStorage_field w rfl
  | bank b j w => exact writeBankWord_field b j w v s

/-! ### Every move -/

theorem transfer_field {g : State → State} {s : State} (hg : (g s).field = s.field) :
    (transfer g s).field = s.field := by
  unfold transfer
  split
  · exact hg
  · rfl

theorem move_field {m : Move} {s t : State} (e : move m s = .next t) : t.field = s.field := by
  cases m with
  | write off v => cases e; exact transfer_field (writeLoc_field s v _)
  | read off => cases e; exact transfer_field rfl
  | engine => exact turn_field (fun _ _ => runCommand_field) e
  | start => exact turn_field (fun _ _ => beginCommand_field) e
  | rfuTake => cases e; exact rfuTake_field s
  | rfuRespond => cases e; exact rfuRespond_field s
  | rfuFallSilent | assertReset | deassertReset | powerCycle => cases e; rfl

theorem agentMove_field {m : Move} {s t : State} (e : agentMove m s = .next t) : t.field = s.field := by
  unfold agentMove at e
  split at e
  · exact move_field e
  · cases m <;> cases e <;> rfl

/-- Settles O50: each agent's move keeps the field, and taking the move off the schedule does too. -/
theorem fieldNeverChanges : Obligations.FieldNeverChanges := by
  intro s t e
  unfold step at e
  split at e
  · exact agentMove_field e
  · next m ms _ => exact agentMove_field (s := { s with schedule := ms }) e

end Sys2Proof.Machine
end

section
/-! PROOFS. The field unit (spec/00_scope.md R11, R12). A coefficient string stands for its class in the ring
GF(2)[x]/(poly), and below `2^n` each class has one string: so an identity between strings below `2^n` is proved by
computing in that ring. -/

namespace Sys2Proof.Machine

open Polynomial

/-! ### Prime fields (R11) -/

theorem fieldSub_prime_int {p a b : Nat} (hb : b < p) : (fieldSub (.prime p) a b : Int) = ((a : Int) - b) % p := by
  rw [fieldSub, Nat.mod_eq_of_lt hb, Int.natCast_mod, Nat.cast_add, Nat.cast_sub hb.le,
    show (a : Int) + (p - b) = a - b + p by ring, Int.add_emod_right]

/-- Settles O57: addition and multiplication are casts; in the difference the modulus added first drops out. -/
theorem primeFieldArithmetic : Obligations.PrimeFieldArithmetic := by
  intro p a b _ _ hb
  exact ⟨by rw [fieldAdd, Int.natCast_mod, Nat.cast_add], fieldSub_prime_int hb,
    by rw [fieldMul, Int.natCast_mod, Nat.cast_mul]⟩

/-! ### Coefficient strings in GF(2)[x]/(poly) (R12) -/

/-- The class of a coefficient string in GF(2)[x]/(poly). -/
noncomputable def residue (poly v : Nat) : AdjoinRoot (polyOf poly) := aeval (AdjoinRoot.root (polyOf poly)) (polyOf v)

theorem aeval_root_self (poly : Nat) : aeval (AdjoinRoot.root (polyOf poly)) (polyOf poly) = 0 := by
  rw [AdjoinRoot.aeval_eq, AdjoinRoot.mk_self]

@[simp] theorem residue_self (poly : Nat) : residue poly poly = 0 := aeval_root_self poly

@[simp] theorem residue_zero (poly : Nat) : residue poly 0 = 0 := by rw [residue, polyOf_zero, map_zero]

@[simp] theorem residue_one (poly : Nat) : residue poly 1 = 1 := by rw [residue, polyOf_one, map_one]

@[simp] theorem residue_xor (poly v w : Nat) : residue poly (v ^^^ w) = residue poly v + residue poly w := by
  rw [residue, polyOf_xor, map_add]; rfl

@[simp] theorem residue_shiftLeft_one (poly v : Nat) :
    residue poly (v <<< 1) = residue poly v * AdjoinRoot.root (polyOf poly) := by
  rw [residue, polyOf_shiftLeft, pow_one, map_mul, aeval_X]; rfl

theorem residue_two_mul (poly v : Nat) : residue poly (2 * v) = residue poly v * AdjoinRoot.root (polyOf poly) := by
  rw [← residue_shiftLeft_one, Nat.shiftLeft_eq, pow_one, mul_comm]

/-- The loop of `mulB` multiplies classes (R12). -/
theorem residue_fieldMul {n : Nat} (poly a : Nat) {b : Nat} (hb : b < 2 ^ n) :
    residue poly (fieldMul (.binary n poly) a b) = residue poly a * residue poly b :=
  aeval_fieldMul (aeval_root_self poly) a hb

/-- Strings below `2^n` are told apart by their classes modulo a polynomial of degree `n`. -/
theorem eq_of_residue_eq {n poly v w : Nat} (hn : 0 < n) (hlo : 2 ^ n ≤ poly) (hhi : poly < 2 ^ (n + 1))
    (hv : v < 2 ^ n) (hw : w < 2 ^ n) (h : residue poly v = residue poly w) : v = w := by
  have hdvd : polyOf poly ∣ polyOf (v ^^^ w) := by
    rw [← AdjoinRoot.mk_eq_zero, ← AdjoinRoot.aeval_eq, polyOf_xor, ← CharTwo.sub_eq_add, map_sub]
    exact sub_eq_zero.2 h
  have hdeg : (polyOf (v ^^^ w)).natDegree < (polyOf poly).natDegree := by
    rw [natDegree_polyOf hlo hhi]
    exact natDegree_polyOf_lt hn (Nat.xor_lt_two_pow hv hw)
  by_contra hne
  have hz := eq_zero_of_dvd_of_natDegree_lt hdvd hdeg
  exact polyOf_ne_zero (fun h0 => hne (Nat.xor_eq_zero_iff.1 h0)) hz

/-! ### Multiplication by `x` -/

/-- One shift, and `poly` added when the `x^n` term appears (R12). -/
def timesX (n poly v : Nat) : Nat := if 2 ^ n ≤ 2 * v then (2 * v) ^^^ poly else 2 * v

@[simp] theorem residue_timesX (n poly v : Nat) :
    residue poly (timesX n poly v) = residue poly v * AdjoinRoot.root (polyOf poly) := by
  unfold timesX
  split
  · rw [residue_xor, residue_self, add_zero, residue_two_mul]
  · exact residue_two_mul poly v

theorem testBit_top_iff {n v : Nat} (h : v < 2 ^ (n + 1)) : v.testBit n = true ↔ 2 ^ n ≤ v :=
  ⟨Nat.ge_two_pow_of_testBit, fun hle => Nat.testBit_of_two_pow_le_and_two_pow_add_one_gt hle h⟩

/-- The shift and reduction of the model's loops is multiplication by `x`. -/
theorem shift_reduce_eq_timesX {n v : Nat} (poly : Nat) (hv : v < 2 ^ n) :
    (if (v <<< 1).testBit n then (v <<< 1) ^^^ poly else v <<< 1) = timesX n poly v := by
  have h2 : v <<< 1 = 2 * v := by rw [Nat.shiftLeft_eq, pow_one, mul_comm]
  rw [h2, timesX]
  exact if_congr (testBit_top_iff (by rw [pow_succ]; omega)) rfl rfl

theorem timesX_lt {n poly v : Nat} (hlo : 2 ^ n ≤ poly) (hhi : poly < 2 ^ (n + 1)) (hv : v < 2 ^ n) :
    timesX n poly v < 2 ^ n := by
  rw [← shift_reduce_eq_timesX poly hv]
  exact shift_reduce_lt hlo hhi hv

/-! ### The laws of R12 -/

section
variable {n poly a b c : Nat} (hwf : Config.fieldWf (.binary n poly) = true)
include hwf

theorem fieldMul_binary_lt (b : Nat) (ha : a < 2 ^ n) : fieldMul (.binary n poly) a b < 2 ^ n := fieldMul_lt hwf b ha

/-- Two elements of one class are one element. -/
theorem binary_ext (ha : a < 2 ^ n) (hb : b < 2 ^ n) (h : residue poly a = residue poly b) : a = b := by
  obtain ⟨hn, _, hlo, hhi⟩ := fieldWf_binary hwf
  exact eq_of_residue_eq (by omega) hlo hhi ha hb h

theorem fieldMul_binary_one (ha : a < 2 ^ n) : fieldMul (.binary n poly) a 1 = a := by
  have h1 : 1 < 2 ^ n := fieldCard_ge hwf
  refine binary_ext hwf (fieldMul_binary_lt hwf 1 ha) ha ?_
  rw [residue_fieldMul poly a h1, residue_one, mul_one]

theorem fieldMul_binary_xor (ha : a < 2 ^ n) (hb : b < 2 ^ n) (hc : c < 2 ^ n) :
    fieldMul (.binary n poly) a (b ^^^ c) = fieldMul (.binary n poly) a b ^^^ fieldMul (.binary n poly) a c := by
  refine binary_ext hwf (fieldMul_binary_lt hwf _ ha)
    (Nat.xor_lt_two_pow (fieldMul_binary_lt hwf b ha) (fieldMul_binary_lt hwf c ha)) ?_
  rw [residue_xor, residue_fieldMul poly a (Nat.xor_lt_two_pow hb hc), residue_xor, mul_add, residue_fieldMul poly a hb,
    residue_fieldMul poly a hc]

theorem fieldMul_binary_two_mul (ha : a < 2 ^ n) (hb : 2 * b < 2 ^ n) :
    fieldMul (.binary n poly) a (2 * b) = timesX n poly (fieldMul (.binary n poly) a b) := by
  obtain ⟨_, _, hlo, hhi⟩ := fieldWf_binary hwf
  refine binary_ext hwf (fieldMul_binary_lt hwf _ ha) (timesX_lt hlo hhi (fieldMul_binary_lt hwf b ha)) ?_
  rw [residue_fieldMul poly a hb, residue_two_mul, residue_timesX, residue_fieldMul poly a (by omega), mul_assoc]

end

/-- Settles O58: each law holds of the classes in GF(2)[x]/(poly), and both sides are below `2^n`. -/
theorem binaryFieldArithmetic : Obligations.BinaryFieldArithmetic := by
  intro n poly a b c hwf ha hb hc
  exact ⟨rfl, rfl, fieldMul_binary_lt hwf b ha, fieldMul_binary_one hwf ha, fieldMul_binary_xor hwf ha hb hc,
    fieldMul_binary_two_mul hwf ha⟩

end Sys2Proof.Machine
end

section
/-! PROOFS. Byte strings as integers and as field elements (spec/00_scope.md R16, spec/10_state.md R33,
spec/20_memory.md R63). -/

namespace Sys2Proof.Machine

open Polynomial

/-! ### Bytes of a little-endian integer (R63) -/

theorem getElem_eq_byte_leNat (bs : List Byte) (k : Nat) (hk : k < bs.length) :
    bs[k] = BitVec.ofNat 8 (leNat bs / 256 ^ k) := by
  induction bs generalizing k with
  | nil => simp at hk
  | cons b bs ih =>
    cases k with
    | zero =>
      have := b.isLt
      apply BitVec.eq_of_toNat_eq
      simp only [leNat, List.getElem_cons_zero, pow_zero, Nat.div_one, BitVec.toNat_ofNat]
      omega
    | succ k =>
      have hdiv : (b.toNat + 256 * leNat bs) / 256 = leNat bs := by have := b.isLt; omega
      rw [List.getElem_cons_succ, ih k (by simpa using hk), leNat, pow_succ', ← Nat.div_div_eq_div_mul, hdiv]

/-! ### `fromBytes` of an element (R16) -/

theorem residue_bit (poly v k : Nat) : residue poly ((v >>> k) % 2) = if v.testBit k then 1 else 0 := by
  rw [Nat.shiftRight_eq_div_pow, ← Nat.toNat_testBit]
  cases v.testBit k
  · exact residue_zero poly
  · exact residue_one poly

theorem residue_mod_succ (poly v k : Nat) :
    residue poly (v % 2 ^ (k + 1)) =
      residue poly (v % 2 ^ k) + if v.testBit k then AdjoinRoot.root (polyOf poly) ^ k else 0 := by
  rw [residue, polyOf_mod_succ, map_add]
  congr 1
  split
  · rw [map_pow, aeval_X]
  · exact map_zero _

/-- One pass of the loop of `polyReduce`: `r` times `x`, plus the next bit of `v`. -/
theorem polyReduce_succ (poly v k : Nat) {n r : Nat} (hr : r < 2 ^ n) :
    polyReduce n poly v (k + 1) r = polyReduce n poly v k (timesX n poly r ^^^ (v >>> k) % 2) := by
  rw [polyReduce, shift_reduce_eq_timesX poly hr]

section
variable {n poly : Nat} (hn : 0 < n) (hlo : 2 ^ n ≤ poly) (hhi : poly < 2 ^ (n + 1))
include hn hlo hhi

/-- The partial result of `polyReduce` stays below `2^n`. -/
theorem timesX_xor_bit_lt (v k : Nat) {r : Nat} (hr : r < 2 ^ n) : timesX n poly r ^^^ (v >>> k) % 2 < 2 ^ n := by
  have h2 : 2 ≤ 2 ^ n := Nat.le_self_pow (by omega) 2
  exact Nat.xor_lt_two_pow (timesX_lt hlo hhi hr) (by omega)

theorem polyReduce_lt (v k : Nat) {r : Nat} (hr : r < 2 ^ n) : polyReduce n poly v k r < 2 ^ n := by
  induction k generalizing r with
  | zero => exact hr
  | succ k ih =>
    rw [polyReduce_succ poly v k hr]
    exact ih (timesX_xor_bit_lt hn hlo hhi v k hr)

/-- Horner's rule: the `k` low bits of `v` follow the coefficients of `r`. -/
theorem residue_polyReduce (v k : Nat) {r : Nat} (hr : r < 2 ^ n) :
    residue poly (polyReduce n poly v k r) =
      residue poly r * AdjoinRoot.root (polyOf poly) ^ k + residue poly (v % 2 ^ k) := by
  induction k generalizing r with
  | zero => simp [polyReduce, Nat.mod_one]
  | succ k ih =>
    rw [polyReduce_succ poly v k hr, ih (timesX_xor_bit_lt hn hlo hhi v k hr), residue_xor, residue_timesX,
      residue_bit, residue_mod_succ]
    split <;> ring

/-- Reduction leaves a string of degree below `n` as it is. -/
theorem polyReduce_of_lt {v k : Nat} (hv : v < 2 ^ n) (hk : v < 2 ^ k) : polyReduce n poly v k 0 = v := by
  have h0 : 0 < 2 ^ n := Nat.two_pow_pos n
  refine eq_of_residue_eq hn hlo hhi (polyReduce_lt hn hlo hhi v k h0) hv ?_
  rw [residue_polyReduce hn hlo hhi v k h0, residue_zero, zero_mul, zero_add, Nat.mod_eq_of_lt hk]

end

/-- The bytes of an element give it back (R16). -/
theorem fromBytes_of_lt {f : Field} (hf : Config.fieldWf f = true) {bs : List Byte} (h : leNat bs < fieldCard f) :
    fromBytes f bs = leNat bs := by
  cases f with
  | prime p => exact Nat.mod_eq_of_lt h
  | binary n poly =>
    obtain ⟨hn, _, hlo, hhi⟩ := fieldWf_binary hf
    have hlen : leNat bs < 2 ^ (8 * bs.length) := by rw [pow_mul]; exact leNat_lt bs
    exact polyReduce_of_lt (by omega) hlo hhi h hlen

/-! ### The bytes of a bank slot -/

/-- The storage bytes of a bank slot, the lowest address first (R33). -/
def slotBytes (s : State) (b : Bank) (j : Nat) : List Byte :=
  (List.range (4 * fieldWords s.field)).map fun k => bankByte s (slotAddr b j + k)

@[simp] theorem length_slotBytes (s : State) (b : Bank) (j : Nat) :
    (slotBytes s b j).length = 4 * fieldWords s.field := by simp [slotBytes]

theorem leNat_slotBytes (s : State) (b : Bank) (j : Nat) : leNat (slotBytes s b j) = slotNat s b j := rfl

theorem bankByte_eq_byte_slotNat (s : State) (b : Bank) (j : Nat) {k : Nat} (hk : k < 4 * fieldWords s.field) :
    bankByte s (slotAddr b j + k) = BitVec.ofNat 8 (slotNat s b j / 256 ^ k) := by
  have h := getElem_eq_byte_leNat (slotBytes s b j) k (by simpa using hk)
  rw [leNat_slotBytes] at h
  rw [← h]
  simp [slotBytes]

theorem slotNat_lt (s : State) (b : Bank) (j : Nat) : slotNat s b j < 256 ^ (4 * fieldWords s.field) := by
  rw [← leNat_slotBytes, ← length_slotBytes s b j]
  exact leNat_lt _

/-- Settles O59: a slot's value is the little-endian integer of its storage bytes, so its digits base 256 are those
bytes, and reduction leaves an element as it is. -/
theorem slotBytesEncodeTheElement : Obligations.SlotBytesEncodeTheElement := by
  intro s b j hf
  exact ⟨fun k hk => bankByte_eq_byte_slotNat s b j hk, slotNat_lt s b j, fun h => fromBytes_of_lt hf h⟩

end Sys2Proof.Machine
end

section
/-! PROOFS. The invariant (spec/10_state.md R33, R48, R50; spec/40_permutation.md R123; spec/60_exceptions.md R221): it
holds right after reset and every step keeps it. -/

namespace Sys2Proof.Machine

/-! ### Right after reset -/

/-- With no bank byte written, no slot is specified (R50, R262). -/
theorem not_slotSpecified_of_mem_nil {s : State} (hf : Config.fieldWf s.field = true) (hm : s.mem = []) (b : Bank)
    (j : Nat) : ¬ slotSpecified s b j := by
  intro h
  have hw := fieldWords_pos hf
  have h0 := h 0 (by omega)
  rw [hm] at h0
  cases h0

theorem dataInv_initial {f : Field} (hf : Config.fieldWf f = true) : DataInv (State.initial f) where
  field := hf
  memForm := rfl
  memPlace := fun c hc => by cases hc
  sreg := fitsSlot_fillQuad f
  mkey := fitsSlot_fillQuad f
  nonce := fitsSlot_zero f
  tag := canonical_zero hf
  outputs := fun b _ j _ hs => absurd hs (not_slotSpecified_of_mem_nil (s := State.initial f) hf rfl b j)
  committed := fun x hx => by cases x <;> cases hx
  errCode := Nat.zero_le 6

theorem inv_initial {f : Field} (hf : Config.fieldWf f = true) : Inv (State.initial f) :=
  (dataInv_initial hf).inv rfl (fun _ => rfl) (fun _ => ⟨rfl, rfl, rfl, rfl, rfl, rfl, rfl, rfl, rfl⟩)
    fun h => absurd rfl h

/-- Settles O47: the field is legal (R7), and the reset values meet every clause for a legal field. -/
theorem invariantHoldsAtReset : Obligations.InvariantHoldsAtReset := inv_initial fieldWf_instanceField

/-! ### Every step -/

/-- Before the first reset after power-up only `rst_n` and another loss of power answer a next state (R265). -/
theorem inv_moveUnspecified {s t : State} (h : Inv s) (m : Move) (e : moveUnspecified m s = .next t) : Inv t := by
  cases m with
  | assertReset => exact inv_move h .assertReset e
  | powerCycle => cases e; exact h
  | write | read | engine | start | rfuTake | rfuRespond | rfuFallSilent | deassertReset => cases e

theorem inv_agentMove {s t : State} (h : Inv s) (m : Move) (e : agentMove m s = .next t) : Inv t := by
  unfold agentMove at e
  split at e
  · exact inv_move h m e
  · exact inv_moveUnspecified h m e

/-- Settles O48: a step is one agent's move, and no clause of the invariant reads the schedule the move is taken from. -/
theorem stepKeepsTheInvariant : Obligations.StepKeepsTheInvariant := by
  intro s t h e
  unfold step at e
  split at e
  · exact inv_agentMove h .engine e
  · next m ms _ =>
    have hs : Inv { s with schedule := ms } := inv_outside rfl h
    exact inv_agentMove hs m e

end Sys2Proof.Machine
end

section
/-! PROOFS. The address map of the host port (spec/20_memory.md R61, R65) as a relation between locations and word
numbers, and what the kinds of location do (R66). -/

namespace Sys2Proof.Machine

/-! ### The address map, region by region (R61)

The regions are bounded in the byte address `a` of the word, so that the tests of the map are comparisons of `a`. -/

theorem registerAt_of_le {n : Nat} (h : 11 ≤ n) : registerAt n = .reserved := by
  unfold registerAt
  split
  case h_12 => rfl
  all_goals omega

section
variable {off : Offset} {a : Nat} (ha : off.toNat / 4 * 4 = a)
include ha

theorem locate_registers (h : a < 0x100) : locate off = registerAt (a / 4) := by
  unfold locate
  simp only [ha, h, if_true]

theorem locate_sreg (h1 : 0x100 ≤ a) (h2 : a < 0x180) : locate off = .sreg ((a - 0x100) / 32) (a / 4 % 8) := by
  unfold locate
  simp (disch := omega) only [ha, if_pos, if_neg]

theorem locate_mkey (h1 : 0x180 ≤ a) (h2 : a < 0x200) : locate off = .mkey ((a - 0x180) / 32) (a / 4 % 8) := by
  unfold locate
  simp (disch := omega) only [ha, if_pos, if_neg]

theorem locate_nonce (h1 : 0x200 ≤ a) (h2 : a < 0x220) : locate off = .nonce (a / 4 % 8) := by
  unfold locate
  simp (disch := omega) only [ha, if_pos, if_neg]

theorem locate_tag (h1 : 0x220 ≤ a) (h2 : a < 0x240) : locate off = .tag (a / 4 % 8) := by
  unfold locate
  simp (disch := omega) only [ha, if_pos, if_neg]

theorem locate_in_bank (b : Bank) (h1 : b.base ≤ a) (h2 : a < b.base + 0x8000) :
    locate off = .bank b ((a - b.base) / 32) (a / 4 % 8) := by
  unfold locate
  cases b
  all_goals
    simp only [Bank.base] at h1 h2 ⊢
    simp (disch := omega) only [ha, if_pos, if_neg]

theorem locate_gap (h : 0x2C ≤ a ∧ a < 0x100 ∨ 0x240 ≤ a ∧ a < 0x8000 ∨ 0x30000 ≤ a) : locate off = .reserved := by
  rcases h with ⟨h1, h2⟩ | ⟨h1, h2⟩ | h1
  · rw [locate_registers ha h2, registerAt_of_le (by omega)]
  all_goals
    unfold locate
    simp (disch := omega) only [ha, if_pos, if_neg]

end

/-! ### Which word of the port space a location is -/

/-- The location is word `n` of the port space (R61). -/
def Loc.IsWord : Loc → Nat → Prop
  | .id, n => n = 0
  | .param0, n => n = 1
  | .param1, n => n = 2
  | .ctrl, n => n = 3
  | .status, n => n = 4
  | .cmd, n => n = 5
  | .rounds .large, n => n = 6
  | .rounds .small, n => n = 7
  | .rclen .large, n => n = 8
  | .rclen .small, n => n = 9
  | .klen, n => n = 10
  | .sreg i w, n => i < 4 ∧ w < 8 ∧ 4 * n = 0x100 + 0x20 * i + 4 * w
  | .mkey i w, n => i < 4 ∧ w < 8 ∧ 4 * n = 0x180 + 0x20 * i + 4 * w
  | .nonce w, n => w < 8 ∧ 4 * n = 0x200 + 4 * w
  | .tag w, n => w < 8 ∧ 4 * n = 0x220 + 4 * w
  | .bank b j w, n => j < 1024 ∧ w < 8 ∧ 4 * n = slotAddr b j + 4 * w
  | .reserved, n => 0x2C ≤ 4 * n ∧ 4 * n < 0x100 ∨ 0x240 ≤ 4 * n ∧ 4 * n < 0x8000 ∨ 0x30000 ≤ 4 * n

theorem isWord_registerAt {n : Nat} (h : n < 64) : (registerAt n).IsWord n := by
  unfold registerAt
  split
  case h_12 => refine .inl ⟨?_, by omega⟩; grind
  all_goals rfl

theorem isWord_locate_in_bank {off : Offset} {n : Nat} (ha : off.toNat / 4 * 4 = 4 * n) (b : Bank)
    (h1 : b.base ≤ 4 * n) (h2 : 4 * n < b.base + 0x8000) : (locate off).IsWord n := by
  have hb : b.base % 32 = 0 := by cases b <;> rfl
  rw [locate_in_bank ha b h1 h2]
  simp only [Loc.IsWord, slotAddr]
  omega

theorem isWord_locate (off : Offset) : (locate off).IsWord (off.toNat / 4) := by
  generalize hn : off.toNat / 4 = n
  have ha : off.toNat / 4 * 4 = 4 * n := by rw [hn, Nat.mul_comm]
  have hregion : 4 * n < 0x100 ∨ (0x100 ≤ 4 * n ∧ 4 * n < 0x180) ∨ (0x180 ≤ 4 * n ∧ 4 * n < 0x200) ∨
      (0x200 ≤ 4 * n ∧ 4 * n < 0x220) ∨ (0x220 ≤ 4 * n ∧ 4 * n < 0x240) ∨ (0x240 ≤ 4 * n ∧ 4 * n < 0x8000) ∨
      (0x8000 ≤ 4 * n ∧ 4 * n < 0x10000) ∨ (0x10000 ≤ 4 * n ∧ 4 * n < 0x18000) ∨
      (0x18000 ≤ 4 * n ∧ 4 * n < 0x20000) ∨ (0x20000 ≤ 4 * n ∧ 4 * n < 0x28000) ∨
      (0x28000 ≤ 4 * n ∧ 4 * n < 0x30000) ∨ 0x30000 ≤ 4 * n := by omega
  rcases hregion with h | ⟨h1, h2⟩ | ⟨h1, h2⟩ | ⟨h1, h2⟩ | ⟨h1, h2⟩ | h | ⟨h1, h2⟩ | ⟨h1, h2⟩ | ⟨h1, h2⟩ | ⟨h1, h2⟩ |
    ⟨h1, h2⟩ | h
  · rw [locate_registers ha h, Nat.mul_div_cancel_left _ (by omega)]
    exact isWord_registerAt (by omega)
  · rw [locate_sreg ha h1 h2]
    simp only [Loc.IsWord]
    omega
  · rw [locate_mkey ha h1 h2]
    simp only [Loc.IsWord]
    omega
  · rw [locate_nonce ha h1 h2]
    simp only [Loc.IsWord]
    omega
  · rw [locate_tag ha h1 h2]
    simp only [Loc.IsWord]
    omega
  · rw [locate_gap ha (.inr (.inl h))]
    exact .inr (.inl h)
  · exact isWord_locate_in_bank ha .rcL h1 h2
  · exact isWord_locate_in_bank ha .rcS h1 h2
  · exact isWord_locate_in_bank ha .din h1 h2
  · exact isWord_locate_in_bank ha .dout h1 h2
  · exact isWord_locate_in_bank ha .ek h1 h2
  · rw [locate_gap ha (.inr (.inr h))]
    exact .inr (.inr h)

theorem locate_eq_iff {off : Offset} {l : Loc} : locate off = l ↔ l.IsWord (off.toNat / 4) := by
  refine ⟨fun e => e ▸ isWord_locate off, fun h => ?_⟩
  generalize hn : off.toNat / 4 = n at h
  have ha : off.toNat / 4 * 4 = 4 * n := by rw [hn, Nat.mul_comm]
  clear hn
  cases l with
  | id | param0 | param1 | ctrl | status | cmd | klen =>
    cases h
    rw [locate_registers ha (by decide)]
    rfl
  | rounds x | rclen x =>
    cases x
    all_goals
      cases h
      rw [locate_registers ha (by decide)]
      rfl
  | sreg i w =>
    obtain ⟨hi, hw, h⟩ := h
    rw [locate_sreg ha (by omega) (by omega)]
    congr 1 <;> omega
  | mkey i w =>
    obtain ⟨hi, hw, h⟩ := h
    rw [locate_mkey ha (by omega) (by omega)]
    congr 1 <;> omega
  | nonce w =>
    obtain ⟨hw, h⟩ := h
    rw [locate_nonce ha (by omega) (by omega)]
    congr 1
    omega
  | tag w =>
    obtain ⟨hw, h⟩ := h
    rw [locate_tag ha (by omega) (by omega)]
    congr 1
    omega
  | bank b j w =>
    obtain ⟨hj, hw, h⟩ := h
    have hb : b.base % 32 = 0 := by cases b <;> rfl
    unfold slotAddr at h
    rw [locate_in_bank ha b (by omega) (by omega)]
    congr 1 <;> omega
  | reserved => exact locate_gap ha h

/-! ### Words of slots, and read-only locations -/

/-- The word of its slot that a location of a slot region is (R61). -/
def Loc.slotWord? : Loc → Option Nat
  | .sreg _ w | .mkey _ w | .nonce w | .tag w | .bank _ _ w => some w
  | .id | .param0 | .param1 | .ctrl | .status | .cmd | .rounds _ | .rclen _ | .klen | .reserved => none

/-- The locations that ignore every write (R66). -/
def Loc.readOnly : Loc → Bool
  | .id | .param0 | .param1 | .tag _ | .bank .dout _ _ | .bank .ek _ _ | .reserved => true
  | .ctrl | .status | .cmd | .rounds _ | .rclen _ | .klen | .sreg _ _ | .mkey _ _ | .nonce _ | .bank .rcL _ _
  | .bank .rcS _ _ | .bank .din _ _ => false

theorem Loc.IsWord.slotWord? {l : Loc} {n : Nat} (h : l.IsWord n)
    (hn : 0x100 ≤ 4 * n ∧ 4 * n < 0x240 ∨ 0x8000 ≤ 4 * n ∧ 4 * n < 0x30000) : l.slotWord? = some (n % 8) := by
  cases l with
  | id | param0 | param1 | ctrl | status | cmd | klen | reserved => simp only [Loc.IsWord] at h; omega
  | rounds x | rclen x => cases x <;> simp only [Loc.IsWord] at h <;> omega
  | sreg | mkey | nonce | tag =>
    simp only [Loc.IsWord] at h
    exact congrArg some (by omega)
  | bank b =>
    have hb : b.base % 32 = 0 := by cases b <;> rfl
    simp only [Loc.IsWord, slotAddr] at h
    exact congrArg some (by omega)

theorem Loc.IsWord.readOnly_iff {l : Loc} {n : Nat} (h : l.IsWord n) :
    l.readOnly = true ↔
      4 * n < 0x0C ∨ 0x2C ≤ 4 * n ∧ 4 * n < 0x100 ∨ 0x220 ≤ 4 * n ∧ 4 * n < 0x8000 ∨ 0x20000 ≤ 4 * n := by
  cases l with
  | id | param0 | param1 | ctrl | status | cmd | klen | reserved | sreg | mkey | nonce | tag =>
    simp only [Loc.IsWord] at h
    simp only [Loc.readOnly, true_iff, Bool.false_eq_true, false_iff]
    omega
  | rounds x | rclen x =>
    cases x
    all_goals
      simp only [Loc.IsWord] at h
      simp only [Loc.readOnly, Bool.false_eq_true, false_iff]
      omega
  | bank b =>
    cases b
    all_goals
      simp only [Loc.IsWord, slotAddr, Bank.base] at h
      simp only [Loc.readOnly, true_iff, Bool.false_eq_true, false_iff]
      omega

theorem writeLoc_readOnly {l : Loc} (h : l.readOnly = true) (s : State) (v : Word) : writeLoc s v l = s := by
  cases l with
  | id | param0 | param1 | tag | reserved => rfl
  | bank b =>
    cases b with
    | dout | ek => rfl
    | rcL | rcS | din => cases h
  | ctrl | status | cmd | rounds | rclen | klen | sreg | mkey | nonce => cases h

/-! ### Words above the storage words of a slot (R33, R66) -/

@[simp] theorem unlessBusy_zero (s : State) : unlessBusy s 0#32 = 0#32 := ite_self _

theorem readLoc_beyond_storage {s : State} {l : Loc} {w : Nat} (hl : l.slotWord? = some w)
    (hw : fieldWords s.field ≤ w) : readLoc s l = 0 := by
  cases l with
  | sreg | mkey | nonce | tag | bank =>
    cases hl
    simp [readLoc, slotWord, bankWord, Nat.not_lt.2 hw]
  | id | param0 | param1 | ctrl | status | cmd | rounds | rclen | klen | reserved => cases hl

theorem writeLoc_beyond_storage {s : State} {l : Loc} {w : Nat} (hl : l.slotWord? = some w)
    (hw : fieldWords s.field ≤ w) (v : Word) : writeLoc s v l = s := by
  have hsto : ∀ g : State → State, ifStorage s w g = s := fun g => if_neg (Nat.not_lt.2 hw)
  cases l with
  | sreg | mkey | nonce => cases hl; exact hsto _
  | tag => rfl
  | bank b =>
    cases hl
    cases b with
    | rcL | rcS | din => exact hsto _
    | dout | ek => rfl
  | id | param0 | param1 | ctrl | status | cmd | rounds | rclen | klen | reserved => cases hl

/-- Settles O37: the reserved offsets are one location, which reads 0 and takes no write; the words above the storage
words and the read-only locations are kinds of location of their own. -/
theorem reservedAndReadOnlyLocations : Obligations.ReservedAndReadOnlyLocations := by
  intro s off v
  have hl := isWord_locate off
  refine ⟨fun h => ?_, fun h hw => ?_, fun h => ?_⟩
  · have hres : locate off = .reserved := locate_eq_iff.2 (by simp only [Loc.IsWord]; omega)
    simp [hostRead, hostWrite, hres, readLoc, writeLoc]
  · have hword := hl.slotWord? (by omega)
    exact ⟨readLoc_beyond_storage hword hw, writeLoc_beyond_storage hword hw v⟩
  · exact writeLoc_readOnly (hl.readOnly_iff.2 (by omega)) s v

end Sys2Proof.Machine
end

section
/-! PROOFS. The registers at the host port (spec/10_state.md R21 to R31; spec/20_memory.md R72, R73;
spec/70_reset_and_hazards.md R261 to R263). -/

namespace Sys2Proof.Machine

/-! ### Words as integers -/

theorem toNat_append_eq_add {m n : Nat} (x : BitVec m) (y : BitVec n) :
    (x ++ y).toNat = x.toNat * 2 ^ n + y.toNat := by
  rw [BitVec.toNat_append, ← Nat.shiftLeft_add_eq_or_of_lt y.isLt, Nat.shiftLeft_eq]

theorem getLsbD_eq_decide {n : Nat} (v : BitVec n) (k : Nat) : v.getLsbD k = decide (v.toNat / 2 ^ k % 2 = 1) :=
  Nat.testBit_eq_decide_div_mod_eq

/-! ### What the registers read as -/

theorem toNat_ctrlWord (s : State) : (ctrlWord s).toNat = s.irqEn.toNat := by
  simp only [ctrlWord, toNat_append_eq_add, BitVec.toNat_ofBool, BitVec.toNat_ofNat]
  omega

theorem toNat_statusWord (s : State) :
    (statusWord s).toNat = s.busy.toNat + 2 * s.done.toNat + 4 * s.err.toNat + 8 * s.wrDrop.toNat +
      16 * s.cmdDrop.toNat + 32 * s.validL.toNat + 64 * s.validS.toNat + 256 * s.errCode.toNat := by
  simp only [statusWord, toNat_append_eq_add, BitVec.toNat_ofBool, BitVec.toNat_ofNat]
  omega

/-- Settles O33: the address map gives each offset its register, and each register's word is its fields side by side. -/
theorem registerReads : Obligations.RegisterReads := by
  intro s hf
  refine ⟨rfl, ?_, rfl, toNat_ctrlWord s, toNat_statusWord s, rfl, ?_, ?_, ?_, ?_, ?_⟩
  · show (param0Word s.field).toNat = _
    have hw := fieldWidth_le hf
    cases hs : s.field with
    | prime p => exact Nat.mod_eq_of_lt (by rw [← hs]; omega)
    | binary n poly => exact Nat.mod_eq_of_lt (by rw [← hs]; omega)
  all_goals exact BitVec.toNat_setWidth_of_le (by omega)

/-! ### STATUS -/

/-- Settles O40: the word's bits 1 to 4 each mask one flag. -/
theorem statusWriteOneToClear : Obligations.StatusWriteOneToClear := by
  intro s off v h
  have hw : hostWrite off v s = writeStatus v s := by rw [hostWrite, (locate_eq_iff (l := .status)).2 h, writeLoc]
  simp only [hw, writeStatus, getLsbD_eq_decide]
  refine ⟨trivial, ?_⟩
  simp +contextual

/-! ### CTRL -/

theorem registersReset_resetState (s : State) : RegistersReset (resetState s) :=
  ⟨rfl, rfl, rfl, rfl, rfl, rfl, rfl, rfl, rfl, rfl, rfl, rfl, rfl, rfl, rfl, rfl, rfl, rfl, rfl, rfl,
    ⟨rfl, rfl, rfl, rfl, rfl, rfl, rfl, rfl, rfl⟩, rfl⟩

theorem hostWrite_ctrl {off : Offset} (h : off.toNat / 4 = 3) (v : Word) (s : State) :
    hostWrite off v s =
      if v.toNat / 2 % 2 = 1 then resetState s else { s with irqEn := decide (v.toNat % 2 = 1) } := by
  rw [hostWrite, (locate_eq_iff (l := .ctrl)).2 h]
  simp only [writeLoc, getLsbD_eq_decide, pow_one, pow_zero, Nat.div_one, decide_eq_true_eq]

/-- Settles O41: bit 1 alone decides between the store and the reset. -/
theorem controlWriteStoresOrResets : Obligations.ControlWriteStoresOrResets := by
  intro s off v h
  rw [hostWrite_ctrl h]
  refine ⟨fun h1 => if_neg (by omega), fun h1 => ?_⟩
  rw [if_pos h1]
  exact ⟨registersReset_resetState s, rfl, rfl, rfl, fun a => rfl⟩

end Sys2Proof.Machine
end

section
/-! PROOFS. The words of slots at the host port of an idle machine (spec/10_state.md R33; spec/20_memory.md R63, R64, R68):
which raw bits a read gives, and what a write leaves at every location. -/

namespace Sys2Proof.Machine

/-! ### Words of a slot register -/

theorem toNat_extractWord (r : Raw) (w : Nat) :
    (r.extractLsb' (32 * w) 32).toNat = r.toNat / 2 ^ (32 * w) % 2 ^ 32 := by
  rw [BitVec.extractLsb'_toNat, Nat.shiftRight_eq_div_pow]

theorem getLsbD_wordMask (i : Nat) : (0xFFFFFFFF#256).getLsbD i = decide (i < 32) := by
  have hones : 0xFFFFFFFF#256 = (BitVec.allOnes 32).setWidth 256 := rfl
  rw [hones, BitVec.getLsbD_setWidth, BitVec.getLsbD_allOnes, ← Bool.decide_and]
  exact decide_eq_decide.2 (by omega)

/-- A write to a storage word replaces the word's bits and keeps every other bit of the slot (R33). -/
theorem getLsbD_setSlotWord {f : Field} {w i : Nat} (hf : w < fieldWords f) (hi : i < 256) (r : Raw) (v : Word) :
    (setSlotWord f r w v).getLsbD i =
      if 32 * w ≤ i ∧ i < 32 * w + 32 then v.getLsbD (i - 32 * w) else r.getLsbD i := by
  rw [setSlotWord, if_pos hf]
  simp only [BitVec.getLsbD_or, BitVec.getLsbD_and, BitVec.getLsbD_not, BitVec.getLsbD_shiftLeft, getLsbD_wordMask,
    BitVec.getLsbD_setWidth, hi, decide_true, Bool.true_and]
  by_cases hlo : i < 32 * w
  · simp [hlo]
  · by_cases hhi : i - 32 * w < 32
    · rw [if_pos (by omega)]
      simp [hlo, hhi]
      omega
    · rw [if_neg (by omega)]
      simp [hlo, hhi, BitVec.getLsbD_of_ge v (i - 32 * w) (by omega)]

theorem extractWord_setSlotWord {f : Field} {w w' : Nat} (hf : w < fieldWords f) (hw' : w' < 8) (r : Raw) (v : Word) :
    (setSlotWord f r w v).extractLsb' (32 * w') 32 = if w' = w then v else r.extractLsb' (32 * w') 32 := by
  apply BitVec.eq_of_getLsbD_eq
  intro k hk
  rw [BitVec.getLsbD_extractLsb', getLsbD_setSlotWord hf (by omega)]
  split
  · next h =>
    rw [if_pos (by omega)]
    simp [hk, show w' = w by omega]
  · next h =>
    rw [if_neg (by omega)]
    simp [hk]

theorem slotWord_setSlotWord_same {f : Field} {w : Nat} (hf : w < fieldWords f) (hw : w < 8) (r : Raw) (v : Word) :
    slotWord f (setSlotWord f r w v) w = v := by
  rw [slotWord, if_pos hf, extractWord_setSlotWord hf hw, if_pos rfl]

theorem slotWord_setSlotWord_ne {f : Field} {w w' : Nat} (hw' : w' < 8) (hne : w' ≠ w) (r : Raw) (v : Word) :
    slotWord f (setSlotWord f r w v) w' = slotWord f r w' := by
  by_cases hf : w < fieldWords f
  · rw [slotWord, slotWord, extractWord_setSlotWord hf hw', if_neg hne]
  · rw [setSlotWord, if_neg hf]

theorem quadGet_quadSet {α : Type} (q : Quad α) {i j : Nat} (hi : i < 4) (hj : j < 4) (x : α) :
    quadGet (quadSet q i x) j = if j = i then x else quadGet q j := by
  interval_cases i <;> interval_cases j <;> rfl

/-! ### Words of a bank slot -/

theorem leNat_append (l r : List Byte) : leNat (l ++ r) = leNat l + 256 ^ l.length * leNat r := by
  induction l with
  | nil => simp [leNat]
  | cons b l ih =>
    rw [List.cons_append, leNat, ih, leNat, List.length_cons, pow_succ']
    ring

theorem bankNat_add (s : State) (a m n : Nat) :
    bankNat s a (m + n) = bankNat s a m + 256 ^ m * bankNat s (a + m) n := by
  unfold bankNat
  rw [List.range_add, List.map_append, leNat_append, List.length_map, List.length_range, List.map_map]
  simp only [Function.comp_def, Nat.add_assoc]

theorem bankNat_lt (s : State) (a n : Nat) : bankNat s a n < 256 ^ n := by
  have h := leNat_lt ((List.range n).map fun k => bankByte s (a + k))
  rwa [List.length_map, List.length_range] at h

/-- Four bytes of a slot are 32 bits of its raw value (R33, R63). -/
theorem bankNat_word_of_slot (s : State) (b : Bank) (j : Nat) {w : Nat} (hw : w < fieldWords s.field) :
    bankNat s (slotAddr b j + 4 * w) 4 = slotNat s b j / 2 ^ (32 * w) % 2 ^ 32 := by
  obtain ⟨n, hn⟩ : ∃ n, 4 * fieldWords s.field = 4 * w + (4 + n) := ⟨4 * (fieldWords s.field - w - 1), by omega⟩
  have hlo := bankNat_lt s (slotAddr b j) (4 * w)
  have hword := bankNat_lt s (slotAddr b j + 4 * w) 4
  rw [slotNat, hn, bankNat_add, bankNat_add, show 2 ^ (32 * w) = 256 ^ (4 * w) by rw [pow_mul, pow_mul]; norm_num,
    Nat.add_mul_div_left _ _ (by positivity), Nat.div_eq_of_lt hlo, Nat.zero_add, show 2 ^ 32 = 256 ^ 4 by norm_num,
    Nat.add_mul_mod_self_left, Nat.mod_eq_of_lt hword]

theorem bankWord_putWord_same (s : State) (b : Bank) (j : Nat) {w : Nat} (hw : w < fieldWords s.field) (v : Word) :
    bankWord (putWord (slotAddr b j + 4 * w) v s) b j w = v := by
  rw [bankWord, putWord_field, if_pos hw, bankNat_putWord, BitVec.ofNat_toNat, BitVec.setWidth_eq]

theorem bankWord_putWord_ne (s : State) {a n n' : Nat} {b : Bank} {j w : Nat} (ha : 4 * n = a)
    (hb : 4 * n' = slotAddr b j + 4 * w) (hne : n' ≠ n) (v : Word) :
    bankWord (putWord a v s) b j w = bankWord s b j w := by
  have hbytes : bankNat (putWord a v s) (slotAddr b j + 4 * w) 4 = bankNat s (slotAddr b j + 4 * w) 4 :=
    bankNat_congr fun k hk => by rw [bankByte_putWord, if_neg (by omega)]
  rw [bankWord, bankWord, putWord_field, hbytes]

/-! ### Reads of an idle machine (R64) -/

theorem locate_ofNat {a : Nat} {l : Loc} (ha : a < 2 ^ 18) (h : l.IsWord (a / 4)) : locate (BitVec.ofNat 18 a) = l :=
  locate_eq_iff.2 (by rwa [BitVec.toNat_ofNat, Nat.mod_eq_of_lt ha])

theorem unlessBusy_idle {s : State} (hb : s.busy = false) (v : Word) : unlessBusy s v = v := by
  rw [unlessBusy, hb]
  rfl

theorem slotWord_eq_ofNat {f : Field} {w : Nat} (hw : w < fieldWords f) (r : Raw) :
    slotWord f r w = BitVec.ofNat 32 (r.toNat / 2 ^ (32 * w) % 2 ^ 32) := by
  rw [slotWord, if_pos hw, ← toNat_extractWord, BitVec.ofNat_toNat, BitVec.setWidth_eq]

theorem bankWord_eq_ofNat {s : State} {w : Nat} (hw : w < fieldWords s.field) (b : Bank) (j : Nat) :
    bankWord s b j w = BitVec.ofNat 32 (slotNat s b j / 2 ^ (32 * w) % 2 ^ 32) := by
  rw [bankWord, if_pos hw, bankNat_word_of_slot s b j hw]

theorem slotAddr_lt (b : Bank) {j : Nat} (hj : j < 1024) : slotAddr b j + 0x20 ≤ 0x30000 := by
  cases b <;> simp only [slotAddr, Bank.base] <;> omega

theorem isWord_bank (b : Bank) {j w : Nat} (hj : j < 1024) (hw : w < 8) :
    (Loc.bank b j w).IsWord ((slotAddr b j + 4 * w) / 4) := by
  refine ⟨hj, hw, ?_⟩
  cases b <;> simp only [slotAddr, Bank.base] <;> omega

theorem hostRead_slotWord {s : State} (hb : s.busy = false) {w : Nat} (hw : w < fieldWords s.field) {a : Nat}
    (ha : a < 2 ^ 18) {l : Loc} (hl : l.IsWord (a / 4)) {r : Raw}
    (hr : readLoc s l = unlessBusy s (slotWord s.field r w)) :
    hostRead s (BitVec.ofNat 18 a) = BitVec.ofNat 32 (r.toNat / 2 ^ (32 * w) % 2 ^ 32) := by
  rw [hostRead, locate_ofNat ha hl, hr, unlessBusy_idle hb, slotWord_eq_ofNat hw]

theorem hostRead_bankWord {s : State} (hb : s.busy = false) {w : Nat} (hw : w < fieldWords s.field) (hw8 : w < 8)
    (b : Bank) {j : Nat} (hj : j < 1024) :
    hostRead s (BitVec.ofNat 18 (slotAddr b j + 4 * w)) =
      BitVec.ofNat 32 (slotNat s b j / 2 ^ (32 * w) % 2 ^ 32) := by
  have hlt := slotAddr_lt b hj
  rw [hostRead, locate_ofNat (by omega) (isWord_bank b hj hw8), readLoc, unlessBusy_idle hb, bankWord_eq_ofNat hw]

/-- Settles O60: the address map gives the offset its slot and word, and an idle machine shows the word's raw bits. -/
theorem idleSlotReadsGiveTheRawWords : Obligations.IdleSlotReadsGiveTheRawWords := by
  intro s w hb hf hw
  have hw8 : w < 8 := hw.trans_le (fieldWords_le hf)
  refine ⟨fun j hj => ?_, fun j hj => ?_, ?_, ?_, fun j hj => ?_⟩
  · exact hostRead_slotWord hb hw (by omega) (l := .sreg j w) ⟨hj, hw8, by omega⟩ rfl
  · exact hostRead_slotWord hb hw (by omega) (l := .mkey j w) ⟨hj, hw8, by omega⟩ rfl
  · exact hostRead_slotWord hb hw (by omega) (l := .nonce w) ⟨hw8, by omega⟩ rfl
  · exact hostRead_slotWord hb hw (by omega) (l := .tag w) ⟨hw8, by omega⟩ rfl
  · have hbank := fun b => hostRead_bankWord hb hw hw8 b hj
    exact ⟨hbank .rcL, hbank .rcS, hbank .din, hbank .dout, hbank .ek⟩

/-! ### Writes to an idle machine (R68) -/

theorem ifStorage_idle {s : State} (hb : s.busy = false) {w : Nat} (hw : w < fieldWords s.field) (g : State → State) :
    ifStorage s w g = g s := by
  rw [ifStorage, if_pos hw, ifIdle, hb]
  rfl

theorem readLoc_setValid (x : Sel) (b : Bool) (s : State) {l : Loc} (hl : l ≠ .status) :
    readLoc (setValid x b s) l = readLoc s l := by
  cases l with
  | status => exact absurd rfl hl
  | rounds y | rclen y => cases x <;> cases y <;> rfl
  | id | param0 | param1 | ctrl | cmd | klen | sreg | mkey | nonce | tag | bank | reserved => cases x <;> rfl

/-- To every location but STATUS a host write to a bank is the four bytes of the word and no more. -/
theorem readLoc_writeBankWord {s : State} (hb : s.busy = false) {b : Bank} {j w : Nat} (hw : w < fieldWords s.field)
    (hro : (Loc.bank b j w).readOnly = false) (v : Word) {l : Loc} (hl : l ≠ .status) :
    readLoc (writeBankWord b j w v s) l = readLoc (putWord (slotAddr b j + 4 * w) v s) l := by
  cases b with
  | rcL | rcS =>
    rw [writeBankWord, ifStorage_idle hb hw]
    exact readLoc_setValid _ _ _ hl
  | din => rw [writeBankWord, ifStorage_idle hb hw]
  | dout | ek => cases hro

theorem slotWord_quadSet_same {f : Field} {i w : Nat} (hi : i < 4) (hf : w < fieldWords f) (hw : w < 8) (q : Quad Raw)
    (v : Word) : slotWord f (quadGet (quadSet q i (setSlotWord f (quadGet q i) w v)) i) w = v := by
  rw [quadGet_quadSet q hi hi, if_pos rfl, slotWord_setSlotWord_same hf hw]

theorem slotWord_quadSet_ne {f : Field} {i w i' w' : Nat} (hi : i < 4) (hi' : i' < 4) (hw' : w' < 8)
    (hne : i' = i → w' ≠ w) (q : Quad Raw) (v : Word) :
    slotWord f (quadGet (quadSet q i (setSlotWord f (quadGet q i) w v)) i') w' = slotWord f (quadGet q i') w' := by
  rw [quadGet_quadSet q hi hi']
  split
  · next h =>
    subst h
    exact slotWord_setSlotWord_ne hw' (hne rfl) _ v
  · rfl

/-- A location reads as before when the word it names in S, MK, NONCE or a bank, if any, is the same. -/
theorem readLoc_congr_slots {s : State} {q k : Quad Raw} {r : Raw} {m : Memory} {l : Loc}
    (hq : ∀ i w, l = .sreg i w → slotWord s.field (quadGet q i) w = slotWord s.field (quadGet s.sreg i) w)
    (hk : ∀ i w, l = .mkey i w → slotWord s.field (quadGet k i) w = slotWord s.field (quadGet s.mkey i) w)
    (hr : ∀ w, l = .nonce w → slotWord s.field r w = slotWord s.field s.nonce w)
    (hm : ∀ b j w, l = .bank b j w → bankWord { s with mem := m } b j w = bankWord s b j w) :
    readLoc { s with sreg := q, mkey := k, nonce := r, mem := m } l = readLoc s l := by
  cases l with
  | sreg i w => exact congrArg (unlessBusy s) (hq i w rfl)
  | mkey i w => exact congrArg (unlessBusy s) (hk i w rfl)
  | nonce w => exact congrArg (unlessBusy s) (hr w rfl)
  | bank b j w => exact congrArg (unlessBusy s) (hm b j w rfl)
  | rounds x | rclen x => cases x <;> rfl
  | id | param0 | param1 | ctrl | status | cmd | klen | tag | reserved => rfl

section
variable {s : State} {l : Loc} {n w : Nat} (hb : s.busy = false) (hl : l.IsWord n) (hro : l.readOnly = false)
  (hword : l.slotWord? = some w) (hw : w < fieldWords s.field) (v : Word)
include hb hl hro hword hw

theorem readLoc_writeLoc_same : readLoc (writeLoc s v l) l = v := by
  cases l with
  | sreg i | mkey i =>
    cases hword
    obtain ⟨hi, hw8, -⟩ := hl
    rw [writeLoc, ifStorage_idle hb hw]
    exact (unlessBusy_idle hb _).trans (slotWord_quadSet_same hi hw hw8 _ v)
  | nonce =>
    cases hword
    obtain ⟨hw8, -⟩ := hl
    rw [writeLoc, ifStorage_idle hb hw]
    exact (unlessBusy_idle hb _).trans (slotWord_setSlotWord_same hw hw8 _ v)
  | bank b j =>
    cases hword
    rw [writeLoc, readLoc_writeBankWord hb hw hro v (by simp)]
    exact (unlessBusy_idle hb _).trans (bankWord_putWord_same s b j hw v)
  | tag => cases hro
  | id | param0 | param1 | ctrl | status | cmd | rounds | rclen | klen | reserved => cases hword

theorem readLoc_writeLoc_ne {l' : Loc} {n' : Nat} (hl' : l'.IsWord n') (hne : n' ≠ n) (hst : l' ≠ .status) :
    readLoc (writeLoc s v l) l' = readLoc s l' := by
  cases l with
  | sreg i =>
    cases hword
    obtain ⟨hi, hw8, hn⟩ := hl
    rw [writeLoc, ifStorage_idle hb hw]
    refine readLoc_congr_slots (fun i' w' e => ?_) (fun _ _ _ => rfl) (fun _ _ => rfl) fun _ _ _ _ => rfl
    subst e
    obtain ⟨hi', hw8', hn'⟩ := hl'
    exact slotWord_quadSet_ne hi hi' hw8' (by omega) s.sreg v
  | mkey i =>
    cases hword
    obtain ⟨hi, hw8, hn⟩ := hl
    rw [writeLoc, ifStorage_idle hb hw]
    refine readLoc_congr_slots (fun _ _ _ => rfl) (fun i' w' e => ?_) (fun _ _ => rfl) fun _ _ _ _ => rfl
    subst e
    obtain ⟨hi', hw8', hn'⟩ := hl'
    exact slotWord_quadSet_ne hi hi' hw8' (by omega) s.mkey v
  | nonce =>
    cases hword
    obtain ⟨hw8, hn⟩ := hl
    rw [writeLoc, ifStorage_idle hb hw]
    refine readLoc_congr_slots (fun _ _ _ => rfl) (fun _ _ _ => rfl) (fun w' e => ?_) fun _ _ _ _ => rfl
    subst e
    obtain ⟨hw8', hn'⟩ := hl'
    exact slotWord_setSlotWord_ne hw8' (by omega) s.nonce v
  | bank b j =>
    cases hword
    obtain ⟨-, -, hn⟩ := hl
    rw [writeLoc, readLoc_writeBankWord hb hw hro v hst]
    refine readLoc_congr_slots (fun _ _ _ => rfl) (fun _ _ _ => rfl) (fun _ _ => rfl) fun b' j' w' e => ?_
    subst e
    obtain ⟨-, -, hn'⟩ := hl'
    exact bankWord_putWord_ne s hn hn' hne v
  | tag => cases hro
  | id | param0 | param1 | ctrl | status | cmd | rounds | rclen | klen | reserved => cases hword

end

theorem word_setSlotWord {f : Field} {w : Nat} (hf : w < fieldWords f) (r : Raw) (v : Word) :
    ∀ w' < 8, (setSlotWord f r w v).toNat / 2 ^ (32 * w') % 2 ^ 32 =
      if w' = w then v.toNat else r.toNat / 2 ^ (32 * w') % 2 ^ 32 := by
  intro w' hw'
  rw [← toNat_extractWord, extractWord_setSlotWord hf hw', ← toNat_extractWord]
  exact apply_ite BitVec.toNat _ _ _

/-- Storage word `w` of slot `j` written: that slot's words, and the other three slots. -/
theorem quadGet_quadSet_setSlotWord {f : Field} {w j : Nat} (hf : w < fieldWords f) (hj : j < 4) (q : Quad Raw)
    (v : Word) :
    (∀ w' < 8, (quadGet (quadSet q j (setSlotWord f (quadGet q j) w v)) j).toNat / 2 ^ (32 * w') % 2 ^ 32 =
      if w' = w then v.toNat else (quadGet q j).toNat / 2 ^ (32 * w') % 2 ^ 32) ∧
    ∀ i < 4, i ≠ j → quadGet (quadSet q j (setSlotWord f (quadGet q j) w v)) i = quadGet q i := by
  refine ⟨?_, fun i hi hne => ?_⟩
  · rw [quadGet_quadSet q hj hj, if_pos rfl]
    exact word_setSlotWord hf _ v
  · rw [quadGet_quadSet q hj hi, if_neg hne]

/-- Settles O34: the write changes one location's word; in S, MK and NONCE it is `setSlotWord` of one slot. -/
theorem slotWordsReadBack : Obligations.SlotWordsReadBack := by
  refine ⟨fun s off v hb hoff hw => ?_, fun s w v hb hf hw => ?_⟩
  · have hl := isWord_locate off
    have hword := hl.slotWord? (by omega)
    have hro : (locate off).readOnly = false := by
      rw [← Bool.not_eq_true, hl.readOnly_iff]
      omega
    refine ⟨readLoc_writeLoc_same hb hl hro hword hw v, fun off' hne h4 => ?_⟩
    exact readLoc_writeLoc_ne hb hl hro hword hw v (isWord_locate off') hne fun e => h4 (locate_eq_iff.1 e)
  · have hw8 : w < 8 := hw.trans_le (fieldWords_le hf)
    refine ⟨fun j hj => ?_, fun j hj => ?_, ?_⟩
    · rw [hostWrite, locate_ofNat (l := .sreg j w) (by omega) ⟨hj, hw8, by omega⟩, writeLoc, ifStorage_idle hb hw]
      exact ⟨_, rfl, quadGet_quadSet_setSlotWord hw hj s.sreg v⟩
    · rw [hostWrite, locate_ofNat (l := .mkey j w) (by omega) ⟨hj, hw8, by omega⟩, writeLoc, ifStorage_idle hb hw]
      exact ⟨_, rfl, quadGet_quadSet_setSlotWord hw hj s.mkey v⟩
    · rw [hostWrite, locate_ofNat (l := .nonce w) (by omega) ⟨hw8, by omega⟩, writeLoc, ifStorage_idle hb hw]
      exact ⟨_, rfl, word_setSlotWord hw s.nonce v⟩

end Sys2Proof.Machine
end

section
/-! PROOFS. The host port of a busy machine (spec/20_memory.md R70, R71), the offset bits that the port ignores (R65),
and reads without a side effect (R67). -/

namespace Sys2Proof.Machine

/-! ### Reads and writes while the engine is busy (R70, R71) -/

section
variable {s : State} (hb : s.busy = true)
include hb

theorem unlessBusy_busy (v : Word) : unlessBusy s v = 0 := if_pos hb

theorem ifIdle_busy (g : State → State) : ifIdle s g = { s with wrDrop := true } := if_pos hb

theorem ifStorage_busy {w : Nat} (hw : w < fieldWords s.field) (g : State → State) :
    ifStorage s w g = { s with wrDrop := true } := by
  rw [ifStorage, if_pos hw, ifIdle_busy hb]

theorem readLoc_busy_slot {l : Loc} {w : Nat} (hl : l.slotWord? = some w) : readLoc s l = 0 := by
  cases l with
  | sreg | mkey | nonce | tag | bank => exact unlessBusy_busy hb _
  | id | param0 | param1 | ctrl | status | cmd | rounds | rclen | klen | reserved => cases hl

theorem writeLoc_busy_slot {l : Loc} {w : Nat} (hl : l.slotWord? = some w) (hro : l.readOnly = false)
    (hw : w < fieldWords s.field) (v : Word) : writeLoc s v l = { s with wrDrop := true } := by
  cases l with
  | sreg | mkey | nonce => cases hl; exact ifStorage_busy hb hw _
  | bank b =>
    cases hl
    cases b with
    | rcL | rcS | din => exact ifStorage_busy hb hw _
    | dout | ek => cases hro
  | tag => cases hro
  | id | param0 | param1 | ctrl | status | cmd | rounds | rclen | klen | reserved => cases hl

/-- Words 6 to 10 of the port space are ROUNDS_x, RCLEN_x and KLEN (R27 to R31). -/
theorem writeLoc_busy_configuration {l : Loc} {n : Nat} (hl : l.IsWord n) (h6 : 6 ≤ n) (h10 : n ≤ 10) (v : Word) :
    writeLoc s v l = { s with wrDrop := true } := by
  cases l with
  | rounds | rclen | klen => rw [writeLoc, ifIdle_busy hb]
  | id | param0 | param1 | ctrl | status | cmd | sreg | mkey | nonce | tag | reserved =>
    simp only [Loc.IsWord] at hl
    omega
  | bank b =>
    cases b
    all_goals
      simp only [Loc.IsWord, slotAddr, Bank.base] at hl
      omega

end

/-- Settles O35: the offset names a word of a slot, and a busy machine shows none of them. -/
theorem busySlotReadsAreZero : Obligations.BusySlotReadsAreZero := by
  intro s off hb h
  exact readLoc_busy_slot hb ((isWord_locate off).slotWord? (by omega))

/-- Settles O36: configuration registers and storage words of writable slots drop the write; words above the storage
words and read-only locations never take one. -/
theorem busyWritesAreDropped : Obligations.BusyWritesAreDropped := by
  intro s off v hb
  have hl := isWord_locate off
  refine ⟨fun h => ?_, fun h => ?_, fun h => ?_⟩
  · exact writeLoc_busy_configuration hb hl (by omega) (by omega) v
  · have hword := hl.slotWord? (by omega)
    have hro : (locate off).readOnly = false := by
      rw [← Bool.not_eq_true, hl.readOnly_iff]
      omega
    exact ⟨fun hw => writeLoc_busy_slot hb hword hro hw v, fun hw => writeLoc_beyond_storage hword hw v⟩
  · exact writeLoc_readOnly (hl.readOnly_iff.2 (by omega)) s v

/-! ### Offsets in one word (R65) -/

theorem locate_congr {off off' : Offset} (h : off.toNat / 4 = off'.toNat / 4) : locate off = locate off' :=
  locate_eq_iff.2 (h ▸ isWord_locate off')

/-- Settles O38: both offsets name one location. -/
theorem offsetLowBitsAreIgnored : Obligations.OffsetLowBitsAreIgnored := by
  intro s off off' v h
  simp only [hostRead, hostWrite, locate_congr h, and_self]

/-! ### Reads leave no trace (R67) -/

/-- No location shows the read data or the moves to come. -/
theorem readLoc_withRdata_schedule (s : State) (v : Word) (ms : List Move) (l : Loc) :
    readLoc { s with hRdata := v, schedule := ms } l = readLoc s l := by
  cases l with
  | rounds x | rclen x => cases x <;> rfl
  | id | param0 | param1 | ctrl | status | cmd | klen | sreg | mkey | nonce | tag | bank | reserved => rfl

theorem step_of_specified {s : State} {m : Move} {ms : List Move} (hspec : s.specified = true)
    (h : s.schedule = m :: ms) : step s = move m { s with schedule := ms } := by
  rw [step, h]
  exact if_pos hspec

theorem transfer_completes {s : State} (h : s.rstN = true) (g : State → State) : transfer g s = g s := if_pos h

/-- Settles O42: the read's transfer stores the read data alone, and no location shows it. -/
theorem hostReadsHaveNoSideEffect : Obligations.HostReadsHaveNoSideEffect := by
  refine ⟨fun s off ms hspec hrst hsched => ?_, fun s off v ms => readLoc_withRdata_schedule s v ms (locate off)⟩
  have hread : hostRead { s with schedule := ms } off = hostRead s off :=
    readLoc_withRdata_schedule s s.hRdata ms (locate off)
  rw [step_of_specified hspec hsched, move, transfer_completes (s := { s with schedule := ms }) hrst, hread]

end Sys2Proof.Machine
end

section
/-! PROOFS. The memory's canonical form (spec/10_state.md section 6; spec/20_memory.md R61): every step either leaves
the banks with no byte written, as a reset does, or stores bytes into them, and both keep the form. -/

namespace Sys2Proof.Machine

/-- What an operation can make of the banks' memory: nothing written any more (R262), or some bytes stored. -/
inductive MemEffect (m : Memory) : Memory → Prop where
  | erased : MemEffect m []
  | stored (cells : List Host.Cell) : MemEffect m (Memory.putAll cells m)

theorem MemEffect.same {m : Memory} : MemEffect m m := .stored []

theorem MemEffect.wf {m m' : Memory} (h : MemEffect m m') (hm : Memory.wf m = true) : Memory.wf m' = true := by
  cases h with
  | erased => rfl
  | stored cells => exact Memory.wf_putAll hm cells

/-! ### Commands -/

theorem memEffect_roundFault (i : Instr) (s : State) : MemEffect s.mem (roundFault i s).mem := by
  cases i with
  | schedule | encrypt | decrypt => exact .stored _
  | nop | commitL | commitS | permL | permS | roll | keystate | zeroize => exact .same

theorem memEffect_permCommand (x : Sel) (i : Instr) (s : State) : MemEffect s.mem (permCommand x i s).mem := by
  unfold permCommand
  split
  · split
    · exact .same
    · next u _ => exact memEffect_roundFault i { s with rfu := u }
  · exact .same

theorem memEffect_scheduleCommand (n : Nat) (s : State) : MemEffect s.mem (scheduleCommand n s).mem := by
  unfold scheduleCommand
  split
  · split
    · exact .stored _
    · next u _ => exact memEffect_roundFault (.schedule n) { s with rfu := u }
  · exact .same

theorem memEffect_transformCommand (dir : Direction) (m : Nat) (i : Instr) (s : State) :
    MemEffect s.mem (transformCommand dir m i s).mem := by
  unfold transformCommand
  split
  · split
    · exact .stored _
    · next u _ => exact memEffect_roundFault i { s with rfu := u }
  · exact .same

theorem memEffect_zeroBanks (s : State) : MemEffect s.mem (zeroBanks s).mem := by
  simp only [zeroBanks, writeBank_mem, Memory.putAll, ← List.foldr_append]
  exact .stored _

theorem memEffect_exec {i : Instr} {s t : State} (e : exec i s = .next t) : MemEffect s.mem t.mem := by
  cases i with
  | nop => cases e; exact .same
  | commitL | commitS => cases e; rw [commitCommand, complete_mem, setValid_mem]; exact .same
  | permL | permS => cases e; exact memEffect_permCommand _ _ s
  | roll | keystate => cases e; split <;> exact .same
  | schedule n => cases e; exact memEffect_scheduleCommand n s
  | encrypt m | decrypt m => cases e; exact memEffect_transformCommand _ m _ s
  | zeroize => cases e; exact memEffect_zeroBanks s

/-! ### The round-function port -/

@[simp] theorem startBlock_mem (m b : Nat) (s : State) : (startBlock m b s).mem = s.mem := by
  unfold startBlock
  split <;> rfl

theorem memEffect_transformPermDone (dir : Direction) (m : Nat) (s : State) :
    MemEffect s.mem (transformPermDone dir m s).mem := by
  unfold transformPermDone
  cases s.phase with
  | idle | perm => exact .same
  | boot | block => simp only [finishBlock, startBlock_mem]; exact .same
  | tagging => exact .stored _

theorem memEffect_permDone (i : Instr) (s : State) : MemEffect s.mem (permDone i s).mem := by
  cases i with
  | schedule => exact .stored _
  | encrypt m | decrypt m => exact memEffect_transformPermDone _ m s
  | nop | commitL | commitS | permL | permS | roll | keystate | zeroize => exact .same

theorem memEffect_roundDone (i : Instr) (q : Quad Elem) (s : State) : MemEffect s.mem (roundDone i q s).mem := by
  unfold roundDone
  split
  · exact .same
  · exact memEffect_permDone i { s with t := q }

@[simp] theorem rfuTake_mem (s : State) : (rfuTake s).mem = s.mem := by
  unfold rfuTake
  split <;> rfl

theorem memEffect_rfuRespond (s : State) : MemEffect s.mem (rfuRespond s).mem := by
  unfold rfuRespond
  split
  · exact .same
  split
  · split
    · exact .same
    · next i _ =>
      dsimp only
      split
      · exact memEffect_roundDone i _ { s with rfu := rfuDrop s.rfu, rfOut := false }
      · exact memEffect_roundFault i { s with rfu := rfuDrop s.rfu, rfOut := false }
  · exact .same

theorem memEffect_portEdge (s : State) : MemEffect s.mem (portEdge s).mem := by
  unfold portEdge
  split
  · rw [rfuTake_mem]; exact .same
  · exact memEffect_rfuRespond s

/-! ### The engine's turns -/

theorem memEffect_turn {g : Instr → State → Host.Outcome State Fault Refusal} {s t : State}
    (hg : ∀ i t, g i s = .next t → MemEffect s.mem t.mem) (e : turn g s = .next t) : MemEffect s.mem t.mem := by
  obtain ⟨-, rfl⟩ | ⟨-, -, rfl⟩ | ⟨-, -, rfl⟩ | ⟨i, -, -, h⟩ := turn_cases e
  · exact .same
  · exact .same
  · exact memEffect_portEdge s
  · exact hg i t h

theorem openCommand_mem {i : Instr} {s t : State} (e : openCommand i s = some t) : t.mem = s.mem := by
  unfold openCommand at e
  split at e
  · cases i <;> cases e <;> rfl
  · cases e

theorem memEffect_beginCommand {i : Instr} {s t : State} (e : beginCommand i s = .next t) :
    MemEffect s.mem t.mem := by
  unfold beginCommand at e
  split at e
  · next h => cases e; rw [openCommand_mem h]; exact .same
  · exact memEffect_exec e

theorem memEffect_runCommand {i : Instr} {s t : State} (e : runCommand i s = .next t) : MemEffect s.mem t.mem := by
  unfold runCommand at e
  split at e
  · exact memEffect_beginCommand e
  · exact memEffect_exec e

/-! ### The host port -/

theorem memEffect_ifIdle {s : State} {g : State → State} (hg : MemEffect s.mem (g s).mem) :
    MemEffect s.mem (ifIdle s g).mem := by
  unfold ifIdle
  split
  · exact .same
  · exact hg

theorem memEffect_ifStorage {s : State} (w : Nat) {g : State → State} (hg : MemEffect s.mem (g s).mem) :
    MemEffect s.mem (ifStorage s w g).mem := by
  unfold ifStorage
  split
  · exact memEffect_ifIdle hg
  · exact .same

theorem memEffect_writeBankWord (b : Bank) (j w : Nat) (v : Word) (s : State) :
    MemEffect s.mem (writeBankWord b j w v s).mem := by
  cases b with
  | rcL | rcS | din => exact memEffect_ifStorage w (.stored _)
  | dout | ek => exact .same

theorem memEffect_writeLoc (s : State) (v : Word) (l : Loc) : MemEffect s.mem (writeLoc s v l).mem := by
  cases l with
  | id | param0 | param1 | tag | reserved | status => exact .same
  | ctrl =>
    unfold writeLoc
    dsimp only
    split
    · exact .erased
    · exact .same
  | cmd => unfold writeLoc; dsimp only; split <;> exact .same
  | rounds x | rclen x => cases x <;> exact memEffect_ifIdle .same
  | klen => exact memEffect_ifIdle .same
  | sreg i w | mkey i w | nonce w => exact memEffect_ifStorage w .same
  | bank b j w => exact memEffect_writeBankWord b j w v s

/-! ### Every move -/

theorem memEffect_transfer {g : State → State} {s : State} (hg : MemEffect s.mem (g s).mem) :
    MemEffect s.mem (transfer g s).mem := by
  unfold transfer
  split
  · exact hg
  · exact .same

theorem memEffect_move {m : Move} {s t : State} (e : move m s = .next t) : MemEffect s.mem t.mem := by
  cases m with
  | write off v => cases e; exact memEffect_transfer (memEffect_writeLoc s v _)
  | read off => cases e; exact memEffect_transfer .same
  | engine => exact memEffect_turn (fun _ _ => memEffect_runCommand) e
  | start => exact memEffect_turn (fun _ _ => memEffect_beginCommand) e
  | rfuTake => cases e; rw [rfuTake_mem]; exact .same
  | rfuRespond => cases e; exact memEffect_rfuRespond s
  | assertReset => cases e; exact .erased
  | rfuFallSilent | deassertReset | powerCycle => cases e; exact .same

theorem memEffect_agentMove {m : Move} {s t : State} (e : agentMove m s = .next t) : MemEffect s.mem t.mem := by
  unfold agentMove at e
  split at e
  · exact memEffect_move e
  · cases m with
    | assertReset => exact memEffect_move (m := .assertReset) e
    | powerCycle => cases e; exact .same
    | write | read | engine | start | rfuTake | rfuRespond | rfuFallSilent | deassertReset => cases e

theorem memEffect_step {s t : State} (e : step s = .next t) : MemEffect s.mem t.mem := by
  unfold step at e
  split at e
  · exact memEffect_agentMove e
  · next m ms _ => exact memEffect_agentMove (s := { s with schedule := ms }) e

/-- Settles O49: whichever effect a step has on the banks' memory, it keeps the form. -/
theorem stepKeepsTheMemoryForm : Obligations.StepKeepsTheMemoryForm := by
  intro s t hm e
  exact (memEffect_step e).wf hm

end Sys2Proof.Machine
end

section
/-! PROOFS. The command word (spec/30_encoding.md R90 to R101): a word decodes to a command exactly when its fields are
that command's, so that a word and the command it decodes to determine each other. -/

namespace Sys2Proof

theorem withoutLength_eq_command_iff {len : Nat} {i j : Instr} :
    withoutLength len i = .command j ↔ len = 0 ∧ i = j := by
  unfold withoutLength
  split
  · next h => simp [h]
  · next h => simp [h]

/-- The opcode map (R93, R101): OP is the command's opcode, RSV is 0 and LEN is its length operand. -/
theorem decode_eq_command_iff_fields {w : Word} {i : Instr} :
    decode w = .command i ↔
      rsvField w = 0 ∧ (opField w).toNat = (opcode i).toNat ∧ (lenField w).toNat = i.len := by
  refine ⟨fun h => ?_, fun ⟨hrsv, hop, hlen⟩ => ?_⟩
  · unfold decode at h
    dsimp only at h
    split at h
    · next hrsv =>
      refine ⟨hrsv, ?_⟩
      split at h
      case h_8 hop | h_9 hop | h_10 hop => cases h; exact ⟨hop, rfl⟩
      case h_12 => cases h
      all_goals
        next hop =>
          obtain ⟨hlen, rfl⟩ := withoutLength_eq_command_iff.1 h
          exact ⟨hop, hlen⟩
    · cases h
  · unfold decode
    rw [if_pos hrsv, hop, hlen]
    cases i <;> rfl

/-- A word decodes to a command when it is that command's word, read as an integer (R90). -/
theorem decode_eq_command_iff {w : Word} {i : Instr} :
    decode w = .command i ↔ w.toNat = i.len * 65536 + (opcode i).toNat := by
  obtain ⟨hlen, hrsv, hop⟩ := fields_toNat w
  have := (opcode i).isLt
  rw [decode_eq_command_iff_fields, ← BitVec.toNat_inj, hlen, hrsv, hop, BitVec.ofNat_eq_ofNat, BitVec.toNat_zero]
  omega

theorem decode_injective {w w' : Word} {i : Instr} (h : decode w = .command i) (h' : decode w' = .command i) :
    w = w' :=
  BitVec.eq_of_toNat_eq ((decode_eq_command_iff.1 h).trans (decode_eq_command_iff.1 h').symm)

/-! ### Encoded commands -/

theorem decode_encode {i : Instr} (h : i.wf = true) : decode (encode i) = .command i := by
  have hlen : i.len < 65536 := of_decide_eq_true h
  rw [decode_eq_command_iff, encode_toNat, Nat.mod_eq_of_lt hlen]

/-- One command word is taken off a byte string (R63, R91). -/
theorem decodeBytes_bytesOfWord (w : Word) (rest : List Byte) :
    decodeBytes (bytesOfWord w ++ rest) = (decode w, rest) :=
  congrArg (fun v => (decode v, rest)) (wordOfBytes_extract w)

/-- Settles O1: the encoded word is the command's word as an integer, and its bytes put it together again. -/
theorem decodeOfEncodeIsTheCommand : Obligations.DecodeOfEncodeIsTheCommand := by
  intro i h
  refine ⟨decode_encode h, fun rest => ?_⟩
  rw [decodeBytes_bytesOfWord, decode_encode h]

/-! ### Illegal words -/

theorem opcode_le (i : Instr) : (opcode i).toNat ≤ 0x0A := by cases i <;> simp [opcode]

/-- Only opcodes 0x07 to 0x09 take a length (R92, R93). -/
theorem len_eq_zero_of_opcode {i : Instr} (h : (opcode i).toNat < 0x07 ∨ (opcode i).toNat = 0x0A) : i.len = 0 := by
  cases i with
  | schedule | encrypt | decrypt => exact absurd h (by simp [opcode])
  | nop | commitL | commitS | permL | permS | roll | keystate | zeroize => rfl

/-- A reserved opcode, RSV nonzero, or LEN nonzero with an opcode that takes no length (R97 to R99). -/
theorem exists_decode_eq_illegal {w : Word}
    (h : 0x0A < w.toNat % 256 ∨ w.toNat / 256 % 256 ≠ 0 ∨
      ((w.toNat % 256 < 0x07 ∨ w.toNat % 256 = 0x0A) ∧ w.toNat / 65536 ≠ 0)) :
    ∃ y, decode w = .illegal y := by
  cases hd : decode w with
  | illegal y => exact ⟨y, rfl⟩
  | command i =>
    have hw := decode_eq_command_iff.1 hd
    have hop := opcode_le i
    have hlen := len_eq_zero_of_opcode (i := i)
    omega

/-- Settles O2: each clause is about the fields that a command's word, or no command's word, has. -/
theorem decodeFollowsTheOpcodeMap : Obligations.DecodeFollowsTheOpcodeMap := by
  refine ⟨fun w => ?_, fun w w' i => decode_injective⟩
  have hcommand (i : Instr) (hrsv : w.toNat / 256 % 256 = 0) (hlen : w.toNat / 65536 = i.len)
      (hop : w.toNat % 256 = (opcode i).toNat) : decode w = .command i := by
    rw [decode_eq_command_iff]
    omega
  refine ⟨fun hrsv => exists_decode_eq_illegal (.inr (.inl hrsv)), fun _ hop => exists_decode_eq_illegal (.inl hop),
    fun hrsv => hcommand (.schedule _) hrsv rfl, fun hrsv => hcommand (.encrypt _) hrsv rfl,
    fun hrsv => hcommand (.decrypt _) hrsv rfl,
    fun _ hop hlen => exists_decode_eq_illegal (.inr (.inr ⟨hop, hlen⟩)), fun hrsv hlen => ?_⟩
  exact ⟨hcommand .nop hrsv hlen, hcommand .commitL hrsv hlen, hcommand .commitS hrsv hlen,
    hcommand .permL hrsv hlen, hcommand .permS hrsv hlen, hcommand .roll hrsv hlen, hcommand .keystate hrsv hlen,
    hcommand .zeroize hrsv hlen⟩

/-- Settles O3, by evaluating the decoder and the encoder on these words. -/
theorem exampleWordsDecodeAndEncode : Obligations.ExampleWordsDecodeAndEncode := by
  unfold Obligations.ExampleWordsDecodeAndEncode
  decide

end Sys2Proof
end

section
/-! PROOFS. An illegal word from its acceptance to its completion (spec/30_encoding.md R97 to R99; spec/60_exceptions.md
R241, R242). -/

namespace Sys2Proof.Machine

/-- A write to CMD is accepted by an idle engine (R241). -/
theorem hostWrite_cmd_idle {off : Offset} (h : off.toNat / 4 = 5) {s : State} (hb : s.busy = false) (w : Word) :
    hostWrite off w s = accept w s := by
  rw [hostWrite, locate_eq_iff.2 (show Loc.IsWord .cmd _ from h), writeLoc, hb]
  exact if_neg Bool.false_ne_true

/-- With no move of another agent left the engine moves (R244). -/
theorem step_engine {s : State} (hspec : s.specified = true) (h : s.schedule = []) : step s = engineTurn s := by
  rw [step, h]
  exact if_pos hspec

/-- From rest an illegal word's completion writes the completion fields alone (R226, R230). -/
theorem engineTurn_illegal {s : State} {w : Word} {y : IllegalWord} (hrest : AtRest s) (hw : s.pending = some w)
    (hd : decode w = .illegal y) : engineTurn s = .next (completionFields 4 s) := by
  simp only [engineTurn, turn, hw, hrest.phase, hd, complete_atRest hrest]
  rfl

/-- Settles O6: the write accepts the word, and the engine's turn then completes it. -/
theorem illegalWordCompletesWithIllegalCommand : Obligations.IllegalWordCompletesWithIllegalCommand := by
  intro s w hspec hrst hb hp hrest hw
  obtain ⟨y, hd⟩ := exists_decode_eq_illegal hw
  refine ⟨?_, ?_⟩
  · rw [step_of_specified (s := { s with schedule := [.write 0x14 w] }) hspec rfl, move,
      transfer_completes (s := { s with schedule := [] }) hrst,
      hostWrite_cmd_idle (s := { s with schedule := [] }) (by decide) hb, accept]
  · have hturn := engineTurn_illegal (s := { accept w s with schedule := [] }) (hrest.congr rfl) rfl hd
    refine (step_engine (s := { accept w s with schedule := [] }) hspec rfl).trans (hturn.trans ?_)
    simp [completionFields, accept, hb, hp]

end Sys2Proof.Machine
end

section
/-! PROOFS. What no command writes (spec/30_encoding.md R94; spec/40_permutation.md R123): a command's results go to S,
TAG, DOUT and EK, and the banks' bytes below DOUT are the tables and the input. -/

namespace Sys2Proof.Machine

/-- The field, the round counts, the table lengths, the agents' moves and the bank bytes below address `lim` are the
same in both states. -/
structure KeepsTables (lim : Nat) (s t : State) : Prop where
  field : t.field = s.field
  roundsL : t.roundsL = s.roundsL
  roundsS : t.roundsS = s.roundsS
  rclenL : t.rclenL = s.rclenL
  rclenS : t.rclenS = s.rclenS
  hRdata : t.hRdata = s.hRdata
  rstN : t.rstN = s.rstN
  past : t.past = s.past
  schedule : t.schedule = s.schedule
  bytes : ∀ a < lim, bankByte t a = bankByte s a

/-- Beside the tables, the inputs of the commands are the same: KLEN, MK, NONCE, and DIN, the bank below DOUT. -/
structure KeepsInputs (s t : State) : Prop extends KeepsTables 0x20000 s t where
  klen : t.klen = s.klen
  mkey : t.mkey = s.mkey
  nonce : t.nonce = s.nonce

theorem KeepsTables.mono {lim lim' : Nat} {s t : State} (h : KeepsTables lim s t) (hl : lim' ≤ lim) :
    KeepsTables lim' s t :=
  { h with bytes := fun a ha => h.bytes a (ha.trans_le hl) }

theorem KeepsTables.trans {lim : Nat} {s t u : State} (h : KeepsTables lim s t) (h' : KeepsTables lim t u) :
    KeepsTables lim s u where
  field := h'.field.trans h.field
  roundsL := h'.roundsL.trans h.roundsL
  roundsS := h'.roundsS.trans h.roundsS
  rclenL := h'.rclenL.trans h.rclenL
  rclenS := h'.rclenS.trans h.rclenS
  hRdata := h'.hRdata.trans h.hRdata
  rstN := h'.rstN.trans h.rstN
  past := h'.past.trans h.past
  schedule := h'.schedule.trans h.schedule
  bytes a ha := (h'.bytes a ha).trans (h.bytes a ha)

theorem KeepsInputs.trans {s t u : State} (h : KeepsInputs s t) (h' : KeepsInputs t u) : KeepsInputs s u where
  toKeepsTables := h.toKeepsTables.trans h'.toKeepsTables
  klen := h'.klen.trans h.klen
  mkey := h'.mkey.trans h.mkey
  nonce := h'.nonce.trans h.nonce

/-! ### Updates -/

/-- An update of other fields than these and of no bank. -/
theorem keepsInputs_of_outside {s t : State}
    (h : t = { s with
      irqEn := t.irqEn, busy := t.busy, done := t.done, err := t.err, wrDrop := t.wrDrop, cmdDrop := t.cmdDrop
      validL := t.validL, validS := t.validS, errCode := t.errCode, cmd := t.cmd, sreg := t.sreg, tag := t.tag
      pending := t.pending, rr := t.rr, acc := t.acc, t := t.t, round := t.round, blk := t.blk, sel := t.sel
      rfOut := t.rfOut, phase := t.phase, outs := t.outs, specified := t.specified, rfu := t.rfu }) :
    KeepsInputs s t := by
  rw [h]
  exact ⟨⟨rfl, rfl, rfl, rfl, rfl, rfl, rfl, rfl, rfl, fun _ _ => rfl⟩, rfl, rfl, rfl⟩

theorem keepsInputs_complete (c : ResultCode) (s : State) : KeepsInputs s (complete c s) := keepsInputs_of_outside rfl

theorem keepsInputs_setValid (x : Sel) (b : Bool) (s : State) : KeepsInputs s (setValid x b s) := by
  cases x <;> exact keepsInputs_of_outside rfl

/-- The engine's write of a bank leaves the bytes below the bank alone (R80). -/
theorem keepsTables_writeBank (b : Bank) (vs : List Elem) (s : State) : KeepsTables b.base s (writeBank b vs s) where
  field := rfl
  roundsL := rfl
  roundsS := rfl
  rclenL := rfl
  rclenS := rfl
  hRdata := rfl
  rstN := rfl
  past := rfl
  schedule := rfl
  bytes a ha := bankByte_writeBank_out fun i _ k _ => by simp only [slotAddr]; omega

/-- DOUT and EK lie above DIN and the tables (R61). -/
theorem keepsInputs_writeBank {b : Bank} (hb : b = .dout ∨ b = .ek) (vs : List Elem) (s : State) :
    KeepsInputs s (writeBank b vs s) where
  toKeepsTables := (keepsTables_writeBank b vs s).mono (by rcases hb with rfl | rfl <;> decide)
  klen := rfl
  mkey := rfl
  nonce := rfl

theorem keepsInputs_zeroDestinations (i : Instr) (s : State) : KeepsInputs s (zeroDestinations i s) := by
  cases i with
  | permL | permS => exact keepsInputs_of_outside rfl
  | schedule n => exact keepsInputs_writeBank (.inr rfl) _ s
  | encrypt m | decrypt m => exact (keepsInputs_writeBank (.inl rfl) _ s).trans (keepsInputs_of_outside rfl)
  | nop | commitL | commitS | roll | keystate | zeroize => exact keepsInputs_of_outside rfl

/-- A RoundFault, the unit's answers taken (R231). -/
theorem keepsInputs_roundFault (i : Instr) (s : State) (u : Rfu) : KeepsInputs s (roundFault i { s with rfu := u }) :=
  (keepsInputs_of_outside (t := { s with rfu := u }) rfl).trans
    ((keepsInputs_zeroDestinations i _).trans (keepsInputs_complete _ _))

/-! ### Commands -/

theorem keepsInputs_permCommand (x : Sel) (i : Instr) (s : State) : KeepsInputs s (permCommand x i s) := by
  unfold permCommand
  split
  · split
    · exact keepsInputs_of_outside rfl
    · exact keepsInputs_roundFault i s _
  · exact keepsInputs_complete _ s

theorem keepsInputs_scheduleCommand (n : Nat) (s : State) : KeepsInputs s (scheduleCommand n s) := by
  unfold scheduleCommand
  split
  · split
    · exact (keepsInputs_writeBank (.inr rfl) _ s).trans (keepsInputs_of_outside rfl)
    · exact keepsInputs_roundFault _ s _
  · exact keepsInputs_complete _ s

theorem keepsInputs_transformCommand (dir : Direction) (m : Nat) (i : Instr) (s : State) :
    KeepsInputs s (transformCommand dir m i s) := by
  unfold transformCommand
  split
  · split
    · exact (keepsInputs_writeBank (.inl rfl) _ s).trans (keepsInputs_of_outside rfl)
    · exact keepsInputs_roundFault i s _
  · exact keepsInputs_complete _ s

theorem keepsInputs_exec {i : Instr} {s t : State} (hi : i ≠ .zeroize) (e : exec i s = .next t) : KeepsInputs s t := by
  cases i with
  | nop => cases e; exact keepsInputs_complete _ s
  | commitL | commitS => cases e; exact (keepsInputs_setValid _ _ s).trans (keepsInputs_complete _ _)
  | permL | permS => cases e; exact keepsInputs_permCommand _ _ s
  | roll | keystate =>
    cases e
    split
    · exact keepsInputs_of_outside rfl
    · exact keepsInputs_complete _ s
  | schedule n => cases e; exact keepsInputs_scheduleCommand n s
  | encrypt m | decrypt m => cases e; exact keepsInputs_transformCommand _ m _ s
  | zeroize => exact absurd rfl hi

/-- ZEROIZE writes no byte below DIN (R211). -/
theorem keepsTables_zeroBanks (s : State) : KeepsTables 0x18000 s (zeroBanks s) := by
  have hzero (b : Bank) (hb : 0x18000 ≤ b.base) (s : State) :
      KeepsTables 0x18000 s (writeBank b (List.replicate Config.maxBlocks 0) s) :=
    (keepsTables_writeBank b _ s).mono hb
  exact (hzero .ek (by decide) s).trans ((hzero .dout (by decide) _).trans (hzero .din (by decide) _))

/-- The registers that ZEROIZE clears are no part of the tables (R211). -/
theorem keepsTables_zeroRegisters (lim : Nat) (s : State) :
    KeepsTables lim s
      (complete .ok { s with sreg := fillQuad 0, mkey := fillQuad 0, nonce := 0, tag := 0, klen := 0 }) :=
  ⟨rfl, rfl, rfl, rfl, rfl, rfl, rfl, rfl, rfl, fun _ _ => rfl⟩

theorem keepsTables_exec {i : Instr} {s t : State} (e : exec i s = .next t) : KeepsTables 0x18000 s t := by
  by_cases hi : i = .zeroize
  · subst hi
    cases e
    exact (keepsTables_zeroBanks s).trans (keepsTables_zeroRegisters _ _)
  · exact (keepsInputs_exec hi e).mono (by decide)

/-- Settles O8: ZEROIZE keeps the tables, every other command the inputs too. The field need not be legal. -/
theorem commandsKeepTablesAndInputs : Obligations.CommandsKeepTablesAndInputs := by
  intro i s t _ e
  have h := keepsTables_exec e
  refine ⟨h.field, h.roundsL, h.roundsS, h.rclenL, h.rclenS, h.hRdata, h.rstN, h.past, h.schedule, h.bytes,
    fun hi => ?_⟩
  have hin := keepsInputs_exec hi e
  exact ⟨hin.klen, hin.mkey, hin.nonce, hin.bytes⟩

end Sys2Proof.Machine
end

section
/-! PROOFS. COMMIT_x (spec/40_permutation.md R120 to R122): the three outcomes, for either instance. -/

namespace Sys2Proof.Machine

/-- COMMIT_L or COMMIT_S (R121, R122). -/
def commitInstr : Sel → Instr
  | .large => .commitL
  | .small => .commitS

/-- The declared size of the table of instance `x` is legal (R121). -/
def TableDeclared (s : State) (x : Sel) : Prop :=
  1 ≤ s.rounds x ∧ s.rounds x ≤ 256 ∧ s.rclen x = 4 * s.rounds x

/-- The declared entries of the table of instance `x` are elements (R121). -/
def TableCanonical (s : State) (x : Sel) : Prop := ∀ j < s.rclen x, slotNat s (rcBank x) j < fieldCard s.field

theorem badConfig_eq_false_iff {s : State} {x : Sel} : badConfig s x = false ↔ TableDeclared s x := by
  simp only [badConfig, TableDeclared, Bool.or_eq_false_iff, decide_eq_false_iff_not]
  simp only [Config.maxRounds]
  omega

/-- No operand but an element passes the last check (R224). -/
theorem any_not_canonical_bankList {s : State} {b : Bank} {n : Nat} :
    ((bankList s b n).any fun v => !canonical s.field v) = false ↔ ∀ j < n, slotNat s b j < fieldCard s.field := by
  simp [mem_bankList, canonical_iff]

/-- Of the checks of R228, COMMIT_x has that of its configuration and that of its table. -/
theorem check_commitInstr (x : Sel) (s : State) :
    check (commitInstr x) s =
      if badConfig s x then .configError
      else if (bankList s (rcBank x) (s.rclen x)).any fun v => !canonical s.field v then .fieldMismatch
      else .ok := by
  cases x <;> rfl

theorem exec_commitInstr {s : State} (hrest : AtRest s) {x : Sel} {c : ResultCode}
    (hc : check (commitInstr x) s = c) :
    exec (commitInstr x) s = .next (completionFields c.code (setValid x (decide (c = .ok)) s)) := by
  have hset : AtRest (setValid x (decide (c = .ok)) s) := by cases x <;> exact hrest.congr rfl
  rw [← complete_atRest hset, ← hc]
  cases x <;> rfl

theorem exec_commitInstr_outcomes {s : State} (hrest : AtRest s) (x : Sel) :
    (TableDeclared s x → TableCanonical s x →
      exec (commitInstr x) s = .next (completionFields 0 (setValid x true s))) ∧
    (¬ TableDeclared s x → exec (commitInstr x) s = .next (completionFields 1 (setValid x false s))) ∧
    (TableDeclared s x → ¬ TableCanonical s x →
      exec (commitInstr x) s = .next (completionFields 3 (setValid x false s))) := by
  refine ⟨fun htable hentries => ?_, fun htable => ?_, fun htable hentries => ?_⟩
  · refine exec_commitInstr hrest (c := .ok) ?_
    rw [check_commitInstr, badConfig_eq_false_iff.2 htable, any_not_canonical_bankList.2 hentries]
    rfl
  · refine exec_commitInstr hrest (c := .configError) ?_
    rw [check_commitInstr, eq_true_of_ne_false (mt badConfig_eq_false_iff.1 htable)]
    rfl
  · refine exec_commitInstr hrest (c := .fieldMismatch) ?_
    rw [check_commitInstr, badConfig_eq_false_iff.2 htable,
      eq_true_of_ne_false (mt any_not_canonical_bankList.1 hentries)]
    rfl

/-- Settles O12: the outcomes of COMMIT_x for the large instance. -/
theorem commitLConstructsOrFails : Obligations.CommitLConstructsOrFails :=
  ⟨decode_eq_command_iff.2 rfl, fun _ hrest => exec_commitInstr_outcomes hrest .large⟩

/-- Settles O13: the outcomes of COMMIT_x for the small instance. -/
theorem commitSConstructsOrFails : Obligations.CommitSConstructsOrFails :=
  ⟨decode_eq_command_iff.2 rfl, fun _ hrest => exec_commitInstr_outcomes hrest .small⟩

end Sys2Proof.Machine
end

section
/-! PROOFS. PERM_x under the contract of the round-function unit (spec/40_permutation.md R131 to R135): its outcomes,
what they depend on, and what makes the permutation a bijection. -/

namespace Sys2Proof.Machine

/-- PERM_L or PERM_S (R131, R132). -/
def permInstr : Sel → Instr
  | .large => .permL
  | .small => .permS

/-- S holds elements (R224, R229). -/
def SregCanonical (s : State) : Prop := ∀ r ∈ quadList s.sreg, r.toNat < fieldCard s.field

theorem any_not_canonical_sreg {s : State} :
    (((quadList s.sreg).map BitVec.toNat).any fun v => !canonical s.field v) = false ↔ SregCanonical s := by
  simp [SregCanonical, canonical_iff]

/-- Of the checks of R228, PERM_x has that of its instance and that of S. -/
theorem check_permInstr (x : Sel) (s : State) :
    check (permInstr x) s =
      if !s.valid x then .configError
      else if ((quadList s.sreg).map BitVec.toNat).any fun v => !canonical s.field v then .fieldMismatch
      else .ok := by
  cases x <;>
    simp [check, permInstr, Instr.len, Config.maxBlocks, readsKey, commitsTo, needsValid, elementOperands]

theorem exec_permInstr (x : Sel) (s : State) : exec (permInstr x) s = .next (permCommand x (permInstr x) s) := by
  cases x <;> rfl

theorem check_permInstr_eq_ok {x : Sel} {s : State} (hv : s.valid x = true) (hs : SregCanonical s) :
    check (permInstr x) s = .ok := by
  rw [check_permInstr, hv, any_not_canonical_sreg.2 hs]
  rfl

theorem check_permInstr_eq_configError {x : Sel} {s : State} (hv : s.valid x = false) :
    check (permInstr x) s = .configError := by
  rw [check_permInstr, hv]
  rfl

theorem check_permInstr_eq_fieldMismatch {x : Sel} {s : State} (hv : s.valid x = true) (hs : ¬ SregCanonical s) :
    check (permInstr x) s = .fieldMismatch := by
  rw [check_permInstr, hv, eq_true_of_ne_false (mt any_not_canonical_sreg.1 hs)]
  rfl

/-- No check gives the code of a RoundFault (R222 to R225, R227). -/
theorem check_code_ne_six (i : Instr) (s : State) : (check i s).code ≠ 6 := by
  unfold check
  split_ifs <;> decide

theorem permCommand_of_check_ne_ok {x : Sel} {i : Instr} {s : State} (hc : check i s ≠ .ok) :
    permCommand x i s = complete (check i s) s := if_neg hc

/-- Past its checks and under the contract PERM_x writes `P_x(S)` (R124, R131). -/
theorem permCommand_honest {x : Sel} {i : Instr} {s : State} (hc : check i s = .ok)
    (hf : Config.fieldWf s.field = true) (hu : Honest s.rfu) :
    permCommand x i s =
      complete .ok
        { s with
          sreg := rawQuad (permutation s x (stateVector s))
          rfu := afterRequests s.rfu (permRequests s x (stateVector s)) } := by
  rw [permCommand, if_pos hc, perm_honest hf x _ hu]

/-- Only a RoundFault gives code 6, and it zeroes S (R231). -/
theorem sreg_permCommand_of_roundFault {x : Sel} {s t : State} (e : permCommand x (permInstr x) s = t)
    (h6 : t.errCode = 6) : t.sreg = fillQuad 0 := by
  unfold permCommand at e
  split at e
  · split at e
    · subst e; cases h6
    · subst e; cases x <;> rfl
  · subst e
    exact absurd ((complete_errCode _ s).symm.trans h6) (check_code_ne_six _ s)

theorem exec_permInstr_outcomes {s : State} (hrest : AtRest s) (hf : Config.fieldWf s.field = true) (x : Sel) :
    (s.valid x = true → SregCanonical s → Honest s.rfu →
      quadCanonical s.field (permutation s x (stateVector s)) = true ∧
      exec (permInstr x) s = .next (completionFields 0
        { s with
          sreg := rawQuad (permutation s x (stateVector s))
          rfu := afterRequests s.rfu (permRequests s x (stateVector s)) })) ∧
    (s.valid x = false → exec (permInstr x) s = .next (completionFields 1 s)) ∧
    (s.valid x = true → ¬ SregCanonical s → exec (permInstr x) s = .next (completionFields 3 s)) ∧
    ∀ t, exec (permInstr x) s = .next t → t.errCode = 6 → t.sreg = fillQuad 0 := by
  have hfail {c : ResultCode} (hc : check (permInstr x) s = c) (hne : c ≠ .ok) :
      exec (permInstr x) s = .next (completionFields c.code s) := by
    subst hc
    rw [exec_permInstr, permCommand_of_check_ne_ok hne, complete_atRest hrest]
  refine ⟨fun hv hs hu => ?_, fun hv => ?_, fun hv hs => ?_, fun t e h6 => ?_⟩
  · have hc := check_permInstr_eq_ok hv hs
    refine ⟨permutation_canonical hf x (stateVector_canonical hc (by cases x <;> rfl)), ?_⟩
    rw [exec_permInstr, permCommand_honest hc hf hu]
    exact congrArg _ (complete_atRest (hrest.congr rfl) .ok)
  · exact hfail (check_permInstr_eq_configError hv) (by simp)
  · exact hfail (check_permInstr_eq_fieldMismatch hv hs) (by simp)
  · rw [exec_permInstr, Host.Outcome.next.injEq] at e
    exact sreg_permCommand_of_roundFault e h6

/-- Settles O14: the outcomes of PERM_x for the large instance. -/
theorem permLAppliesTheLargePermutation : Obligations.PermLAppliesTheLargePermutation :=
  ⟨decode_eq_command_iff.2 rfl, fun _ hrest hf => exec_permInstr_outcomes hrest hf .large⟩

/-- Settles O15: the outcomes of PERM_x for the small instance. -/
theorem permSAppliesTheSmallPermutation : Obligations.PermSAppliesTheSmallPermutation :=
  ⟨decode_eq_command_iff.2 rfl, fun _ hrest hf => exec_permInstr_outcomes hrest hf .small⟩

/-! ### What PERM_x depends on (R134) -/

theorem roundConstants_congr_table {s s' : State} {x : Sel} {n : Nat}
    (h : ∀ j < 4 * n, slotNat s' (rcBank x) j = slotNat s (rcBank x) j) {i : Nat} (hi : i < n) :
    roundConstants s' x i = roundConstants s x i := by
  simp only [roundConstants, h (4 * i) (by omega), h (4 * i + 1) (by omega), h (4 * i + 2) (by omega),
    h (4 * i + 3) (by omega)]

/-- Settles O31: the checks and `P_x` read the field, S, VALID_x and the committed instance alone. -/
theorem permIsDeterminedByItsOperands : Obligations.PermIsDeterminedByItsOperands := by
  intro s s' t t' x i hi hf hu hu' hfield hsreg hvalid hrounds htable e e'
  obtain rfl : i = permInstr x := by rcases hi with ⟨rfl, rfl⟩ | ⟨rfl, rfl⟩ <;> rfl
  have hcheck : check (permInstr x) s' = check (permInstr x) s := by
    simp only [check_permInstr, hvalid, hsreg, hfield]
  have hperm := permutation_congr (x := x) ⟨hfield, hrounds, fun i => roundConstants_congr_table htable⟩
    (stateVector s)
  rw [exec_permInstr] at e e'
  cases e
  cases e'
  by_cases hc : check (permInstr x) s = .ok
  · rw [permCommand_honest hc hf hu, permCommand_honest (hcheck.trans hc) (hfield ▸ hf) hu', stateVector, hsreg]
    exact ⟨congrArg rawQuad hperm, rfl⟩
  · rw [permCommand_of_check_ne_ok hc, permCommand_of_check_ne_ok (hcheck ▸ hc), hcheck]
    exact ⟨hsreg, rfl⟩

/-! ### Bijective rounds (R135) -/

/-- The constants of a round of a committed instance are a state vector (R121, R125). -/
theorem roundConstants_canonical {s : State} {x : Sel} (h : Committed s x) {i : Nat} (hi : i < s.rounds x) :
    quadCanonical s.field (roundConstants s x i) = true := by
  obtain ⟨-, -, hlen, hentry⟩ := h
  have hlt (j : Nat) (hj : j < s.rclen x) := (canonical_iff _ _).1 (hentry j hj)
  exact (quadCanonical_iff _ _).2
    ⟨hlt _ (by omega), hlt _ (by omega), hlt _ (by omega), hlt _ (by omega)⟩

/-- Settles O32: `P_x` is its rounds one after the other, and each is a bijection. -/
theorem bijectiveRoundsGiveABijectivePermutation : Obligations.BijectiveRoundsGiveABijectivePermutation := by
  intro s x _ hcom states hmix
  have hrounds (n : Nat) (hn : n ≤ s.rounds x) : Set.BijOn (fun q => roundState s x q n) states states := by
    induction n with
    | zero => exact Set.bijOn_id states
    | succ n ih => exact (hmix _ (roundConstants_canonical hcom hn)).comp (ih (by omega))
  exact hrounds _ le_rfl

end Sys2Proof.Machine
end

section
/-! PROOFS. RoundFault (spec/40_permutation.md R128, R129; spec/60_exceptions.md R227, R231): a command past its checks
is one computation with the round-function unit, and a bad answer to one of its requests is what makes it fail. -/

namespace Sys2Proof.Machine

/-- How a command ends whose computation answers `p`: with the results `g`, or with a RoundFault (R227). -/
def concluded {α : Type} (i : Instr) (s : State) (g : α → Rfu → State) (p : Option α × Rfu) : State :=
  match p with
  | (some a, u) => g a u
  | (none, u) => roundFault i { s with rfu := u }

/-- A command is one computation by its requests: `p`, which a bad answer ends, and else the results `g`. -/
structure Computes {α : Type} (i : Instr) (s : State) (g : α → Rfu → State) (p : Option α × Rfu) : Prop where
  exec_eq : exec i s = .next (concluded i s g p)
  success : ∀ a u, (g a u).errCode = 0
  faults : p.1 = none ↔ HasBad s.field (commandRequests i s).length s.rfu
  stops : ∀ k q rest, NextBad s.rfu k q rest → BadAnswer s.field q → k < (commandRequests i s).length →
    p = (none, stopped s.rfu (commandRequests i s) k rest)

theorem Computes.errCode_eq_six_iff {α : Type} {i : Instr} {s : State} {g : α → Rfu → State} {p : Option α × Rfu}
    (h : Computes i s g p) : (concluded i s g p).errCode = 6 ↔ HasBad s.field (commandRequests i s).length s.rfu := by
  rw [← h.faults]
  obtain ⟨_ | a, u⟩ := p
  · exact iff_of_true (complete_errCode _ _) rfl
  · have hne : (g a u).errCode ≠ 6 := by rw [h.success a u]; decide
    exact iff_of_false hne (by simp)

/-! ### The requests of a command -/

theorem length_transformRequests (s : State) (msg : Nat → Elem) (m : Nat) :
    (transformRequests s msg m).length = s.rounds .large + (m * s.rounds .small + s.rounds .large) := by
  simp only [transformRequests, List.length_append, List.length_flatMap, length_permRequests, List.map_const',
    List.length_range, List.sum_replicate, smul_eq_mul]
  omega

theorem commandRequests_transformInstr (dir : Direction) (m : Nat) (s : State) :
    commandRequests (transformInstr dir m) s = transformRequests s (messageOf s dir) m := by
  cases dir <;> rfl

/-! ### The commands -/

/-- A command that makes no request answers its results. -/
theorem computes_without_requests {i : Instr} {s t : State} (e : exec i s = .next t) (h0 : t.errCode = 0)
    (hreq : commandRequests i s = []) : Computes i s (fun _ _ => t) (some (), s.rfu) where
  exec_eq := e
  success := fun _ _ => h0
  faults := by rw [hreq]; exact iff_of_false (by simp) (hasBad_zero _ _)
  stops := fun k _ _ _ _ hk => by rw [hreq] at hk; exact absurd hk (Nat.not_lt_zero k)

/-- A command whose one computation is `P_x(S)`: PERM_x or SCHEDULE (R131, R163). -/
theorem computes_perm {i : Instr} {s : State} {x : Sel} {g : Quad Elem → Rfu → State}
    (hf : Config.fieldWf s.field = true)
    (e : exec i s = .next (concluded i s g (perm s x (stateVector s) s.rfu))) (h0 : ∀ t u, (g t u).errCode = 0)
    (hreq : commandRequests i s = permRequests s x (stateVector s)) :
    Computes i s g (perm s x (stateVector s) s.rfu) where
  exec_eq := e
  success := h0
  faults := by
    rw [hreq, length_permRequests]
    exact (perm_answered hf x _ _).1
  stops := fun k q rest hnext hq hk => by
    rw [hreq] at hk ⊢
    rw [perm_stops hf x _ hq rest k hnext, if_pos hk]

theorem computes_permInstr {s : State} {x : Sel} (hf : Config.fieldWf s.field = true)
    (hc : check (permInstr x) s = .ok) :
    Computes (permInstr x) s (fun t u => complete .ok { s with rfu := u, sreg := rawQuad t })
      (perm s x (stateVector s) s.rfu) := by
  refine computes_perm hf ?_ (fun _ _ => rfl) (by cases x <;> rfl)
  rw [exec_permInstr, permCommand, if_pos hc]
  rcases perm s x (stateVector s) s.rfu with ⟨_ | t, u⟩ <;> rfl

theorem computes_schedule {s : State} {n : Nat} (hf : Config.fieldWf s.field = true)
    (hc : check (.schedule n) s = .ok) :
    Computes (.schedule n) s (fun k0 u => finishSchedule n k0 { s with rfu := u })
      (perm s .large (stateVector s) s.rfu) := by
  refine computes_perm hf ?_ (fun _ _ => rfl) rfl
  rw [exec, execSchedule, scheduleCommand, if_pos hc]
  rcases perm s .large (stateVector s) s.rfu with ⟨_ | k0, u⟩ <;> rfl

theorem exec_transformInstr (dir : Direction) (m : Nat) (s : State) :
    exec (transformInstr dir m) s = .next (transformCommand dir m (transformInstr dir m) s) := by
  cases dir <;> rfl

theorem computes_transformInstr {s : State} {dir : Direction} {m : Nat} (hf : Config.fieldWf s.field = true)
    (hc : check (transformInstr dir m) s = .ok) :
    Computes (transformInstr dir m) s
      (fun r u => finishTransform (r.1.map Block.out) r.2 { s with rfu := u }) (transform s dir m) where
  exec_eq := by
    rw [exec_transformInstr, transformCommand, if_pos hc]
    rcases transform s dir m with ⟨_ | r, u⟩ <;> rfl
  success := fun _ _ => rfl
  faults := by
    rw [commandRequests_transformInstr, length_transformRequests]
    exact transform_answered hf dir m
  stops := fun k q rest hnext hq hk => by
    rw [commandRequests_transformInstr] at hk ⊢
    exact transform_stops hf dir m hq rest k hnext hk

theorem exists_computes {i : Instr} {s : State} (hf : Config.fieldWf s.field = true) (hc : check i s = .ok) :
    ∃ (α : Type) (g : α → Rfu → State) (p : Option α × Rfu), Computes i s g p := by
  cases i with
  | nop | zeroize => exact ⟨_, _, _, computes_without_requests rfl rfl rfl⟩
  | commitL | commitS => exact ⟨_, _, _, computes_without_requests rfl (congrArg ResultCode.code hc) rfl⟩
  | roll | keystate => exact ⟨_, _, _, computes_without_requests (congrArg Host.Outcome.next (if_pos hc)) rfl rfl⟩
  | permL => exact ⟨_, _, _, computes_permInstr (x := .large) hf hc⟩
  | permS => exact ⟨_, _, _, computes_permInstr (x := .small) hf hc⟩
  | schedule n => exact ⟨_, _, _, computes_schedule hf hc⟩
  | encrypt m => exact ⟨_, _, _, computes_transformInstr (dir := .encrypting) hf hc⟩
  | decrypt m => exact ⟨_, _, _, computes_transformInstr (dir := .decrypting) hf hc⟩

/-- From rest, a RoundFault zeroes the destinations and writes the completion fields (R231, R242). -/
theorem roundFault_atRest {i : Instr} {s : State} (hrest : AtRest s) :
    roundFault i s = completionFields 6 (zeroDestinations i s) := by
  have hz : AtRest (zeroDestinations i s) := by cases i <;> exact hrest.congr rfl
  exact complete_atRest hz .roundFault

/-- Settles O16: the command's computation has no result exactly when an answer is bad, and the first bad answer is
where it stops. -/
theorem roundFaultIffANonCanonicalResponse : Obligations.RoundFaultIffANonCanonicalResponse := by
  refine ⟨fun i s t hf hc e => ?_, fun i s k q rest hrest hf hc hk hscript hq => ?_⟩
  · obtain ⟨α, g, p, h⟩ := exists_computes hf hc
    rw [h.exec_eq] at e
    cases e
    exact h.errCode_eq_six_iff
  · obtain ⟨α, g, p, h⟩ := exists_computes hf hc
    rw [h.exec_eq, h.stops k q rest hscript hq hk]
    exact congrArg _ (roundFault_atRest (hrest.congr rfl))

end Sys2Proof.Machine
end

section
/-! PROOFS. The configuration of a permutation (spec/40_permutation.md R120, R123; spec/10_state.md R27 to R31, R39 to
R41): what a write to it leaves, and that nothing else changes it while it is committed. -/

namespace Sys2Proof.Machine

/-! ### Writes of an idle machine -/

theorem ifIdle_idle {s : State} (hb : s.busy = false) (g : State → State) : ifIdle s g = g s := by
  rw [ifIdle, hb]
  rfl

theorem hostWrite_rounds {s : State} (hb : s.busy = false) {off : Offset} {x : Sel}
    (h : (Loc.rounds x).IsWord (off.toNat / 4)) (v : Word) :
    hostWrite off v s = writeRounds x (v.setWidth 16) s := by
  rw [hostWrite, locate_eq_iff.2 h, writeLoc, ifIdle_idle hb]

theorem hostWrite_rclen {s : State} (hb : s.busy = false) {off : Offset} {x : Sel}
    (h : (Loc.rclen x).IsWord (off.toNat / 4)) (v : Word) :
    hostWrite off v s = writeRclen x (v.setWidth 16) s := by
  rw [hostWrite, locate_eq_iff.2 h, writeLoc, ifIdle_idle hb]

theorem hostWrite_klen {s : State} (hb : s.busy = false) {off : Offset} (h : off.toNat / 4 = 10) (v : Word) :
    hostWrite off v s = { s with klen := v.setWidth 3 } := by
  rw [hostWrite, (locate_eq_iff (l := .klen)).2 h, writeLoc, ifIdle_idle hb]

/-- In a round-constant bank VALID_x falls with the write (R123). -/
theorem writeBankWord_rcBank (x : Sel) (j w : Nat) (v : Word) (s : State) :
    writeBankWord (rcBank x) j w v s =
      ifStorage s w fun s => setValid x false (putWord (slotAddr (rcBank x) j + 4 * w) v s) := by
  cases x <;> rfl

/-- The offset of a bank word is the address of its four bytes (R61, R63). -/
theorem locate_bank_word {off : Offset} {b : Bank} (h1 : b.base ≤ off.toNat) (h2 : off.toNat < b.base + 0x8000) :
    ∃ j, locate off = .bank b j (off.toNat / 4 % 8) ∧
      slotAddr b j + 4 * (off.toNat / 4 % 8) = off.toNat / 4 * 4 := by
  have hbase : b.base % 32 = 0 := by cases b <;> rfl
  refine ⟨(off.toNat / 4 * 4 - b.base) / 32, ?_, ?_⟩
  · rw [locate_in_bank rfl b (by omega) (by omega), Nat.mul_div_cancel _ (by decide)]
  · unfold slotAddr
    omega

theorem hostWrite_rcBank {s : State} (hb : s.busy = false) {off : Offset} {x : Sel}
    (h1 : (rcBank x).base ≤ off.toNat) (h2 : off.toNat < (rcBank x).base + 0x8000)
    (hw : off.toNat / 4 % 8 < fieldWords s.field) (v : Word) :
    hostWrite off v s = setValid x false (putWord (off.toNat / 4 * 4) v s) := by
  obtain ⟨j, hj, ha⟩ := locate_bank_word h1 h2
  rw [hostWrite, hj, writeLoc, writeBankWord_rcBank, ifStorage_idle hb hw, ha]

theorem hostWrite_din {s : State} (hb : s.busy = false) {off : Offset} (h1 : Bank.din.base ≤ off.toNat)
    (h2 : off.toNat < Bank.din.base + 0x8000) (hw : off.toNat / 4 % 8 < fieldWords s.field) (v : Word) :
    hostWrite off v s = putWord (off.toNat / 4 * 4) v s := by
  obtain ⟨j, hj, ha⟩ := locate_bank_word h1 h2
  rw [hostWrite, hj, writeLoc, writeBankWord, ifStorage_idle hb hw, ha]

theorem byteOfNat_eq_div (v k : Nat) : byteOfNat v k = BitVec.ofNat 8 (v / 256 ^ k) := by
  rw [byteOfNat, Nat.shiftRight_eq_div_pow, Nat.pow_mul]

/-- Settles O39: each location's write is known, and a bank word is its four bytes. -/
theorem configurationWritesClearValid : Obligations.ConfigurationWritesClearValid := by
  intro s off v hb a written
  have hput : written (putWord a v s).mem := fun b =>
    (bankByte_putWord a v s b).trans (by rw [byteOfNat_eq_div])
  refine ⟨fun h => hostWrite_rounds (x := .large) hb h v, fun h => hostWrite_rounds (x := .small) hb h v,
    fun h => hostWrite_rclen (x := .large) hb h v, fun h => hostWrite_rclen (x := .small) hb h v,
    fun h => hostWrite_klen hb h v, fun h hw => ⟨_, hostWrite_rcBank (x := .large) hb h.1 h.2 hw v, hput⟩,
    fun h hw => ⟨_, hostWrite_rcBank (x := .small) hb h.1 h.2 hw v, hput⟩,
    fun h hw => ⟨_, hostWrite_din hb h.1 h.2 hw v, hput⟩, fun h hw => ?_⟩
  exact writeLoc_beyond_storage ((isWord_locate off).slotWord? (by omega)) hw v

/-! ### The configuration while it is committed -/

/-- The round count, the declared length and the table of instance `x` are the same in both states. -/
structure SameConfig (x : Sel) (s t : State) : Prop where
  rounds : t.rounds x = s.rounds x
  rclen : t.rclen x = s.rclen x
  table : ∀ j < 1024, slotNat t (rcBank x) j = slotNat s (rcBank x) j

theorem SameConfig.trans {x : Sel} {s t u : State} (h : SameConfig x s t) (h' : SameConfig x t u) :
    SameConfig x s u where
  rounds := h'.rounds.trans h.rounds
  rclen := h'.rclen.trans h.rclen
  table j hj := (h'.table j hj).trans (h.table j hj)

/-- An update of other fields than these. -/
theorem sameConfig_of_outside {x : Sel} {s t : State}
    (h : t = { t with
      field := s.field, roundsL := s.roundsL, roundsS := s.roundsS, rclenL := s.rclenL, rclenS := s.rclenS
      mem := s.mem, past := s.past }) : SameConfig x s t := by
  rw [h]
  cases x <;> exact ⟨rfl, rfl, fun _ _ => rfl⟩

theorem rcBank_injective : Function.Injective rcBank := by
  intro x y h
  cases x <;> cases y <;> cases h <;> rfl

theorem rcBank_addr_lt {x : Sel} {j k : Nat} (hj : j < 1024) (hk : k < 32) : slotAddr (rcBank x) j + k < 0x18000 := by
  cases x <;> simp only [rcBank, slotAddr, Bank.base] <;> omega

/-- The tables lie below DIN (R61). -/
theorem KeepsTables.sameConfig {s t : State} (h : KeepsTables 0x18000 s t) (hew : fieldWords s.field ≤ 8) (x : Sel) :
    SameConfig x s t where
  rounds := by cases x; exacts [congrArg BitVec.toNat h.roundsL, congrArg BitVec.toNat h.roundsS]
  rclen := by cases x; exacts [congrArg BitVec.toNat h.rclenL, congrArg BitVec.toNat h.rclenS]
  table j hj := slotNat_congr h.field fun k hk => h.bytes _ (rcBank_addr_lt hj (by omega))

/-! ### The round-function port -/

theorem keepsInputs_startBlock (m b : Nat) (s : State) : KeepsInputs s (startBlock m b s) := by
  unfold startBlock
  split <;> exact keepsInputs_of_outside rfl

theorem keepsInputs_finishTransform (outs : List Elem) (tag : Elem) (s : State) :
    KeepsInputs s (finishTransform outs tag s) :=
  (keepsInputs_writeBank (.inl rfl) outs s).trans (keepsInputs_of_outside rfl)

theorem keepsInputs_transformPermDone (dir : Direction) (m : Nat) (s : State) :
    KeepsInputs s (transformPermDone dir m s) := by
  unfold transformPermDone
  cases s.phase with
  | idle | perm => exact keepsInputs_of_outside rfl
  | boot | block => exact (keepsInputs_of_outside rfl).trans (keepsInputs_startBlock _ _ _)
  | tagging => exact keepsInputs_finishTransform _ _ s

theorem keepsInputs_permDone (i : Instr) (s : State) : KeepsInputs s (permDone i s) := by
  cases i with
  | permL | permS => exact keepsInputs_of_outside rfl
  | schedule n => exact (keepsInputs_writeBank (.inr rfl) _ s).trans (keepsInputs_complete _ _)
  | encrypt m | decrypt m => exact keepsInputs_transformPermDone _ m s
  | nop | commitL | commitS | roll | keystate | zeroize => exact keepsInputs_of_outside rfl

theorem keepsInputs_roundDone (i : Instr) (q : Quad Elem) (s : State) : KeepsInputs s (roundDone i q s) := by
  unfold roundDone
  split
  · exact keepsInputs_of_outside rfl
  · exact (keepsInputs_of_outside rfl).trans (keepsInputs_permDone i _)

theorem keepsInputs_rfuTake (s : State) : KeepsInputs s (rfuTake s) := by
  unfold rfuTake
  split <;> exact keepsInputs_of_outside rfl

theorem keepsInputs_rfuRespond (s : State) : KeepsInputs s (rfuRespond s) := by
  have hdrop : KeepsInputs s { s with rfu := rfuDrop s.rfu, rfOut := false } := keepsInputs_of_outside rfl
  unfold rfuRespond
  split
  · exact keepsInputs_of_outside rfl
  split
  · split
    · exact hdrop
    · dsimp only
      split
      · exact hdrop.trans (keepsInputs_roundDone _ _ _)
      · exact hdrop.trans ((keepsInputs_zeroDestinations _ _).trans (keepsInputs_complete _ _))
  · exact keepsInputs_of_outside rfl

theorem keepsInputs_portEdge (s : State) : KeepsInputs s (portEdge s) := by
  unfold portEdge
  split
  · exact keepsInputs_rfuTake s
  · exact keepsInputs_rfuRespond s

/-! ### The engine's turns -/

theorem keepsInputs_openCommand {i : Instr} {s t : State} (e : openCommand i s = some t) : KeepsInputs s t := by
  unfold openCommand at e
  split at e
  · cases i with
    | permL | permS | schedule | encrypt | decrypt => cases e; exact keepsInputs_of_outside rfl
    | nop | commitL | commitS | roll | keystate | zeroize => cases e
  · cases e

theorem keepsTables_beginCommand {i : Instr} {s t : State} (e : beginCommand i s = .next t) :
    KeepsTables 0x18000 s t := by
  unfold beginCommand at e
  split at e
  · next h => cases e; exact (keepsInputs_openCommand h).mono (by decide)
  · exact keepsTables_exec e

theorem keepsTables_runCommand {i : Instr} {s t : State} (e : runCommand i s = .next t) :
    KeepsTables 0x18000 s t := by
  unfold runCommand at e
  split at e
  · exact keepsTables_beginCommand e
  · exact keepsTables_exec e

theorem keepsTables_turn {g : Instr → State → Host.Outcome State Fault Refusal} {s t : State}
    (hg : ∀ i t, g i s = .next t → KeepsTables 0x18000 s t) (e : turn g s = .next t) : KeepsTables 0x18000 s t := by
  obtain ⟨-, rfl⟩ | ⟨-, -, rfl⟩ | ⟨-, -, rfl⟩ | ⟨i, -, -, h⟩ := turn_cases e
  · exact (keepsInputs_of_outside rfl).mono (by decide)
  · exact (keepsInputs_complete _ s).mono (by decide)
  · exact (keepsInputs_portEdge s).mono (by decide)
  · exact hg i t h

/-! ### The host port -/

/-- Instance `x` is not committed afterwards, or its configuration is the same. -/
def KeepsCommitted (x : Sel) (s t : State) : Prop := t.valid x = true → SameConfig x s t

theorem SameConfig.keepsCommitted {x : Sel} {s t : State} (h : SameConfig x s t) : KeepsCommitted x s t := fun _ => h

theorem keepsCommitted_of_invalid {x : Sel} {s t : State} (h : t.valid x = false) : KeepsCommitted x s t :=
  fun hv => absurd (h.symm.trans hv) Bool.false_ne_true

theorem keepsCommitted_ifIdle {x : Sel} {s : State} {g : State → State} (h : KeepsCommitted x s (g s)) :
    KeepsCommitted x s (ifIdle s g) := by
  unfold ifIdle
  split
  · exact (sameConfig_of_outside rfl).keepsCommitted
  · exact h

theorem keepsCommitted_ifStorage {x : Sel} {s : State} {w : Nat} {g : State → State}
    (h : w < fieldWords s.field → KeepsCommitted x s (g s)) : KeepsCommitted x s (ifStorage s w g) := by
  unfold ifStorage
  split
  · next hw => exact keepsCommitted_ifIdle (h hw)
  · exact (sameConfig_of_outside rfl).keepsCommitted

/-- A storage word of another bank is no byte of the table. -/
theorem sameConfig_putWord {x : Sel} {s : State} (hew : fieldWords s.field ≤ 8) {b : Bank} (hne : rcBank x ≠ b)
    {j w : Nat} (hj : j < 1024) (hw : w < fieldWords s.field) (v : Word) :
    SameConfig x s (putWord (slotAddr b j + 4 * w) v s) where
  rounds := by cases x <;> rfl
  rclen := by cases x <;> rfl
  table j' hj' := slotNat_congr (putWord_field ..) fun k hk => putWord_outside hj hj' hw hew hk hne

theorem keepsCommitted_writeBankWord {x : Sel} {s : State} (hew : fieldWords s.field ≤ 8) (b : Bank) {j : Nat}
    (hj : j < 1024) (w : Nat) (v : Word) : KeepsCommitted x s (writeBankWord b j w v s) := by
  have hrc (y : Sel) : KeepsCommitted x s (writeBankWord (rcBank y) j w v s) := by
    rw [writeBankWord_rcBank]
    refine keepsCommitted_ifStorage fun hw => ?_
    by_cases hy : y = x
    · exact keepsCommitted_of_invalid (by rw [valid_setValid, if_pos hy])
    · have hne : rcBank x ≠ rcBank y := fun h => hy (rcBank_injective h).symm
      exact ((sameConfig_putWord hew hne hj hw v).trans
        (sameConfig_of_outside (by cases y <;> rfl))).keepsCommitted
  cases b with
  | rcL => exact hrc .large
  | rcS => exact hrc .small
  | din =>
    refine keepsCommitted_ifStorage fun hw => (sameConfig_putWord hew ?_ hj hw v).keepsCommitted
    cases x <;> simp [rcBank]
  | dout | ek => exact (sameConfig_of_outside rfl).keepsCommitted

theorem keepsCommitted_writeLoc {x : Sel} {s : State} (hew : fieldWords s.field ≤ 8) (v : Word) {l : Loc} {n : Nat}
    (hl : l.IsWord n) : KeepsCommitted x s (writeLoc s v l) := by
  cases l with
  | id | param0 | param1 | tag | reserved | status => exact (sameConfig_of_outside rfl).keepsCommitted
  | ctrl =>
    unfold writeLoc
    dsimp only
    split
    · exact keepsCommitted_of_invalid (by cases x <;> rfl)
    · exact (sameConfig_of_outside rfl).keepsCommitted
  | cmd => unfold writeLoc; dsimp only; split <;> exact (sameConfig_of_outside rfl).keepsCommitted
  | rounds y | rclen y =>
    refine keepsCommitted_ifIdle ?_
    cases x <;> cases y
    exacts [keepsCommitted_of_invalid rfl, fun _ => ⟨rfl, rfl, fun _ _ => rfl⟩, fun _ => ⟨rfl, rfl, fun _ _ => rfl⟩,
      keepsCommitted_of_invalid rfl]
  | klen => exact keepsCommitted_ifIdle (sameConfig_of_outside rfl).keepsCommitted
  | sreg i w | mkey i w | nonce w => exact keepsCommitted_ifStorage fun _ => (sameConfig_of_outside rfl).keepsCommitted
  | bank b j w => exact keepsCommitted_writeBankWord hew b hl.1 w v

/-! ### Every move -/

theorem keepsCommitted_transfer {x : Sel} {s : State} {g : State → State} (h : KeepsCommitted x s (g s)) :
    KeepsCommitted x s (transfer g s) := by
  unfold transfer
  split
  · exact h
  · exact (sameConfig_of_outside rfl).keepsCommitted

theorem keepsCommitted_move {x : Sel} {m : Move} {s t : State} (hew : fieldWords s.field ≤ 8)
    (e : move m s = .next t) : KeepsCommitted x s t := by
  have htables (h : KeepsTables 0x18000 s t) : KeepsCommitted x s t := (h.sameConfig hew x).keepsCommitted
  cases m with
  | write off v => cases e; exact keepsCommitted_transfer (keepsCommitted_writeLoc hew v (isWord_locate off))
  | read off => cases e; exact keepsCommitted_transfer (sameConfig_of_outside rfl).keepsCommitted
  | engine => exact htables (keepsTables_turn (fun _ _ => keepsTables_runCommand) e)
  | start => exact htables (keepsTables_turn (fun _ _ => keepsTables_beginCommand) e)
  | rfuTake => cases e; exact htables ((keepsInputs_rfuTake s).mono (by decide))
  | rfuRespond => cases e; exact htables ((keepsInputs_rfuRespond s).mono (by decide))
  | rfuFallSilent | deassertReset | powerCycle => cases e; exact (sameConfig_of_outside rfl).keepsCommitted
  | assertReset => cases e; exact keepsCommitted_of_invalid (by cases x <;> rfl)

theorem keepsCommitted_agentMove {x : Sel} {m : Move} {s t : State} (hew : fieldWords s.field ≤ 8)
    (e : agentMove m s = .next t) : KeepsCommitted x s t := by
  unfold agentMove at e
  split at e
  · exact keepsCommitted_move hew e
  · cases m with
    | assertReset => exact keepsCommitted_move (m := .assertReset) hew e
    | powerCycle => cases e; exact (sameConfig_of_outside rfl).keepsCommitted
    | write | read | engine | start | rfuTake | rfuRespond | rfuFallSilent | deassertReset => cases e

theorem keepsCommitted_step {x : Sel} {s t : State} (hew : fieldWords s.field ≤ 8) (e : step s = .next t) :
    KeepsCommitted x s t := by
  unfold step at e
  split at e
  · exact keepsCommitted_agentMove hew e
  · next m ms _ =>
    have hsched : SameConfig x s { s with schedule := ms } := sameConfig_of_outside rfl
    exact fun hv => hsched.trans (keepsCommitted_agentMove (s := { s with schedule := ms }) hew e hv)

/-- Settles O51: whatever changes the configuration clears VALID_x. Of the invariant only the legal field is needed. -/
theorem committedPermutationIsImmutable : Obligations.CommittedPermutationIsImmutable := by
  intro s t x hinv e _ hv
  obtain ⟨hrounds, hrclen, htable⟩ := keepsCommitted_step (fieldWords_le hinv.field) e hv
  exact ⟨hrounds, hrclen, htable⟩

end Sys2Proof.Machine
end

section
/-! PROOFS. The round-function port between its edges (spec/40_permutation.md R126, R130; spec/70_reset_and_hazards.md
R261): request signals, responses without a request, and a unit that is silent. -/

namespace Sys2Proof.Machine

/-- CTRL.SOFT_RESET written (R24, R261). -/
theorem hostWrite_softReset (s : State) : hostWrite 0x0C 0x2 s = resetState s :=
  hostWrite_ctrl (by decide) 0x2 s

/-! ### Responses without a request -/

/-- A response with no request outstanding is the unit's own affair (R126). -/
theorem rfuRespond_of_not_rfOut {s : State} (h : s.rfOut = false) :
    rfuRespond s = { s with rfu := (rfuRespond s).rfu } := by
  have hcases : rfuRespond s = if s.rfu.silent then s else { s with rfu := rfuDrop s.rfu } := by simp [rfuRespond, h]
  rw [hcases]
  split <;> rfl

theorem rfuTake_of_not_rfReqValid {s : State} (h : rfReqValid s = false) : rfuTake s = s := by simp [rfuTake, h]

/-- Settles O56: reset presents no request and has none outstanding. -/
theorem responsesWithoutARequestAreIgnored : Obligations.ResponsesWithoutARequestAreIgnored := by
  refine ⟨fun s h => rfuRespond_of_not_rfOut h, fun s => ?_⟩
  rw [hostWrite_softReset]
  exact ⟨rfl, rfl, rfuRespond_of_not_rfOut rfl, rfuTake_of_not_rfReqValid rfl⟩

/-! ### Stable request signals -/

/-- The port shows the same request, or none, in both states. -/
def SamePort (s t : State) : Prop := rfReqValid t = rfReqValid s ∧ requestSignals t = requestSignals s

/-- An update of no field that the port reads. -/
theorem samePort_of_outside {s t : State}
    (h : t = { s with
      irqEn := t.irqEn, done := t.done, err := t.err, wrDrop := t.wrDrop, cmdDrop := t.cmdDrop, hRdata := t.hRdata
      schedule := t.schedule }) : SamePort s t := by
  rw [h]
  exact ⟨rfl, rfl⟩

theorem samePort_ifIdle_busy {s : State} (hb : s.busy = true) (g : State → State) : SamePort s (ifIdle s g) := by
  rw [ifIdle_busy hb]
  exact samePort_of_outside rfl

theorem samePort_ifStorage_busy {s : State} (hb : s.busy = true) (w : Nat) (g : State → State) :
    SamePort s (ifStorage s w g) := by
  unfold ifStorage
  split
  · exact samePort_ifIdle_busy hb g
  · exact samePort_of_outside rfl

/-- A write to a busy machine, other than a soft reset, does not reach the port (R71, R72, R241). -/
theorem samePort_writeLoc_busy {s : State} (hb : s.busy = true) (v : Word) {l : Loc}
    (hl : l = .ctrl → v.getLsbD 1 = false) : SamePort s (writeLoc s v l) := by
  cases l with
  | id | param0 | param1 | tag | reserved | status => exact samePort_of_outside rfl
  | ctrl => rw [writeLoc, hl rfl]; exact samePort_of_outside rfl
  | cmd => rw [writeLoc, if_pos hb]; exact samePort_of_outside rfl
  | rounds | rclen | klen => exact samePort_ifIdle_busy hb _
  | sreg | mkey | nonce => exact samePort_ifStorage_busy hb _ _
  | bank b j w =>
    cases b with
    | rcL | rcS | din => exact samePort_ifStorage_busy hb _ _
    | dout | ek => exact samePort_of_outside rfl

theorem samePort_transfer {s : State} {g : State → State} (h : SamePort s (g s)) : SamePort s (transfer g s) := by
  unfold transfer
  split
  · exact h
  · exact samePort_of_outside rfl

/-- A command in its rounds is a pending one (R48, R50). -/
theorem Inv.busy_of_begun {s : State} (h : Inv s) (hp : s.phase ≠ .idle) : s.busy = true := by
  obtain ⟨i, hrun⟩ := h.running hp
  exact h.busy_of_command hrun.command

theorem phase_ne_idle_of_rfReqValid {s : State} (h : rfReqValid s = true) : s.phase ≠ .idle := by
  simp only [rfReqValid, Bool.and_eq_true, decide_eq_true_eq] at h
  exact h.1

/-- From an unspecified state only a reset or a loss of power answers a next state (R265). -/
theorem move_of_step {s t : State} {m : Move} {ms : List Move} (hsched : s.schedule = m :: ms)
    (hr : m ≠ .assertReset) (hp : m ≠ .powerCycle) (e : step s = .next t) :
    move m { s with schedule := ms } = .next t := by
  rw [step, hsched] at e
  dsimp only [agentMove] at e
  split at e
  · exact e
  · cases m with
    | assertReset => exact absurd rfl hr
    | powerCycle => exact absurd rfl hp
    | write | read | engine | start | rfuTake | rfuRespond | rfuFallSilent | deassertReset => cases e

/-- Settles O55: the engine of a presented request is busy, and the host port of a busy machine does not reach the
request. -/
theorem requestSignalsAreStable : Obligations.RequestSignalsAreStable := by
  refine ⟨fun s h => if_neg (by simp [h]), fun s h => if_pos h, fun s t ms mv hinv hreq hsched hmv e => ?_⟩
  have hb : s.busy = true := hinv.busy_of_begun (phase_ne_idle_of_rfReqValid hreq)
  have hsame : SamePort { s with schedule := ms } t := by
    obtain ⟨off, rfl⟩ | ⟨off, v, rfl, hno⟩ := hmv
    · cases move_of_step hsched (by simp) (by simp) e
      exact samePort_transfer (samePort_of_outside rfl)
    · cases move_of_step hsched (by simp) (by simp) e
      refine samePort_transfer (samePort_writeLoc_busy (s := { s with schedule := ms }) hb v fun hl => ?_)
      rw [getLsbD_eq_decide, decide_eq_false_iff_not]
      exact fun h1 => hno ⟨locate_eq_iff.1 hl, h1⟩
  exact ⟨hsame.1.trans hreq, hsame.2⟩

/-! ### A silent unit (R130) -/

theorem rfuTake_silent {s : State} (h : s.rfu.silent = true) : rfuTake s = s := by simp [rfuTake, h]

theorem rfuRespond_silent {s : State} (h : s.rfu.silent = true) : rfuRespond s = s := if_pos h

theorem portEdge_silent {s : State} (h : s.rfu.silent = true) : portEdge s = s := by
  rw [portEdge, rfuTake_silent h, rfuRespond_silent h, ite_self]

/-- A command begun moves by edges of the port (R126). -/
theorem turn_begun {s : State} (hphase : s.phase ≠ .idle) (hpend : s.pending ≠ none)
    (g : Instr → State → Host.Outcome State Fault Refusal) : turn g s = .next (portEdge s) := by
  unfold turn
  split
  · next h => exact absurd h hpend
  · split
    · next h => exact absurd h hphase
    all_goals rfl

/-- BUSY stays 1 however long the engine has the turn, and a soft reset ends it. -/
def Hangs (s : State) : Prop :=
  ∀ k, ∃ t, Host.Core.run Sys2Proof.core k s = .next t ∧ t.busy = true ∧
    (hostWrite 0x0C 0x2 t).busy = false ∧ (hostWrite 0x0C 0x2 t).pending = none

theorem softReset_ends (s : State) :
    (hostWrite 0x0C 0x2 s).busy = false ∧ (hostWrite 0x0C 0x2 s).pending = none := by
  rw [hostWrite_softReset]
  exact ⟨rfl, rfl⟩

theorem hangs_of_step {s t : State} (hb : s.busy = true) (e : step s = .next t) (h : Hangs t) : Hangs s := by
  intro k
  cases k with
  | zero => exact ⟨s, rfl, hb, softReset_ends s⟩
  | succ k =>
    rw [run_succ e]
    exact h k

/-- A step that changes nothing is taken for ever. -/
theorem hangs_of_fixed {s : State} (hb : s.busy = true) (e : step s = .next s) : Hangs s := by
  refine fun k => ⟨s, ?_, hb, softReset_ends s⟩
  induction k with
  | zero => rfl
  | succ k ih => rw [run_succ e, ih]

/-- A command in its rounds, with a silent unit and no other move. -/
theorem hangs_of_begun {s : State} (hspec : s.specified = true) (hsil : s.rfu.silent = true)
    (hsched : s.schedule = []) (hphase : s.phase ≠ .idle) (hpend : s.pending ≠ none) (hb : s.busy = true) :
    Hangs s := by
  refine hangs_of_fixed hb ?_
  rw [step_engine hspec hsched, engineTurn, turn_begun hphase hpend, portEdge_silent hsil]

/-- A command that makes requests begins with a permutation entered (R131, R163, R184). -/
theorem openCommand_eq_enterPerm {i : Instr} {s : State} (hc : check i s = .ok)
    (hi : i = .permL ∨ i = .permS ∨ ∃ m, i = .schedule m ∨ i = .encrypt m ∨ i = .decrypt m) :
    ∃ ph x q, ph ≠ .idle ∧ openCommand i s = some (enterPerm ph x q s) := by
  unfold openCommand
  rw [if_pos hc]
  obtain rfl | rfl | ⟨m, rfl | rfl | rfl⟩ := hi
  all_goals exact ⟨_, _, _, by decide, rfl⟩

/-- Settles O54: with a silent unit the engine only begins the command, and from then on its turns change nothing. -/
theorem silentUnitHangsUntilReset : Obligations.SilentUnitHangsUntilReset := by
  refine ⟨fun s w i hspec hsil hsched hphase hb hw hd hc hi => ?_, fun s hinv hspec hphase => ?_⟩
  · obtain ⟨ph, x, q, hph, hopen⟩ := openCommand_eq_enterPerm hc hi
    refine hangs_of_step hb (t := enterPerm ph x q s) ?_
      (hangs_of_begun hspec hsil hsched hph (by simp [hw]) hb)
    rw [step_engine hspec hsched]
    simp only [engineTurn, turn, hw, hphase, hd, runCommand, hsil, if_true, beginCommand, hopen]
  · have hb := hinv.busy_of_begun hphase
    have hpend : s.pending ≠ none := fun h => hphase (hinv.begun h)
    refine ⟨fun hsil hsched => hangs_of_begun hspec hsil hsched hphase hpend hb, fun hsched => ?_⟩
    exact hangs_of_step hb (step_of_specified hspec hsched) (hangs_of_begun hspec rfl rfl hphase hpend hb)

end Sys2Proof.Machine
end

section
/-! PROOFS. The rolling function is a bijection that fixes zero (spec/41_rolling.md R153, R154), and ROLL applies it to
S (R150, R152). -/

namespace Sys2Proof.Machine

/-! ### The rolling function (R153, R154) -/

/-- With no bit of the multiplier set, the loop of the product adds nothing (R12). -/
theorem mulLoop_zero_right (n poly k a r : Nat) : mulLoop n poly k a 0 r = r := by
  induction k generalizing a with
  | zero => rfl
  | succ k ih => simpa [mulLoop] using ih _

@[simp] theorem fieldMul_zero_right (f : Field) (a : Elem) : fieldMul f a 0 = 0 := by
  cases f with
  | prime p => simp [fieldMul]
  | binary n poly => exact mulLoop_zero_right n poly n a 0

@[simp] theorem fieldAdd_zero_zero (f : Field) : fieldAdd f 0 0 = 0 := by cases f <;> simp [fieldAdd]

/-- The product that a rolling step adds to S3 is of coordinates it keeps, so it can be taken off again (R153). -/
theorem unroll_roll {f : Field} (hf : Config.fieldWf f = true) {q : Quad Elem} (hq : quadCanonical f q = true) :
    unroll f (roll f q) = q := by
  obtain ⟨h0, _, _, h3⟩ := (quadCanonical_iff f q).1 hq
  simp only [unroll, roll, fieldSub_fieldAdd h3 (fieldMul_lt hf q.c1 h0)]

/-- The product that the inverse formula takes off is the one that a rolling step adds (R153). -/
theorem roll_unroll {f : Field} (hf : Config.fieldWf f = true) {q : Quad Elem} (hq : quadCanonical f q = true) :
    roll f (unroll f q) = q := by
  obtain ⟨h0, h1, _, _⟩ := (quadCanonical_iff f q).1 hq
  simp only [roll, unroll, fieldAdd_fieldSub h0 (fieldMul_lt hf q.c2 h1)]

theorem roll_fillQuad_zero (f : Field) : roll f (fillQuad 0) = fillQuad 0 := by simp [roll, fillQuad]

/-- Settles O18: both compositions of the rolling function and its inverse, and the fixed point. -/
theorem rollIsInvertibleAndFixesZero : Obligations.RollIsInvertibleAndFixesZero :=
  fun f _ hf hq => ⟨unroll_roll hf hq, roll_unroll hf hq, roll_fillQuad_zero f⟩

/-! ### The command (R152) -/

/-- Of the checks of R228, ROLL has that of S alone. -/
theorem check_roll (s : State) :
    check .roll s =
      if ((quadList s.sreg).map BitVec.toNat).any fun v => !canonical s.field v then .fieldMismatch else .ok := by
  simp [check, Instr.len, Config.maxBlocks, readsKey, commitsTo, needsValid, elementOperands]

theorem check_roll_eq_ok {s : State} (hs : SregCanonical s) : check .roll s = .ok := by
  rw [check_roll, any_not_canonical_sreg.2 hs]
  rfl

theorem check_roll_eq_fieldMismatch {s : State} (hs : ¬ SregCanonical s) : check .roll s = .fieldMismatch := by
  rw [check_roll, eq_true_of_ne_false (mt any_not_canonical_sreg.1 hs)]
  rfl

@[simp] theorem rawOf_toNat (r : Raw) : rawOf r.toNat = r := by simp [rawOf]

/-- The slots of S after a rolling step: one new value, the others moved up as they stand (R150). -/
theorem rawQuad_roll_stateVector (s : State) :
    rawQuad (roll s.field (stateVector s)) =
      ⟨rawOf (roll s.field (stateVector s)).c0, s.sreg.c0, s.sreg.c1, s.sreg.c2⟩ := by
  simp [rawQuad, quadMap, roll, stateVector, elemQuad]

theorem exec_roll_of_canonical {s : State} (hrest : AtRest s) (hs : SregCanonical s) :
    exec .roll s = .next (completionFields 0 { s with sreg := rawQuad (roll s.field (stateVector s)) }) := by
  rw [exec, execRoll, if_pos (check_roll_eq_ok hs)]
  exact congrArg _ (complete_atRest (hrest.congr rfl) .ok)

theorem exec_roll_of_not_canonical {s : State} (hrest : AtRest s) (hs : ¬ SregCanonical s) :
    exec .roll s = .next (completionFields 3 s) := by
  have hc := check_roll_eq_fieldMismatch hs
  rw [exec, execRoll, if_neg (by simp [hc]), hc, complete_atRest hrest]
  rfl

/-- Settles O17: S of elements passes the one check, and a rolling step keeps it in the field. -/
theorem rollAdvancesTheStateRegister : Obligations.RollAdvancesTheStateRegister := by
  refine ⟨decode_eq_command_iff.2 rfl, fun s hrest hf => ⟨fun hs => ⟨?_, ?_⟩, exec_roll_of_not_canonical hrest⟩⟩
  · have hcan := roll_canonical hf (stateVector_canonical (check_roll_eq_ok hs) rfl)
    exact ((quadCanonical_iff _ _).1 hcan).1
  · rw [exec_roll_of_canonical hrest hs, rawQuad_roll_stateVector]
    rfl

end Sys2Proof.Machine
end

section
/-! PROOFS. The key schedule (spec/42_key_schedule.md R160 to R166): KEYSTATE over the key operands, and SCHEDULE under
the contract of the round-function unit, for every length. -/

namespace Sys2Proof.Machine

/-! ### The key operands (R229) -/

theorem keyElems_eq_map {s : State} (hk : s.klen.toNat ≤ 4) :
    keyElems s = (List.range s.klen.toNat).map fun j => (quadGet s.mkey j).toNat := by
  have hquad : (quadList s.mkey).map BitVec.toNat = (List.range 4).map fun j => (quadGet s.mkey j).toNat := rfl
  rw [keyElems, hquad, ← List.map_take, List.take_range, min_eq_left hk]

theorem any_not_canonical_key {s : State} (hk : s.klen.toNat ≤ 4) :
    ((keyElems s ++ [s.nonce.toNat]).any fun v => !canonical s.field v) = false ↔ KeyCanonical s := by
  simp [keyElems_eq_map hk, canonical_iff, KeyCanonical]

/-! ### The key state (R160) -/

theorem fieldAdd_zero_left {f : Field} {a : Elem} (ha : a < fieldCard f) : fieldAdd f 0 a = a := by
  cases f with
  | prime p => exact (congrArg (· % p) (Nat.zero_add a)).trans (Nat.mod_eq_of_lt ha)
  | binary n poly => exact Nat.zero_xor a

/-- Coordinate 3 holds the nonce, on top of a key element only when there are four (R160). -/
theorem keyVector_c3 {s : State} (hk : s.klen.toNat ≤ 4) (hn : s.nonce.toNat < fieldCard s.field) :
    (keyVector s).c3 =
      if s.klen.toNat = 4 then fieldAdd s.field s.mkey.c3.toNat s.nonce.toNat else s.nonce.toNat := by
  have hc3 : (keyVector s).c3 =
      fieldAdd s.field (if 3 < s.klen.toNat then s.mkey.c3.toNat else 0) s.nonce.toNat := rfl
  rw [hc3]
  by_cases h4 : s.klen.toNat = 4
  · rw [if_pos (by omega), if_pos h4]
  · rw [if_neg (by omega), if_neg h4, fieldAdd_zero_left hn]

/-- The slots of S after KEYSTATE: the key elements in use as they stand, and one new value (R160). -/
theorem rawQuad_keyVector (s : State) :
    rawQuad (keyVector s) =
      ⟨if 0 < s.klen.toNat then s.mkey.c0 else 0, if 1 < s.klen.toNat then s.mkey.c1 else 0,
        if 2 < s.klen.toNat then s.mkey.c2 else 0, rawOf (keyVector s).c3⟩ := by
  have hslot (c : Prop) [Decidable c] (r : Raw) : rawOf (if c then r.toNat else 0) = if c then r else 0 := by
    split
    · exact rawOf_toNat r
    · rfl
  simp only [← hslot]
  rfl

/-! ### KEYSTATE (R161) -/

/-- Of the checks of R228, KEYSTATE has that of KLEN and that of the key operands. -/
theorem check_keystate (s : State) :
    check .keystate s =
      if 4 < s.klen.toNat then .dimensionError
      else if (keyElems s ++ [s.nonce.toNat]).any fun v => !canonical s.field v then .fieldMismatch
      else .ok := by
  simp [check, Instr.len, Config.maxBlocks, readsKey, commitsTo, needsValid, elementOperands]

theorem check_keystate_eq_dimensionError {s : State} (hk : 4 < s.klen.toNat) :
    check .keystate s = .dimensionError := by
  rw [check_keystate, if_pos hk]

theorem check_keystate_eq_fieldMismatch {s : State} (hk : s.klen.toNat ≤ 4) (hkey : ¬ KeyCanonical s) :
    check .keystate s = .fieldMismatch := by
  rw [check_keystate, if_neg hk.not_gt, eq_true_of_ne_false (mt (any_not_canonical_key hk).1 hkey)]
  rfl

theorem check_keystate_eq_ok {s : State} (hk : s.klen.toNat ≤ 4) (hkey : KeyCanonical s) :
    check .keystate s = .ok := by
  rw [check_keystate, if_neg hk.not_gt, (any_not_canonical_key hk).2 hkey]
  rfl

theorem exec_keystate_of_check_ok {s : State} (hrest : AtRest s) (hc : check .keystate s = .ok) :
    exec .keystate s = .next (completionFields 0 { s with sreg := rawQuad (keyVector s) }) := by
  rw [exec, execKeystate, if_pos hc]
  exact congrArg _ (complete_atRest (hrest.congr rfl) .ok)

theorem exec_keystate_of_check_error {s : State} (hrest : AtRest s) {c : ResultCode} (hc : check .keystate s = c)
    (hne : c ≠ .ok) : exec .keystate s = .next (completionFields c.code s) := by
  subst hc
  rw [exec, execKeystate, if_neg hne, complete_atRest hrest]

/-- Settles O19: the two checks tell the outcomes apart, and past them S becomes the key state, slot by slot. -/
theorem keystateBuildsTheKeyState : Obligations.KeystateBuildsTheKeyState := by
  refine ⟨decode_eq_command_iff.2 rfl, fun s hrest hf => ⟨fun hk hkey => ?_, fun hk => ?_, fun hk hkey => ?_⟩⟩
  · have hc := check_keystate_eq_ok hk hkey
    obtain ⟨-, -, -, hlast⟩ := (quadCanonical_iff _ _).1 (keyVector_of_check hc (.inl rfl) hf)
    have hexec := exec_keystate_of_check_ok hrest hc
    rw [rawQuad_keyVector] at hexec
    rw [keyVector_c3 hk hkey.2] at hlast hexec
    exact ⟨hlast, hexec⟩
  · exact exec_keystate_of_check_error hrest (check_keystate_eq_dimensionError hk) (by simp)
  · exact exec_keystate_of_check_error hrest (check_keystate_eq_fieldMismatch hk hkey) (by simp)

/-! ### SCHEDULE (R163 to R166) -/

/-- Of the checks of R228, SCHEDULE has that of its length, that of the large permutation and that of S. -/
theorem check_schedule_eq_ok {s : State} {n : Nat} (hn : n ≤ 1024) (hv : s.validL = true) (hs : SregCanonical s) :
    check (.schedule n) s = .ok := by
  have hlen : ¬ Config.maxBlocks < n := hn.not_gt
  have hel : ((elementOperands (.schedule n) s).any fun v => !canonical s.field v) = false :=
    any_not_canonical_sreg.2 hs
  simp [check, Instr.len, hlen, readsKey, commitsTo, needsValid, State.valid, hv, hel]

/-- EK[0 .. n-1] written with the schedule of S in closed form (R163, R166). -/
def scheduled (s : State) (n : Nat) : State :=
  writeBank .ek ((List.range n).map (expandedKey s.field (permutation s .large (stateVector s)))) s

/-- Past its checks and under the contract SCHEDULE makes the requests of `P_L(S)` and writes EK (R163, R164). -/
theorem exec_schedule_honest {s : State} {n : Nat} (hrest : AtRest s) (hf : Config.fieldWf s.field = true)
    (hu : Honest s.rfu) (hc : check (.schedule n) s = .ok) :
    exec (.schedule n) s = .next (completionFields 0
      { s with
        mem := (scheduled s n).mem
        rfu := afterRequests s.rfu (permRequests s .large (stateVector s)) }) := by
  rw [exec, execSchedule, scheduleCommand, if_pos hc, perm_honest hf .large _ hu]
  simp only [finishSchedule, extractStream_closed]
  exact congrArg _ (complete_atRest (hrest.congr rfl) .ok)

/-- The expanded key is of field elements, which fit a slot, so each slot reads back as written (R33, R166). -/
theorem slotNat_scheduled {s : State} {n j : Nat} (hf : Config.fieldWf s.field = true)
    (hs : quadCanonical s.field (stateVector s) = true) (hj : j < n) :
    slotNat (scheduled s n) .ek j = expandedKey s.field (permutation s .large (stateVector s)) j := by
  have hlt := expandedKey_lt hf (permutation_canonical hf .large hs) j
  have hfit := hlt.trans_le (fieldCard_le_storage s.field)
  rw [scheduled, slotNat_writeBank (fieldWords_le hf) (by simpa using hj) (by simpa using hfit)]
  simp

theorem bankByte_scheduled_out {s : State} {n a : Nat} (ha : OutsideSlots s .ek n a) :
    bankByte (scheduled s n) a = bankByte s a :=
  bankByte_writeBank_out (by simpa [OutsideSlots] using ha)

/-- Settles O20: the bank write of the closed form fills the slots below `n` and keeps every other byte. -/
theorem scheduleExpandsTheKey : Obligations.ScheduleExpandsTheKey := by
  intro s n hrest hf hu hn hv hs
  have hc := check_schedule_eq_ok hn hv hs
  exact ⟨(scheduled s n).mem, exec_schedule_honest hrest hf hu hc,
    fun _ => slotNat_scheduled hf (stateVector_canonical hc rfl), fun _ => bankByte_scheduled_out⟩

/-- Settles O21: for length 0 the bank write is empty, and the requests of `P_L(S)` are still made. -/
theorem scheduleOfLengthZeroRunsThePermutation : Obligations.ScheduleOfLengthZeroRunsThePermutation :=
  fun _ hrest hf hu hv hs => exec_schedule_honest hrest hf hu (check_schedule_eq_ok (Nat.zero_le _) hv hs)

end Sys2Proof.Machine
end

section
/-! PROOFS. The transform (spec/43_transform.md R180 to R186): ENCRYPT and DECRYPT are one command in two directions, and
under the contract of the round-function unit it writes the blocks and the tag of the rules. -/

namespace Sys2Proof.Machine

theorem exists_eq_transformInstr {i : Instr} {m : Nat} (hi : i = .encrypt m ∨ i = .decrypt m) :
    ∃ dir, i = transformInstr dir m := by
  rcases hi with rfl | rfl
  · exact ⟨.encrypting, rfl⟩
  · exact ⟨.decrypting, rfl⟩

/-! ### The checks (R183, R228) -/

/-- Of the checks of R228, the transform has that of its length, of KLEN, of both instances and of its operands. -/
theorem check_transformInstr (dir : Direction) (m : Nat) (s : State) :
    check (transformInstr dir m) s =
      if 1024 < m then .lengthError
      else if 4 < s.klen.toNat then .dimensionError
      else if !s.validL || !s.validS then .configError
      else if (keyElems s ++ [s.nonce.toNat] ++ bankList s .din m).any fun v => !canonical s.field v then .fieldMismatch
      else .ok := by
  cases dir <;>
    simp [check, transformInstr, Instr.len, Config.maxBlocks, readsKey, commitsTo, needsValid, State.valid,
      elementOperands]

theorem any_not_canonical_transform {s : State} {m : Nat} (hk : s.klen.toNat ≤ 4) :
    ((keyElems s ++ [s.nonce.toNat] ++ bankList s .din m).any fun v => !canonical s.field v) = false ↔
      KeyCanonical s ∧ ∀ j < m, slotNat s .din j < fieldCard s.field := by
  rw [List.any_append, Bool.or_eq_false_iff, any_not_canonical_key hk, any_not_canonical_bankList]

theorem check_transformInstr_eq_ok_iff {dir : Direction} {m : Nat} {s : State} :
    check (transformInstr dir m) s = .ok ↔ TransformReady s m := by
  rw [check_transformInstr]
  constructor
  · intro hc
    split_ifs at hc with hm hk hv hel
    obtain ⟨hvL, hvS⟩ : s.validL = true ∧ s.validS = true := by simpa using hv
    have hk : s.klen.toNat ≤ 4 := Nat.le_of_not_lt hk
    obtain ⟨hkey, hblocks⟩ := (any_not_canonical_transform hk).1 (eq_false_of_ne_true hel)
    exact ⟨Nat.le_of_not_lt hm, hk, hvL, hvS, hkey, hblocks⟩
  · rintro ⟨hm, hk, hvL, hvS, hkey, hblocks⟩
    rw [if_neg hm.not_gt, if_neg hk.not_gt, hvL, hvS, (any_not_canonical_transform hk).2 ⟨hkey, hblocks⟩]
    rfl

/-- A transform that ends with code 0 has passed its checks (R230). -/
theorem transformReady_of_errCode {dir : Direction} {m : Nat} {s t : State}
    (e : exec (transformInstr dir m) s = .next t) (h0 : t.errCode = 0) : TransformReady s m := by
  rw [exec_transformInstr, Host.Outcome.next.injEq] at e
  by_contra hready
  have hc := mt (check_transformInstr_eq_ok_iff (dir := dir)).1 hready
  have hcode : (check (transformInstr dir m) s).code = 0 := by
    rw [← h0, ← e, transformCommand, if_neg hc, complete_errCode]
  revert hc hcode
  cases check (transformInstr dir m) s <;> decide

/-! ### The values are elements (R180 to R182) -/

theorem keyVector_of_ready {s : State} {m : Nat} (hf : Config.fieldWf s.field = true) (h : TransformReady s m) :
    quadCanonical s.field (keyVector s) = true :=
  keyVector_of_check (check_transformInstr_eq_ok_iff (dir := .encrypting).2 h) (.inr ⟨m, .inl rfl⟩) hf

theorem bootstrap_canonical {s : State} {m : Nat} (hf : Config.fieldWf s.field = true) (h : TransformReady s m) :
    quadCanonical s.field (bootstrap s) = true :=
  permutation_canonical hf .large (keyVector_of_ready hf h)

theorem mask_lt {s : State} {m : Nat} (hf : Config.fieldWf s.field = true) (h : TransformReady s m) (i : Nat) :
    mask s i < fieldCard s.field := by
  have hseed := maskSeed_canonical hf (expandedKey_lt hf (bootstrap_canonical hf h) i)
  exact ((quadCanonical_iff _ _).1 (permutation_canonical hf .small hseed)).1

theorem blockAt_canonical {s : State} {m i : Nat} (hf : Config.fieldWf s.field = true) (h : TransformReady s m)
    (dir : Direction) (hi : i < m) : BlockCanonical s.field (blockAt s dir i (slotNat s .din i)) :=
  blockOf_canonical hf dir (expandedKey_lt hf (bootstrap_canonical hf h) i) (mask_lt hf h i) (h.blocks i hi)

theorem tagOf_lt {s : State} {m : Nat} (hf : Config.fieldWf s.field = true) (h : TransformReady s m)
    (dir : Direction) : tagOf s (messageOf s dir) m < fieldCard s.field := by
  have hacc : quadCanonical s.field (accumulator s (messageOf s dir) m) = true := by
    rw [← accumulator_eq_foldl]
    refine foldl_canonical hf _ (tagStart_canonical hf (bootstrap_canonical hf h)) fun b hb => ?_
    obtain ⟨i, hi, rfl⟩ := List.mem_map.1 hb
    exact blockAt_canonical hf h dir (List.mem_range.1 hi)
  exact ((quadCanonical_iff _ _).1 (permutation_canonical hf .large hacc)).1

/-! ### The command under the contract (R183, R186) -/

/-- DOUT[0 .. m-1] written with the output blocks (R183, R186). -/
def transformed (s : State) (dir : Direction) (m : Nat) : State :=
  writeBank .dout ((List.range m).map fun j => (blockAt s dir j (slotNat s .din j)).out) s

/-- The end of a transform of `m` blocks with code 0: DOUT and TAG written, its requests made (R183, R184, R186). -/
def transformDone (s : State) (dir : Direction) (m : Nat) : State :=
  complete .ok
    { transformed s dir m with
      tag := rawOf (tagOf s (messageOf s dir) m)
      rfu := afterRequests s.rfu (transformRequests s (messageOf s dir) m) }

theorem exec_transformInstr_honest {s : State} {m : Nat} (hf : Config.fieldWf s.field = true) (hu : Honest s.rfu)
    (h : TransformReady s m) (dir : Direction) :
    exec (transformInstr dir m) s = .next (transformDone s dir m) := by
  rw [exec_transformInstr, transformCommand, if_pos (check_transformInstr_eq_ok_iff.2 h), transform_honest hf hu]
  simp only [finishTransform, List.map_map]
  rfl

/-- Each output block fits a slot, so each slot reads back as written (R33). -/
theorem slotNat_transformed {s : State} {m i : Nat} (hf : Config.fieldWf s.field = true) (h : TransformReady s m)
    (dir : Direction) (hi : i < m) :
    slotNat (transformed s dir m) .dout i = (blockAt s dir i (slotNat s .din i)).out := by
  obtain ⟨-, -, hlt⟩ := blockAt_canonical hf h dir hi
  have hfit := hlt.trans_le (fieldCard_le_storage s.field)
  rw [transformed, slotNat_writeBank (fieldWords_le hf) (by simpa using hi) (by simpa using hfit)]
  simp

theorem slotNat_transformDone {s : State} {m i : Nat} (hf : Config.fieldWf s.field = true) (h : TransformReady s m)
    (dir : Direction) (hi : i < m) :
    slotNat (transformDone s dir m) .dout i = (blockAt s dir i (slotNat s .din i)).out :=
  (slotNat_congr_mem rfl rfl rfl _ _).trans (slotNat_transformed hf h dir hi)

theorem bankByte_transformed_out {s : State} {dir : Direction} {m a : Nat} (ha : OutsideSlots s .dout m a) :
    bankByte (transformed s dir m) a = bankByte s a :=
  bankByte_writeBank_out (by simpa [OutsideSlots] using ha)

/-- What a transform in either direction leaves, and where (R183, R184, R186). -/
theorem transformInstr_outcome {s : State} {m : Nat} (dir : Direction) (hrest : AtRest s)
    (hf : Config.fieldWf s.field = true) (hu : Honest s.rfu) (h : TransformReady s m) :
    tagOf s (messageOf s dir) m < fieldCard s.field ∧
    ∃ mem, exec (transformInstr dir m) s = .next (completionFields 0
        { s with
          mem := mem
          tag := BitVec.ofNat 256 (tagOf s (messageOf s dir) m)
          rfu := afterRequests s.rfu (transformRequests s (messageOf s dir) m) }) ∧
      (∀ i < m, slotNat { s with mem := mem } .dout i = (blockAt s dir i (slotNat s .din i)).out) ∧
      ∀ a, OutsideSlots s .dout m a → bankByte { s with mem := mem } a = bankByte s a := by
  refine ⟨tagOf_lt hf h dir, (transformed s dir m).mem, ?_, fun _ => slotNat_transformed hf h dir,
    fun _ => bankByte_transformed_out⟩
  rw [exec_transformInstr_honest hf hu h]
  exact congrArg _ (complete_atRest (hrest.congr rfl) .ok)

/-- Settles O22: the transform's outcome, the message being DIN and each output block `DIN[i] +F z_i`. -/
theorem encryptComputesCiphertextAndTag : Obligations.EncryptComputesCiphertextAndTag :=
  fun _ _ hrest hf hu h => transformInstr_outcome .encrypting hrest hf hu h

/-- Settles O23: the transform's outcome, the message and the output blocks both being `DIN[i] -F z_i`. -/
theorem decryptRecoversMessageAndTag : Obligations.DecryptRecoversMessageAndTag :=
  fun _ _ hrest hf hu h => transformInstr_outcome .decrypting hrest hf hu h

/-! ### No blocks (R185) -/

theorem transformRequests_zero (s : State) (msg : Nat → Elem) :
    transformRequests s msg 0 =
      permRequests s .large (keyVector s) ++ permRequests s .large (tagStart s.field (bootstrap s)) := by
  rw [transformRequests, List.range_zero, List.flatMap_nil, List.append_nil]
  rfl

/-- Settles O25: with no blocks no slot is written, and the tag is taken of the accumulator's start. -/
theorem emptyMessageHasATag : Obligations.EmptyMessageHasATag := by
  intro s hrest hf hu h k0 acc i hi
  obtain ⟨dir, rfl⟩ := exists_eq_transformInstr hi
  rw [exec_transformInstr_honest hf hu h, transformDone, transformRequests_zero]
  exact congrArg _ (complete_atRest (hrest.congr rfl) .ok)

/-! ### The order of the requests (R184) -/

theorem map_sel_permRequests (s : State) (x : Sel) (t : Quad Elem) :
    (permRequests s x t).map RfRequest.sel = List.replicate (s.rounds x) x := by
  simp [permRequests, Function.comp_def]

theorem map_round_permRequests (s : State) (x : Sel) (t : Quad Elem) :
    (permRequests s x t).map RfRequest.round = List.range (s.rounds x) := by
  simp [permRequests, Function.comp_def]

/-- What of a request is the same in every computation of an instance comes in the order of rule R184. -/
theorem map_transformRequests {α : Type} {s : State} {g : RfRequest → α} {large small : List α}
    (hl : ∀ t, (permRequests s .large t).map g = large) (hs : ∀ t, (permRequests s .small t).map g = small)
    (msg : Nat → Elem) (m : Nat) :
    (transformRequests s msg m).map g = large ++ (List.replicate m small).flatten ++ large := by
  simp only [transformRequests, List.map_append, List.map_flatMap, hl, hs]
  rw [List.flatMap_def, List.map_const', List.length_range]

/-- Settles O26: the requests of the transform, counted and told apart by instance and round. -/
theorem transformRequestOrder : Obligations.TransformRequestOrder := by
  intro s t m i hi hf hu h e
  obtain ⟨dir, rfl⟩ := exists_eq_transformInstr hi
  rw [exec_transformInstr_honest hf hu h] at e
  cases e
  refine ⟨transformRequests s (messageOf s dir) m, rfl, ?_, ?_, ?_⟩
  · rw [length_transformRequests]
    omega
  · rw [map_transformRequests (map_sel_permRequests s .large) (map_sel_permRequests s .small),
      List.flatten_replicate_replicate]
  · exact map_transformRequests (map_round_permRequests s .large) (map_round_permRequests s .small) _ m

end Sys2Proof.Machine
end

section
/-! PROOFS. What the transform depends on (spec/43_transform.md R187 to R189): the field, the key operands, the committed
instances and the input blocks. -/

namespace Sys2Proof.Machine

/-! ### The same operands -/

/-- The two states agree on all that the transform reads beside its blocks: the key operands and both instances (R94). -/
structure SameKeyed (s s' : State) : Prop where
  klen : s'.klen = s.klen
  nonce : s'.nonce = s.nonce
  key : ∀ j < s.klen.toNat, quadGet s'.mkey j = quadGet s.mkey j
  perm : ∀ x, SamePerm s s' x

/-- The two states agree on the first `m` input blocks. -/
def SameBlocks (s s' : State) (m : Nat) : Prop := ∀ j < m, slotNat s' .din j = slotNat s .din j

theorem SameKeyed.field {s s' : State} (h : SameKeyed s s') : s'.field = s.field := (h.perm .large).field

theorem sameKeyed_of_tables {s s' : State} (hfield : s'.field = s.field) (hklen : s'.klen = s.klen)
    (hnonce : s'.nonce = s.nonce) (hkey : ∀ j < s.klen.toNat, quadGet s'.mkey j = quadGet s.mkey j)
    (hrounds : ∀ x, s'.rounds x = s.rounds x)
    (htable : ∀ x, ∀ j < 4 * s.rounds x, slotNat s' (rcBank x) j = slotNat s (rcBank x) j) : SameKeyed s s' :=
  ⟨hklen, hnonce, hkey, fun x => ⟨hfield, hrounds x, fun _ => roundConstants_congr_table (htable x)⟩⟩

theorem quadGet_elemQuad (q : Quad Raw) (j : Nat) : quadGet (elemQuad q) j = (quadGet q j).toNat := by
  unfold quadGet
  split <;> rfl

theorem keyVector_congr {s s' : State} (h : SameKeyed s s') : keyVector s' = keyVector s := by
  have hslot (j : Nat) :
      (if j < s.klen.toNat then quadGet (elemQuad s'.mkey) j else 0) =
        if j < s.klen.toNat then quadGet (elemQuad s.mkey) j else 0 := by
    split
    · next hj => rw [quadGet_elemQuad, quadGet_elemQuad, h.key j hj]
    · rfl
  simp only [keyVector, keyState, h.klen, h.nonce, h.field, hslot]

theorem bootstrap_congr {s s' : State} (h : SameKeyed s s') : bootstrap s' = bootstrap s := by
  rw [bootstrap, keyVector_congr h, permutation_congr (h.perm .large), bootstrap]

theorem mask_congr {s s' : State} (h : SameKeyed s s') (i : Nat) : mask s' i = mask s i := by
  rw [mask, bootstrap_congr h, h.field, permutation_congr (h.perm .small), mask]

theorem blockAt_congr {s s' : State} (h : SameKeyed s s') (dir : Direction) (i : Nat) (d : Elem) :
    blockAt s' dir i d = blockAt s dir i d := by
  rw [blockAt, bootstrap_congr h, mask_congr h, h.field, blockAt]

theorem accumulator_congr {s s' : State} (h : SameKeyed s s') {msg msg' : Nat → Elem} {m : Nat}
    (hmsg : ∀ i < m, msg' i = msg i) : accumulator s' msg' m = accumulator s msg m := by
  induction m with
  | zero => simp only [accumulator, bootstrap_congr h, h.field]
  | succ m ih =>
    have hprev := ih fun i hi => hmsg i (Nat.lt_succ_of_lt hi)
    simp only [accumulator, hprev, bootstrap_congr h, h.field, hmsg m (Nat.lt_succ_self m)]

/-- The tag is of key, nonce, committed instances and message alone (R182). -/
theorem tagOf_congr {s s' : State} (h : SameKeyed s s') {msg msg' : Nat → Elem} {m : Nat}
    (hmsg : ∀ i < m, msg' i = msg i) : tagOf s' msg' m = tagOf s msg m := by
  rw [tagOf, accumulator_congr h hmsg, permutation_congr (h.perm .large), tagOf]

theorem keyCanonical_congr {s s' : State} (h : SameKeyed s s') (hk : KeyCanonical s) : KeyCanonical s' := by
  obtain ⟨hkey, hnonce⟩ := hk
  refine ⟨fun j hj => ?_, ?_⟩
  · rw [h.klen] at hj
    rw [h.key j hj, h.field]
    exact hkey j hj
  · rw [h.nonce, h.field]
    exact hnonce

/-! ### Determinism (R189) -/

/-- A transform with code 0 under the contract has passed its checks, and its end state is known (R183, R186). -/
theorem ready_and_done {s t : State} {dir : Direction} {m : Nat} (hf : Config.fieldWf s.field = true)
    (hu : Honest s.rfu) (e : exec (transformInstr dir m) s = .next t) (h0 : t.errCode = 0) :
    TransformReady s m ∧ t = transformDone s dir m := by
  have hready := transformReady_of_errCode e h0
  rw [exec_transformInstr_honest hf hu hready, Host.Outcome.next.injEq] at e
  exact ⟨hready, e.symm⟩

/-- Settles O30: the blocks and the tag of the end state are functions of the operands. -/
theorem transformIsDeterminedByItsOperands : Obligations.TransformIsDeterminedByItsOperands := by
  intro s s' t t' m i hi hf hu hu' hfield hklen hnonce hkey hinst hdin e e' h0 h0'
  have hsame := sameKeyed_of_tables hfield hklen hnonce hkey (fun x => (hinst x).1) fun x => (hinst x).2
  have hf' : Config.fieldWf s'.field = true := hfield ▸ hf
  obtain ⟨dir, rfl⟩ := exists_eq_transformInstr hi
  obtain ⟨hready, rfl⟩ := ready_and_done hf hu e h0
  obtain ⟨hready', rfl⟩ := ready_and_done hf' hu' e' h0'
  have hblock (j : Nat) (hj : j < m) :
      blockAt s' dir j (slotNat s' .din j) = blockAt s dir j (slotNat s .din j) := by
    rw [blockAt_congr hsame, hdin j hj]
  refine ⟨congrArg rawOf (tagOf_congr hsame fun j hj => congrArg Block.msg (hblock j hj)), fun j hj => ?_⟩
  rw [slotNat_transformDone hf' hready' dir hj, slotNat_transformDone hf hready dir hj, hblock j hj]

/-! ### The round trip (R187) -/

/-- The block decrypted from an encrypted one is the message block, for the tag and as output (R183, R186). -/
theorem blockAt_decrypting_encrypted {s : State} {m i : Nat} (hf : Config.fieldWf s.field = true)
    (h : TransformReady s m) (hi : i < m) :
    let b := blockAt s .decrypting i (blockAt s .encrypting i (slotNat s .din i)).out
    b.msg = slotNat s .din i ∧ b.out = slotNat s .din i :=
  have hundo := fieldSub_fieldAdd (h.blocks i hi) (mask_lt hf h i)
  ⟨hundo, hundo⟩

/-- Settles O24: the ciphertext passes DECRYPT's checks, and each of its blocks decrypts to the message block. -/
theorem decryptUndoesEncrypt : Obligations.DecryptUndoesEncrypt := by
  intro s t u m hf hu e h0 hu' hfield hklen hnonce hkey hinst hdin
  have hsame := sameKeyed_of_tables hfield hklen hnonce hkey (fun x => (hinst x).2.1) fun x => (hinst x).2.2
  have hf' : Config.fieldWf u.field = true := hfield ▸ hf
  obtain ⟨hready, rfl⟩ := ready_and_done (dir := .encrypting) hf hu e h0
  have hcipher (i : Nat) (hi : i < m) :
      slotNat u .din i = (blockAt s .encrypting i (slotNat s .din i)).out :=
    (hdin i hi).trans (slotNat_transformDone hf hready .encrypting hi)
  have hready' : TransformReady u m :=
    { length := hready.length
      klen := hklen ▸ hready.klen
      validL := (hinst .large).1.trans hready.validL
      validS := (hinst .small).1.trans hready.validS
      key := keyCanonical_congr hsame hready.key
      blocks := fun i hi => by
        rw [hcipher i hi, hfield]
        exact (blockAt_canonical hf hready .encrypting hi).2.2 }
  have hback (i : Nat) (hi : i < m) :
      let b := blockAt u .decrypting i (slotNat u .din i)
      b.msg = slotNat s .din i ∧ b.out = slotNat s .din i := by
    rw [blockAt_congr hsame, hcipher i hi]
    exact blockAt_decrypting_encrypted hf hready hi
  have hexec := exec_transformInstr_honest hf' hu' hready' .decrypting
  refine ⟨transformDone u .decrypting m, hexec, rfl, ?_, fun i hi => ?_⟩
  · exact congrArg rawOf (tagOf_congr hsame fun i hi => (hback i hi).1)
  · rw [slotNat_transformDone hf' hready' .decrypting hi]
    exact (hback i hi).2

/-! ### S and EK (R188): whatever the unit answers -/

theorem transform_congr {s s' : State} (h : SameKeyed s s') {m : Nat} (hb : SameBlocks s s' m) (hu : s'.rfu = s.rfu)
    (dir : Direction) : transform s' dir m = transform s dir m := by
  simp only [transform, keyVector_congr h, perm_congr (h.perm .large), blockLoop_congr (h.perm .small),
    bankList_congr hb, hu, h.field]

theorem length_blocks_of_transform {s : State} {dir : Direction} {m : Nat} {bs : List Block} {tag : Elem} {u : Rfu}
    (hf : Config.fieldWf s.field = true) (h : TransformReady s m)
    (e : transform s dir m = (some (bs, tag), u)) : bs.length = m := by
  have hdin : ∀ d ∈ bankList s .din m, d < fieldCard s.field := fun d hd => by
    obtain ⟨j, hj, rfl⟩ := mem_bankList.1 hd
    exact h.blocks j hj
  unfold transform at e
  split at e
  · cases e
  · next k0 u1 hboot =>
    split at e
    · cases e
    · next bs' u2 hloop =>
      split at e <;> cases e
      obtain ⟨hlen, -⟩ := blockLoop_canonical hf dir _ hdin (perm_canonical (keyVector_of_ready hf h) hboot) hloop
      rw [hlen, length_bankList]

/-- A transform's end: its code, what it writes to DOUT and TAG, and the unit it leaves (R230, R231, R242). -/
def transformEnd (c : ResultCode) (vs : List Elem) (tag : Raw) (u : Rfu) (s : State) : State :=
  complete c { writeBank .dout vs s with tag := tag, rfu := u }

/-- The two states are alike to a transform of `m` blocks: its checks, its computation, TAG and the unit. -/
structure SameRun (dir : Direction) (m : Nat) (s s' : State) : Prop where
  checks : check (transformInstr dir m) s' = check (transformInstr dir m) s
  computes : check (transformInstr dir m) s = .ok → transform s' dir m = transform s dir m
  tag : s'.tag = s.tag
  rfu : s'.rfu = s.rfu

/-- From all states alike to it a transform writes the same, and to at most 1024 slots of DOUT. -/
theorem exists_transformEnd {s : State} (hf : Config.fieldWf s.field = true) (dir : Direction) (m : Nat) :
    ∃ c vs tag u, vs.length ≤ 1024 ∧ ∀ s', SameRun dir m s s' →
      transformCommand dir m (transformInstr dir m) s' = transformEnd c vs tag u s' := by
  by_cases hc : check (transformInstr dir m) s = .ok
  · have hready := check_transformInstr_eq_ok_iff.1 hc
    rcases hrun : transform s dir m with ⟨_ | ⟨bs, tag⟩, u⟩
    · refine ⟨.roundFault, List.replicate m 0, 0, u, by simpa using hready.length, fun s' h => ?_⟩
      rw [transformCommand, if_pos (h.checks.trans hc), h.computes hc, hrun]
      cases dir <;> rfl
    · have hlen := length_blocks_of_transform hf hready hrun
      refine ⟨.ok, bs.map Block.out, rawOf tag, u, by simpa [hlen] using hready.length, fun s' h => ?_⟩
      rw [transformCommand, if_pos (h.checks.trans hc), h.computes hc, hrun]
      rfl
  · refine ⟨check (transformInstr dir m) s, [], s.tag, s.rfu, by simp, fun s' h => ?_⟩
    rw [transformCommand, if_neg (h.checks ▸ hc), h.checks, ← h.tag, ← h.rfu]
    rfl

/-- A byte after a bank write is the one written there, if any (R80). -/
theorem bankByte_writeBank (b : Bank) (vs : List Elem) (s : State) (a : Nat) :
    bankByte (writeBank b vs s) a =
      (Memory.byteAt (slotCells (fieldWords s.field) b 0 vs) a).getD (bankByte s a) := by
  simp only [bankByte, writeBank_mem, writeBank_past, Memory.byteAt_putAll]
  cases Memory.byteAt (slotCells (fieldWords s.field) b 0 vs) a <;> rfl

theorem bankByte_transformEnd_congr {s s' : State} (hfield : s'.field = s.field) {a : Nat}
    (ha : bankByte s' a = bankByte s a) (c : ResultCode) (vs : List Elem) (tag : Raw) (u : Rfu) :
    bankByte (transformEnd c vs tag u s') a = bankByte (transformEnd c vs tag u s) a := by
  have hwrite : bankByte (writeBank .dout vs s') a = bankByte (writeBank .dout vs s) a := by
    rw [bankByte_writeBank, bankByte_writeBank, hfield, ha]
  exact hwrite

/-- EK lies above DOUT (R61), so the transform leaves its bytes alone (R188). -/
theorem bankByte_transformEnd_ek {s : State} (hew : fieldWords s.field ≤ 8) {vs : List Elem} (hvs : vs.length ≤ 1024)
    {a : Nat} (ha : Bank.ek.base ≤ a) (c : ResultCode) (tag : Raw) (u : Rfu) :
    bankByte (transformEnd c vs tag u s) a = bankByte s a := by
  have hwrite : bankByte (writeBank .dout vs s) a = bankByte s a :=
    bankByte_writeBank_out fun i hi k hk => by simp only [slotAddr, Bank.base] at ha ⊢; omega
  exact hwrite

/-- The slots of the banks below EK are read below EK (R61). -/
theorem slotNat_congr_below_ek {s s' : State} (hfield : s'.field = s.field) (hew : fieldWords s.field ≤ 8)
    (h : ∀ a < Bank.ek.base, bankByte s' a = bankByte s a) {b : Bank} (hb : b ≠ .ek) {j : Nat} (hj : j < 1024) :
    slotNat s' b j = slotNat s b j := by
  refine slotNat_congr hfield fun k hk => h _ ?_
  cases b with
  | ek => exact absurd rfl hb
  | rcL | rcS | din | dout => simp only [slotAddr, Bank.base]; omega

/-- States that differ in S and EK alone are alike to the transform (R188). -/
theorem sameRun_of_below_ek {s : State} {q : Quad Raw} {mem : Memory} (hf : Config.fieldWf s.field = true)
    (hrounds : ∀ x, s.valid x = true → s.rounds x ≤ 256)
    (h : ∀ a < Bank.ek.base, bankByte { s with mem := mem } a = bankByte s a) (dir : Direction) (m : Nat) :
    SameRun dir m s { s with sreg := q, mem := mem } := by
  have hslot {b : Bank} (hb : b ≠ .ek) {j : Nat} (hj : j < 1024) :
      slotNat { s with sreg := q, mem := mem } b j = slotNat s b j :=
    slotNat_congr_below_ek (s := s) (s' := { s with sreg := q, mem := mem }) rfl (fieldWords_le hf) h hb hj
  have hdin (hm : m ≤ 1024) : SameBlocks s { s with sreg := q, mem := mem } m :=
    fun j hj => hslot (by decide) (hj.trans_le hm)
  refine ⟨?_, fun hc => ?_, rfl, rfl⟩
  · rw [check_transformInstr, check_transformInstr]
    by_cases hm : 1024 < m
    · rw [if_pos hm, if_pos hm]
    · rw [bankList_congr (hdin (Nat.le_of_not_lt hm))]
      rfl
  · have hready := check_transformInstr_eq_ok_iff.1 hc
    have hkeyed : SameKeyed s { s with sreg := q, mem := mem } := by
      refine sameKeyed_of_tables rfl rfl rfl (fun _ _ => rfl) (fun x => by cases x <;> rfl) fun x j hj => ?_
      have hx : s.rounds x ≤ 256 := hrounds x (by cases x; exacts [hready.validL, hready.validS])
      exact hslot (by cases x <;> decide) (by omega)
    exact transform_congr hkeyed (hdin hready.length) rfl dir

/-- Settles O29: both runs end with the same writes, to DOUT and TAG alone. -/
theorem transformIgnoresAndKeepsSAndEk : Obligations.TransformIgnoresAndKeepsSAndEk := by
  intro s t t' m i q mem hi hf hrounds hbytes e e'
  obtain ⟨dir, rfl⟩ := exists_eq_transformInstr hi
  obtain ⟨c, vs, tag, u, hvs, hend⟩ := exists_transformEnd hf dir m
  rw [exec_transformInstr, Host.Outcome.next.injEq] at e e'
  have ht : t = transformEnd c vs tag u s := e ▸ hend s ⟨rfl, fun _ => rfl, rfl, rfl⟩
  have ht' : t' = transformEnd c vs tag u { s with sreg := q, mem := mem } :=
    e' ▸ hend _ (sameRun_of_below_ek hf hrounds hbytes dir m)
  subst ht ht'
  refine ⟨atRest_complete _ _, rfl, fun a ha => bankByte_transformEnd_ek (fieldWords_le hf) hvs ha c tag u, rfl, rfl,
    rfl, fun a ha => ?_⟩
  exact bankByte_transformEnd_congr (s := s) (s' := { s with sreg := q, mem := mem }) rfl (hbytes a ha) c vs tag u

end Sys2Proof.Machine
end

section
/-! PROOFS. The control commands (spec/44_control.md R210, R211): NOP completes and no more; ZEROIZE writes zeros over
DIN, DOUT and EK and clears the secret-bearing registers. -/

namespace Sys2Proof.Machine

/-- NOP has no results, so from rest its completion fields are all it writes (R210, R242). -/
theorem exec_nop {s : State} (hrest : AtRest s) : exec .nop s = .next (completionFields 0 s) :=
  congrArg _ (complete_atRest hrest .ok)

/-- Code 0 leaves ERR as it was (R242). -/
theorem completionFields_zero (s : State) :
    completionFields 0 s = { s with errCode := 0, busy := false, done := true, pending := none } := by
  simp [completionFields]

/-- Settles O11: NOP writes the completion fields with code 0, which keep ERR. -/
theorem nopOnlyCompletes : Obligations.NopOnlyCompletes := by
  refine ⟨by decide, fun s hrest => ?_⟩
  rw [exec_nop hrest, completionFields_zero]

/-- Zeros written to the first `n` slots of a bank make these 0 and keep those of the other banks. -/
theorem slotNat_writeBank_zeros {s : State} (hew : fieldWords s.field ≤ 8) (b b' : Bank) {n j : Nat} (hn : n ≤ 1024)
    (hj : j < n) :
    slotNat (writeBank b (List.replicate n 0) s) b' j = if b' = b then 0 else slotNat s b' j := by
  split
  · next hb =>
    subst hb
    rw [slotNat_writeBank hew (by simpa using hj) (by simp)]
    exact List.getElem_replicate ..
  · next hb => exact slotNat_writeBank_out hew (.inr ⟨hb, hj.trans_le hn, by simpa using hn⟩)

/-- ZEROIZE writes EK, then DOUT, then DIN, and each later write keeps the zeros before it (R211). -/
theorem slotNat_zeroBanks {s : State} (hew : fieldWords s.field ≤ 8) {b : Bank} (hb : b = .din ∨ b = .dout ∨ b = .ek)
    {j : Nat} (hj : j < 1024) : slotNat (zeroBanks s) b j = 0 := by
  have hn : Config.maxBlocks ≤ 1024 := le_rfl
  have hjn : j < Config.maxBlocks := hj
  rw [zeroBanks]
  -- The number of slots stays a variable, so that no list of 1024 zeros is computed.
  generalize Config.maxBlocks = n at hn hjn ⊢
  rw [slotNat_writeBank_zeros (by exact hew) .din b hn hjn, slotNat_writeBank_zeros (by exact hew) .dout b hn hjn,
    slotNat_writeBank_zeros hew .ek b hn hjn]
  rcases hb with rfl | rfl | rfl <;> rfl

/-- The zeros are written to the memory alone. The memory has a name, so that later proofs do not compute it. -/
theorem exists_zeroBanks_eq (s : State) : ∃ mem, zeroBanks s = { s with mem := mem } := by
  simp only [zeroBanks, writeBank]
  exact ⟨_, rfl⟩

/-- From rest ZEROIZE changes the memory, the registers it clears and the completion fields alone (R211, R242). -/
theorem exec_zeroize {s : State} {mem : Memory} (hrest : AtRest s) (hmem : zeroBanks s = { s with mem := mem }) :
    exec .zeroize s = .next (completionFields 0
      { s with mem := mem, sreg := fillQuad 0, mkey := fillQuad 0, nonce := 0, tag := 0, klen := 0 }) := by
  rw [exec, execZeroize, hmem]
  exact congrArg _ (complete_atRest (hrest.congr rfl) .ok)

/-- Settles O28: the three bank writes leave zeros in every slot of their banks and touch no byte below DIN. -/
theorem zeroizeClearsTheSecrets : Obligations.ZeroizeClearsTheSecrets := by
  refine ⟨by decide, fun s hrest hf => ?_⟩
  obtain ⟨mem, hmem⟩ := exists_zeroBanks_eq s
  refine ⟨mem, exec_zeroize hrest hmem, fun b hb j hj => ?_, fun a ha => ?_⟩
  · rw [← hmem]
    exact slotNat_zeroBanks (fieldWords_le hf) hb hj
  · rw [← hmem]
    exact (keepsTables_zeroBanks s).bytes a ha

end Sys2Proof.Machine
end

section
/-! PROOFS. How a command ends (spec/60_exceptions.md R228, R230, R231, R242): in one of three ways, from which its
completion fields, its code and the effect of an error are read off. -/

namespace Sys2Proof.Machine

/-! ### The three ends of a command -/

/-- What a command that fails a check completes from: COMMIT_x has cleared VALID_x, and nothing else has changed (R121,
R230). -/
def invalidated (i : Instr) (s : State) : State :=
  { s with
    validL := s.validL && decide (i ≠ .commitL)
    validS := s.validS && decide (i ≠ .commitS) }

/-- `r` is `s` with results of the command written: slots, KLEN, the unit's answers used, and VALID_x set by COMMIT_x. -/
def Results (i : Instr) (s r : State) : Prop :=
  r = { s with
    validL := s.validL || decide (i = .commitL)
    validS := s.validS || decide (i = .commitS)
    klen := r.klen, sreg := r.sreg, mkey := r.mkey, nonce := r.nonce, tag := r.tag, mem := r.mem, rfu := r.rfu }

/-- How command `i` ends from `s`: a check fails (R230), its results are written, or a round request of it is answered
badly (R231). -/
inductive Ends (i : Instr) (s : State) : State → Prop where
  | error (hc : check i s ≠ .ok) : Ends i s (complete (check i s) (invalidated i s))
  | success {r : State} (hc : check i s = .ok) (hr : Results i s r) : Ends i s (complete .ok r)
  | fault (u : Rfu) (hc : check i s = .ok) (hreq : needsValid i ≠ []) : Ends i s (roundFault i { s with rfu := u })

theorem ends_commitCommand (x : Sel) (s : State) :
    Ends (commitInstr x) s (commitCommand x (commitInstr x) s) := by
  rw [commitCommand]
  by_cases hc : check (commitInstr x) s = .ok
  · have hset : Results (commitInstr x) s (setValid x true s) := by cases x <;> simp [Results, commitInstr, setValid]
    simpa only [hc, decide_true] using Ends.success hc hset
  · have hset : setValid x false s = invalidated (commitInstr x) s := by
      cases x <;> simp [invalidated, commitInstr, setValid]
    simpa only [hc, decide_false, hset] using Ends.error hc

theorem ne_commit_of_commitsTo {i : Instr} (h : commitsTo i = none) : i ≠ .commitL ∧ i ≠ .commitS := by
  constructor <;> (rintro rfl; cases h)

/-- A command other than COMMIT_x writes no VALID bit (R25). -/
theorem results_of_not_commit {i : Instr} {s r : State} (hi : commitsTo i = none)
    (h : r = { s with
      klen := r.klen, sreg := r.sreg, mkey := r.mkey, nonce := r.nonce, tag := r.tag, mem := r.mem, rfu := r.rfu }) :
    Results i s r := by
  obtain ⟨hL, hS⟩ := ne_commit_of_commitsTo hi
  simpa only [Results, hL, hS, decide_false, Bool.or_false] using h

/-- A command other than COMMIT_x runs behind its checks, and fails one of them without a write (R230). -/
theorem ends_ite {i : Instr} {s t : State} (hi : commitsTo i = none) (h : check i s = .ok → Ends i s t) :
    Ends i s (if check i s = .ok then t else complete (check i s) s) := by
  obtain ⟨hL, hS⟩ := ne_commit_of_commitsTo hi
  split
  · next hc => exact h hc
  · next hc => simpa [invalidated, hL, hS] using Ends.error hc

theorem ends_permCommand (x : Sel) (s : State) : Ends (permInstr x) s (permCommand x (permInstr x) s) := by
  refine ends_ite (by cases x <;> rfl) fun hc => ?_
  split
  · exact .success hc (results_of_not_commit (by cases x <;> rfl) rfl)
  · exact .fault _ hc (by cases x <;> simp [permInstr, needsValid])

theorem ends_scheduleCommand (n : Nat) (s : State) : Ends (.schedule n) s (scheduleCommand n s) := by
  refine ends_ite rfl fun hc => ?_
  split
  · exact .success hc (results_of_not_commit rfl rfl)
  · exact .fault _ hc (by simp [needsValid])

theorem ends_transformCommand (dir : Direction) (m : Nat) (s : State) :
    Ends (transformInstr dir m) s (transformCommand dir m (transformInstr dir m) s) := by
  refine ends_ite (by cases dir <;> rfl) fun hc => ?_
  split
  · exact .success hc (results_of_not_commit (by cases dir <;> rfl) rfl)
  · exact .fault _ hc (by cases dir <;> simp [transformInstr, needsValid])

theorem ends_zeroize (s : State) :
    Ends .zeroize s
      (complete .ok { zeroBanks s with sreg := fillQuad 0, mkey := fillQuad 0, nonce := 0, tag := 0, klen := 0 }) := by
  obtain ⟨mem, hmem⟩ := exists_zeroBanks_eq s
  rw [hmem]
  exact .success rfl (results_of_not_commit rfl rfl)

/-- No command stops: each answers a next state, in one of the three ends. -/
theorem exists_exec_ends (i : Instr) (s : State) : ∃ t, exec i s = .next t ∧ Ends i s t := by
  cases i with
  | nop => exact ⟨_, rfl, .success rfl (results_of_not_commit rfl rfl)⟩
  | commitL => exact ⟨_, rfl, ends_commitCommand .large s⟩
  | commitS => exact ⟨_, rfl, ends_commitCommand .small s⟩
  | permL => exact ⟨_, rfl, ends_permCommand .large s⟩
  | permS => exact ⟨_, rfl, ends_permCommand .small s⟩
  | roll | keystate => exact ⟨_, rfl, ends_ite rfl fun hc => .success hc (results_of_not_commit rfl rfl)⟩
  | schedule n => exact ⟨_, rfl, ends_scheduleCommand n s⟩
  | encrypt m => exact ⟨_, rfl, ends_transformCommand .encrypting m s⟩
  | decrypt m => exact ⟨_, rfl, ends_transformCommand .decrypting m s⟩
  | zeroize => exact ⟨_, rfl, ends_zeroize s⟩

theorem ends_of_exec {i : Instr} {s t : State} (e : exec i s = .next t) : Ends i s t := by
  obtain ⟨t', e', h⟩ := exists_exec_ends i s
  cases e.symm.trans e'
  exact h

/-! ### The completion fields (R242) -/

theorem ResultCode.code_ne_zero {c : ResultCode} (h : c ≠ .ok) : c.code ≠ 0 := by
  cases c with
  | ok => exact absurd rfl h
  | configError | dimensionError | fieldMismatch | illegalCommand | lengthError | roundFault => decide

/-- What every completion of a command from `s` leaves in the control and status fields but VALID_x (R25, R47, R242). -/
structure CompletedFrom (s t : State) : Prop where
  errCode : t.errCode.toNat ≤ 6
  err : t.err = (s.err || t.errCode != 0)
  busy : t.busy = false
  done : t.done = true
  pending : t.pending = none
  rest : AtRest t
  wrDrop : t.wrDrop = s.wrDrop
  cmdDrop : t.cmdDrop = s.cmdDrop
  irqEn : t.irqEn = s.irqEn
  cmd : t.cmd = s.cmd

/-- A completion after an update of no sticky or control bit. -/
theorem completedFrom_complete (c : ResultCode) {s r : State}
    (h : r = { r with err := s.err, wrDrop := s.wrDrop, cmdDrop := s.cmdDrop, irqEn := s.irqEn, cmd := s.cmd }) :
    CompletedFrom s (complete c r) := by
  have hcode : decide (c ≠ .ok) = (c.code != 0) := by cases c <;> rfl
  rw [h]
  exact ⟨c.code_le, congrArg (s.err || ·) hcode, rfl, rfl, rfl, atRest_complete _ _, rfl, rfl, rfl, rfl⟩

theorem Ends.completedFrom {i : Instr} {s t : State} (h : Ends i s t) : CompletedFrom s t := by
  cases h with
  | error hc => exact completedFrom_complete _ rfl
  | success hc hr => exact completedFrom_complete _ (by rw [hr])
  | fault u hc hreq => exact completedFrom_complete _ (by cases i <;> rfl)

/-- COMMIT_x sets VALID_x by its code, and no other command touches it (R25, R242). -/
theorem Ends.valid {i : Instr} {s t : State} (h : Ends i s t) (x : Sel) :
    t.valid x = if i = commitInstr x then decide (t.errCode = 0) else s.valid x := by
  cases h with
  | error hc =>
    have hv : (complete (check i s) (invalidated i s)).valid x = (s.valid x && decide (i ≠ commitInstr x)) := by
      cases x <;> rfl
    rw [hv, complete_errCode, decide_eq_false (ResultCode.code_ne_zero hc)]
    split <;> next hi => simp [hi]
  | @success r hc hr =>
    have hv : (complete .ok r).valid x = (s.valid x || decide (i = commitInstr x)) := by
      rw [hr]; cases x <;> rfl
    rw [hv, complete_errCode, decide_eq_true (show ResultCode.ok.code = 0 from rfl)]
    split <;> next hi => simp [hi]
  | fault u hc hreq =>
    have hi : i ≠ commitInstr x := by rintro rfl; cases x <;> exact hreq rfl
    rw [if_neg hi]
    cases i <;> cases x <;> rfl

/-- Settles O7: each of the three ends is a completion, and the end says what became of VALID_x. -/
theorem everyCommandCompletes : Obligations.EveryCommandCompletes := by
  intro i s
  obtain ⟨t, e, h⟩ := exists_exec_ends i s
  obtain ⟨hcode, herr, hbusy, hdone, hpend, hrest, hwr, hcd, hirq, hcmd⟩ := h.completedFrom
  exact ⟨t, e, hcode, herr, hbusy, hdone, hpend, hrest, hwr, hcd, hirq, hcmd,
    fun hi => (h.valid .large).trans (if_pos hi), fun hi => (h.valid .large).trans (if_neg hi),
    fun hi => (h.valid .small).trans (if_pos hi), fun hi => (h.valid .small).trans (if_neg hi)⟩

/-- Settles O9: with a failed check the end is that error, whose completion from rest writes its fields alone. -/
theorem startErrorsWriteOnlyCompletionFields : Obligations.StartErrorsWriteOnlyCompletionFields := by
  refine ⟨fun i s c hrest hc hne => ?_, fun s w y hrest hw hd => engineTurn_illegal hrest hw hd⟩
  subst hc
  obtain ⟨t, e, h⟩ := exists_exec_ends i s
  rw [e]
  cases h with
  | error => exact congrArg _ (complete_atRest (s := invalidated i s) (hrest.congr rfl) _)
  | success hc => exact absurd hc hne
  | fault u hc => exact absurd hc hne

/-! ### The code (R221, R228) -/

/-- A failed check gives its code (R228). -/
theorem errCode_of_error {i : Instr} {s t : State} {c : ResultCode} (e : exec i s = .next t) (hne : c ≠ .ok)
    (hc : check i s = c) : t.errCode = c.code := by
  subst hc
  cases ends_of_exec e with
  | error => rfl
  | success hc => exact absurd hc hne
  | fault u hc => exact absurd hc hne

/-- Past its checks a command that makes no request succeeds. -/
theorem errCode_of_ok {i : Instr} {s t : State} (e : exec i s = .next t) (hi : needsValid i = [])
    (hc : check i s = .ok) : t.errCode = 0 := by
  cases ends_of_exec e with
  | error hne => exact absurd hc hne
  | success => rfl
  | fault u _ hreq => exact absurd hi hreq

/-- Past its checks a command succeeds or ends with RoundFault (R227). -/
theorem errCode_of_ok_or_fault {i : Instr} {s t : State} (e : exec i s = .next t) (hc : check i s = .ok) :
    t.errCode = 0 ∨ t.errCode = 6 := by
  cases ends_of_exec e with
  | error hne => exact absurd hc hne
  | success => exact .inl rfl
  | fault => exact .inr rfl

/-- Code 6 is that of a RoundFault (R227). -/
theorem eq_roundFault_of_errCode {i : Instr} {s t : State} (e : exec i s = .next t) (h6 : t.errCode = 6) :
    check i s = .ok ∧ needsValid i ≠ [] ∧ ∃ u, t = roundFault i { s with rfu := u } := by
  cases ends_of_exec e with
  | error hc => exact absurd h6 (check_code_ne_six i s)
  | success => cases h6
  | fault u hc hreq => exact ⟨hc, hreq, u, rfl⟩

theorem errCode_commitInstr {x : Sel} {s t : State} (e : exec (commitInstr x) s = .next t) :
    (¬ TableDeclared s x → t.errCode = 1) ∧ (TableDeclared s x → ¬ TableCanonical s x → t.errCode = 3) ∧
      (TableDeclared s x → TableCanonical s x → t.errCode = 0) := by
  have hcheck := check_commitInstr x s
  refine ⟨fun htable => ?_, fun htable hentries => ?_, fun htable hentries => ?_⟩
  · rw [eq_true_of_ne_false (mt badConfig_eq_false_iff.1 htable)] at hcheck
    exact errCode_of_error (c := .configError) e (by simp) hcheck
  · rw [badConfig_eq_false_iff.2 htable, eq_true_of_ne_false (mt any_not_canonical_bankList.1 hentries)] at hcheck
    exact errCode_of_error (c := .fieldMismatch) e (by simp) hcheck
  · rw [badConfig_eq_false_iff.2 htable, any_not_canonical_bankList.2 hentries] at hcheck
    exact errCode_of_ok e (by cases x <;> rfl) hcheck

theorem errCode_permInstr {x : Sel} {s t : State} (e : exec (permInstr x) s = .next t) :
    (s.valid x = false → t.errCode = 1) ∧ (s.valid x = true → ¬ SregCanonical s → t.errCode = 3) ∧
      (s.valid x = true → SregCanonical s → t.errCode = 0 ∨ t.errCode = 6) :=
  ⟨fun hv => errCode_of_error e (by simp) (check_permInstr_eq_configError hv),
    fun hv hs => errCode_of_error e (by simp) (check_permInstr_eq_fieldMismatch hv hs),
    fun hv hs => errCode_of_ok_or_fault e (check_permInstr_eq_ok hv hs)⟩

/-- Of the checks of R228, SCHEDULE has that of its length, that of the large permutation and that of S. -/
theorem check_schedule (n : Nat) (s : State) :
    check (.schedule n) s =
      if 1024 < n then .lengthError
      else if !s.validL then .configError
      else if ((quadList s.sreg).map BitVec.toNat).any fun v => !canonical s.field v then .fieldMismatch
      else .ok := by
  simp [check, Instr.len, Config.maxBlocks, readsKey, commitsTo, needsValid, State.valid, elementOperands]

theorem errCode_schedule {n : Nat} {s t : State} (e : exec (.schedule n) s = .next t) :
    (1024 < n → t.errCode = 5) ∧ (n ≤ 1024 → s.validL = false → t.errCode = 1) ∧
      (n ≤ 1024 → s.validL = true → ¬ SregCanonical s → t.errCode = 3) ∧
      (n ≤ 1024 → s.validL = true → SregCanonical s → t.errCode = 0 ∨ t.errCode = 6) := by
  have hcheck := check_schedule n s
  refine ⟨fun hn => ?_, fun hn hv => ?_, fun hn hv hs => ?_, fun hn hv hs => ?_⟩
  · rw [if_pos hn] at hcheck
    exact errCode_of_error (c := .lengthError) e (by simp) hcheck
  · rw [if_neg hn.not_gt, hv] at hcheck
    exact errCode_of_error (c := .configError) e (by simp) hcheck
  · rw [if_neg hn.not_gt, hv, eq_true_of_ne_false (mt any_not_canonical_sreg.1 hs)] at hcheck
    exact errCode_of_error (c := .fieldMismatch) e (by simp) hcheck
  · exact errCode_of_ok_or_fault e (check_schedule_eq_ok hn hv hs)

theorem errCode_transformInstr {dir : Direction} {m : Nat} {s t : State}
    (e : exec (transformInstr dir m) s = .next t) :
    (1024 < m → t.errCode = 5) ∧ (m ≤ 1024 → 4 < s.klen.toNat → t.errCode = 2) ∧
      (m ≤ 1024 → s.klen.toNat ≤ 4 → ¬ (s.validL = true ∧ s.validS = true) → t.errCode = 1) ∧
      (m ≤ 1024 → s.klen.toNat ≤ 4 → s.validL = true → s.validS = true →
        ¬ (KeyCanonical s ∧ ∀ j < m, slotNat s .din j < fieldCard s.field) → t.errCode = 3) ∧
      (TransformReady s m → t.errCode = 0 ∨ t.errCode = 6) := by
  have hcheck := check_transformInstr dir m s
  refine ⟨fun hm => ?_, fun hm hk => ?_, fun hm hk hv => ?_, fun hm hk hL hS hel => ?_, fun hready => ?_⟩
  · rw [if_pos hm] at hcheck
    exact errCode_of_error (c := .lengthError) e (by simp) hcheck
  · rw [if_neg hm.not_gt, if_pos hk] at hcheck
    exact errCode_of_error (c := .dimensionError) e (by simp) hcheck
  · have hv : (!s.validL || !s.validS) = true := eq_true_of_ne_false fun h => hv (by simpa using h)
    rw [if_neg hm.not_gt, if_neg hk.not_gt, if_pos hv] at hcheck
    exact errCode_of_error (c := .configError) e (by simp) hcheck
  · rw [if_neg hm.not_gt, if_neg hk.not_gt, hL, hS,
      eq_true_of_ne_false (mt (any_not_canonical_transform hk).1 hel)] at hcheck
    exact errCode_of_error (c := .fieldMismatch) e (by simp) hcheck
  · exact errCode_of_ok_or_fault e (check_transformInstr_eq_ok_iff.2 hready)

/-- Settles O10: per command, the conditions of the clause decide its checks up to the one that gives the code. -/
theorem firstFailingCheckGivesTheCode : Obligations.FirstFailingCheckGivesTheCode := by
  refine ⟨fun s w y hphase hw hd => ⟨complete .illegalCommand s, ?_, rfl⟩, fun i s t e => ?_⟩
  · simp only [engineTurn, turn, hw, hphase, hd]
  · cases i with
    | nop | zeroize => exact errCode_of_ok e rfl rfl
    | roll =>
      exact ⟨fun hs => errCode_of_ok e rfl (check_roll_eq_ok hs),
        fun hs => errCode_of_error e (by simp) (check_roll_eq_fieldMismatch hs)⟩
    | commitL => exact errCode_commitInstr (x := .large) e
    | commitS => exact errCode_commitInstr (x := .small) e
    | permL => exact errCode_permInstr (x := .large) e
    | permS => exact errCode_permInstr (x := .small) e
    | keystate =>
      exact ⟨fun hk => errCode_of_error e (by simp) (check_keystate_eq_dimensionError hk),
        fun hk hkey => errCode_of_error e (by simp) (check_keystate_eq_fieldMismatch hk hkey),
        fun hk hkey => errCode_of_ok e rfl (check_keystate_eq_ok hk hkey)⟩
    | schedule n => exact errCode_schedule e
    | encrypt m => exact errCode_transformInstr (dir := .encrypting) e
    | decrypt m => exact errCode_transformInstr (dir := .decrypting) e

/-! ### RoundFault (R231) -/

/-- Zeros written to the first `n` slots of a bank: they read 0, and every byte outside them is as it was (R33, R80). -/
theorem bank_zeroed {b : Bank} {n : Nat} {s t : State} (hew : fieldWords s.field ≤ 8) (hn : n ≤ 1024)
    (hfield : t.field = s.field) (hmem : t.mem = (writeBank b (List.replicate n 0) s).mem) (hpast : t.past = s.past) :
    (∀ j < n, slotNat t b j = 0) ∧ ∀ a, OutsideSlots s b n a → bankByte t a = bankByte s a := by
  refine ⟨fun j hj => ?_, fun a ha => ?_⟩
  · rw [slotNat_congr_mem (s := writeBank b (List.replicate n 0) s) hfield hmem hpast,
      slotNat_writeBank_zeros hew b b hn hj, if_pos rfl]
  · rw [bankByte_congr (s := writeBank b (List.replicate n 0) s) hmem hpast]
    exact bankByte_writeBank_out (by simpa [OutsideSlots] using ha)

/-- Settles O27: code 6 is a RoundFault past the checks, which writes zeros over the destinations and completes. -/
theorem roundFaultZeroesDestinations : Obligations.RoundFaultZeroesDestinations := by
  intro i s t hrest hf e h6
  obtain ⟨hc, hreq, u, rfl⟩ := eq_roundFault_of_errCode e h6
  have hlen := (check_ok hc).1
  have hew := fieldWords_le hf
  have ht := roundFault_atRest (i := i) (s := { s with rfu := u }) (hrest.congr rfl)
  cases i with
  | permL | permS => exact ht
  | schedule n => exact ⟨ht, bank_zeroed hew hlen rfl rfl rfl⟩
  | encrypt m | decrypt m => exact ⟨ht, bank_zeroed hew hlen rfl rfl rfl⟩
  | nop | commitL | commitS | roll | keystate | zeroize => exact hreq rfl

end Sys2Proof.Machine
end

section
/-! PROOFS. The life of a command between the host port and the engine (spec/60_exceptions.md R232, R233, R241, R243):
acceptance, the engine's turn, and the interrupt at completion. -/

namespace Sys2Proof.Machine

/-- A write to CMD is dropped by a busy engine (R241). -/
theorem hostWrite_cmd_busy {off : Offset} (h : off.toNat / 4 = 5) {s : State} (hb : s.busy = true) (w : Word) :
    hostWrite off w s = { s with cmdDrop := true } := by
  rw [hostWrite, (locate_eq_iff (l := .cmd)).2 h, writeLoc, if_pos hb]

/-- Settles O4: BUSY alone decides between acceptance and drop. -/
theorem commandWriteAcceptedOrDropped : Obligations.CommandWriteAcceptedOrDropped :=
  fun _ _ w h => ⟨fun hb => hostWrite_cmd_idle h hb w, fun hb => hostWrite_cmd_busy h hb w⟩

/-- The turn on a legal word not yet begun (R243). -/
theorem turn_command {s : State} {w : Word} {i : Instr} (hphase : s.phase = .idle) (hw : s.pending = some w)
    (hd : decode w = .command i) (g : Instr → State → Host.Outcome State Fault Refusal) : turn g s = g i s := by
  simp only [turn, hw, hphase, hd]

/-- With a live unit the engine's turn on a legal word is the command's meaning (R243). -/
theorem engineTurn_command {s : State} {w : Word} {i : Instr} (hlive : s.rfu.silent = false) (hphase : s.phase = .idle)
    (hw : s.pending = some w) (hd : decode w = .command i) : engineTurn s = exec i s := by
  rw [engineTurn, turn_command hphase hw hd, runCommand, hlive]
  exact if_neg Bool.false_ne_true

/-- Settles O5: the step is the engine's turn, by default or as the next move of the schedule. -/
theorem stepRunsTheDecodedCommand : Obligations.StepRunsTheDecodedCommand := by
  refine fun s w i hspec hlive hphase hw hd => ⟨fun hsched => ?_, fun ms hsched => ?_⟩
  · rw [step_engine hspec hsched, engineTurn_command hlive hphase hw hd]
  · rw [step_of_specified hspec hsched]
    exact engineTurn_command (s := { s with schedule := ms }) hlive hphase hw hd

/-! ### The interrupt (R232, R233) -/

theorem irq_of_exec {i : Instr} {s t : State} (e : exec i s = .next t) : irq t = s.irqEn := by
  have h := (ends_of_exec e).completedFrom
  rw [irq, h.done, h.irqEn, Bool.true_and]

theorem irq_of_not_done {s : State} (h : s.done = false) : irq s = false := by rw [irq, h, Bool.false_and]

theorem irq_of_not_irqEn {s : State} (h : s.irqEn = false) : irq s = false := by rw [irq, h, Bool.and_false]

/-- DONE written with 1 in STATUS (R25). -/
theorem hostWrite_clearDone (s : State) : (hostWrite 0x10 0x2 s).done = false := by
  rw [hostWrite, (locate_eq_iff (l := .status)).2 (show (0x10 : Offset).toNat / 4 = 4 by decide)]
  exact Bool.and_false _

/-- CTRL written with SOFT_RESET = 0 (R24). -/
theorem hostWrite_clearIrqEn (s : State) : hostWrite 0x0C 0x0 s = { s with irqEn := false } :=
  hostWrite_ctrl (by decide) 0x0 s

theorem hostWrite_setIrqEn (s : State) : hostWrite 0x0C 0x1 s = { s with irqEn := true } :=
  hostWrite_ctrl (by decide) 0x1 s

/-- Settles O43: each case says what becomes of DONE or IRQ_EN. -/
theorem interruptFollowsDone : Obligations.InterruptFollowsDone := by
  refine ⟨fun i s t e => irq_of_exec e, fun s => ⟨?_, ?_, ?_⟩, fun s w hb => ?_, fun s hdone hirq => ⟨?_, ?_⟩⟩
  · exact irq_of_not_done (hostWrite_clearDone s)
  · rw [hostWrite_clearIrqEn]
    exact irq_of_not_irqEn rfl
  · rw [hostWrite_softReset]
    exact irq_of_not_done rfl
  · rw [hostWrite_cmd_idle (by decide) hb]
    exact irq_of_not_done rfl
  · exact irq_of_not_irqEn hirq
  · rw [hostWrite_setIrqEn, irq, hdone]
    rfl

end Sys2Proof.Machine
end

section
/-! PROOFS. A command run round by round (spec/60_exceptions.md R243, R244): from its start it reaches the state of its
one-step meaning, and from any point of its run it completes. -/

namespace Sys2Proof.Machine

/-- A committed permutation has a round (R121, R123). -/
theorem Inv.rounds_pos {s : State} (h : Inv s) {x : Sel} (hv : s.valid x = true) : 1 ≤ s.rounds x :=
  (h.committed x hv).1

/-- The start of a command enters its first permutation, and does no more (R124, R126). -/
theorem exists_enterPerm_of_openCommand {i : Instr} {s t : State} (h : openCommand i s = some t) :
    ∃ ph x q, t = enterPerm ph x q s := by
  unfold openCommand at h
  split at h
  · cases i with
    | permL | permS | schedule | encrypt | decrypt => cases h; exact ⟨_, _, _, rfl⟩
    | nop | commitL | commitS | roll | keystate | zeroize => cases h
  · cases h

/-- Settles O52: the start either runs the command at once, or enters its first permutation, from which the port's edges
lead to the end. -/
theorem roundByRoundEqualsOneStep : Obligations.RoundByRoundEqualsOneStep := by
  intro s w i hinv hspec hlive hsched hphase hw hd
  have hstart : step { s with schedule := [.start] } = beginCommand i s := by
    rw [step_of_specified (s := { s with schedule := [.start] }) hspec rfl, ← hsched]
    exact turn_command hphase hw hd beginCommand
  unfold beginCommand at hstart
  split at hstart
  · next s1 hopen =>
    obtain ⟨t, e, hreach⟩ := openCommand_reaches (fun _ => hinv.rounds_pos) (hinv.rest hphase) hlive
      (commandOf_some hw hd) hopen
    obtain ⟨ph, x, q, rfl⟩ := exists_enterPerm_of_openCommand hopen
    obtain ⟨k, hk⟩ := run_reaches hreach hspec hsched
    exact ⟨k, t, e, (run_succ hstart k).trans hk⟩
  · obtain ⟨t, e, -⟩ := exists_exec_ends i s
    exact ⟨0, t, e, run_succ (hstart.trans e) 0⟩

/-! ### Completion from any point of a run (R244) -/

/-- Port edges lead to a completion (R242). -/
def Finishes (s : State) : Prop := ∃ t, Reaches s t ∧ t.busy = false ∧ t.done = true ∧ t.pending = none

theorem finishes_complete (c : ResultCode) (s : State) : Finishes (complete c s) := ⟨_, .refl _, rfl, rfl, rfl⟩

theorem finishes_roundFault (i : Instr) (s : State) : Finishes (roundFault i s) := finishes_complete _ _

theorem Reaches.finishes {s t : State} (h : Reaches s t) (ht : Finishes t) : Finishes s := by
  obtain ⟨u, hu, hend⟩ := ht
  exact ⟨u, h.trans hu, hend⟩

/-- A permutation in progress, its request presented, ends, in a RoundFault or with the next thing its command does
(R124, R129). -/
theorem finishes_presenting {i : Instr} {s : State} (h : Presenting s i) (hround : s.round < s.rounds s.sel)
    (hdone : ∀ u q r, u.silent = false → Finishes (permDone i { s with rfu := u, t := q, round := r })) :
    Finishes s := by
  obtain ⟨r, hreach⟩ := rounds_reach (s.rounds s.sel - s.round - 1) h (by omega)
  refine hreach.finishes ?_
  have hsil := permRounds_silent s s.sel (s.rounds s.sel - s.round - 1 + 1) s.round s.t s.rfu
  split
  · next q u hrun => exact hdone u q r (by rw [hrun] at hsil; exact hsil.trans h.live)
  · exact finishes_roundFault i _

/-- The same with the request taken: the response's edge ends the round (R126). -/
theorem finishes_outstanding {i : Instr} {s : State} (hbegun : s.phase ≠ .idle) (hout : s.rfOut = true)
    (hlive : s.rfu.silent = false) (hcmd : commandOf s = some i)
    (hdone : ∀ u q r, u.silent = false →
      Finishes (permDone i { s with rfu := u, rfOut := false, t := q, round := r })) :
    Finishes s := by
  have hpend : s.pending ≠ none := by
    intro h
    simp [commandOf, h] at hcmd
  refine (Reaches.edge hbegun hpend (.refl _)).finishes ?_
  have hedge : portEdge s =
      if quadCanonical s.field (rfuAnswer s.field s.rfu (currentRequest s)) then
        roundDone i (rfuAnswer s.field s.rfu (currentRequest s)) { s with rfu := rfuDrop s.rfu, rfOut := false }
      else roundFault i { s with rfu := rfuDrop s.rfu, rfOut := false } := by
    simp [portEdge, rfReqValid, hout, rfuRespond, hlive, hcmd]
  rw [hedge]
  split
  · unfold roundDone
    split
    · next hmore => exact finishes_presenting (i := i) ⟨hbegun, rfl, hlive, hcmd⟩ hmore fun u q r => hdone u q r
    · exact hdone _ _ _ hlive
  · exact finishes_roundFault i _

/-- The blocks left and the tag of a transform (R183, R184, R186). -/
theorem finishes_startBlock {dir : Direction} {m b : Nat} {s : State} (hb : b ≤ m) (hfree : s.rfOut = false)
    (hlive : s.rfu.silent = false) (hcmd : commandOf s = some (transformInstr dir m))
    (hrounds : ∀ x, 1 ≤ s.rounds x) : Finishes (startBlock m b s) := by
  refine (blocks_reach dir m (m - b) b (by omega) hfree hlive hcmd (hrounds .large) (hrounds .small)).finishes ?_
  split
  · exact finishes_roundFault _ _
  · split
    · exact finishes_roundFault _ _
    · exact finishes_complete _ _

theorem finishes_transformPermDone {dir : Direction} {m : Nat} {s : State}
    (hphase : PhaseLegal s (transformInstr dir m)) (hfree : s.rfOut = false) (hlive : s.rfu.silent = false)
    (hcmd : commandOf s = some (transformInstr dir m)) (hrounds : ∀ x, 1 ≤ s.rounds x) :
    Finishes (transformPermDone dir m s) := by
  unfold PhaseLegal at hphase
  unfold transformPermDone
  cases hp : s.phase with
  | idle => rw [hp] at hphase; exact hphase.elim
  | perm => rw [hp] at hphase; cases dir <;> simp [transformInstr] at hphase
  | boot => exact finishes_startBlock (Nat.zero_le m) hfree hlive hcmd hrounds
  | block =>
    rw [hp] at hphase
    obtain ⟨-, -, m', hlt, hm⟩ := hphase
    obtain rfl : m' = m := by cases dir <;> simpa [transformInstr, eq_comm] using hm
    exact finishes_startBlock hlt hfree hlive hcmd hrounds
  | tagging => exact finishes_complete _ _

/-- What follows a permutation of a command in its run leads to the command's end (R131, R163, R184). -/
theorem finishes_permDone {i : Instr} {s : State} (hphase : PhaseLegal s i) (hfree : s.rfOut = false)
    (hlive : s.rfu.silent = false) (hcmd : commandOf s = some i) (hrounds : ∀ x ∈ needsValid i, 1 ≤ s.rounds x) :
    Finishes (permDone i s) := by
  cases i with
  | permL | permS | schedule => exact finishes_complete _ _
  | encrypt m =>
    exact finishes_transformPermDone (dir := .encrypting) hphase hfree hlive hcmd
      fun x => hrounds x (by cases x <;> simp [needsValid])
  | decrypt m =>
    exact finishes_transformPermDone (dir := .decrypting) hphase hfree hlive hcmd
      fun x => hrounds x (by cases x <;> simp [needsValid])
  | nop | commitL | commitS | roll | keystate | zeroize =>
    unfold PhaseLegal at hphase
    cases hp : s.phase <;> simp [hp] at hphase

/-- A command in its run, its request presented or taken, completes when the unit answers (R244). -/
theorem finishes_of_begun {s : State} (hinv : Inv s) (hbegun : s.phase ≠ .idle) (hlive : s.rfu.silent = false) :
    Finishes s := by
  obtain ⟨i, hrun⟩ := hinv.running hbegun
  obtain ⟨-, -, -, hvalid, -⟩ := check_ok hrun.checked
  have hrounds (x : Sel) (hx : x ∈ needsValid i) : 1 ≤ s.rounds x := hinv.rounds_pos (hvalid x hx)
  cases hout : s.rfOut with
  | false =>
    exact finishes_presenting ⟨hbegun, hout, hlive, hrun.command⟩ hrun.round fun u q r hu =>
      finishes_permDone (s := { s with rfu := u, t := q, round := r }) hrun.phase hout hu hrun.command hrounds
  | true =>
    exact finishes_outstanding hbegun hout hlive hrun.command fun u q r hu =>
      finishes_permDone (s := { s with rfu := u, rfOut := false, t := q, round := r }) hrun.phase rfl hu hrun.command
        hrounds

/-- The engine's turn on a word not yet begun completes it, legal or not (R226, R242, R243). -/
theorem engineTurn_completes {s : State} {w : Word} (hlive : s.rfu.silent = false) (hphase : s.phase = .idle)
    (hw : s.pending = some w) : ∃ t, engineTurn s = .next t ∧ t.busy = false ∧ t.done = true ∧ t.pending = none := by
  cases hd : decode w with
  | command i =>
    obtain ⟨t, e, h⟩ := exists_exec_ends i s
    have hend := h.completedFrom
    exact ⟨t, (engineTurn_command hlive hphase hw hd).trans e, hend.busy, hend.done, hend.pending⟩
  | illegal y => exact ⟨complete .illegalCommand s, by simp only [engineTurn, turn, hw, hphase, hd], rfl, rfl, rfl⟩

/-- Settles O53: a word not yet begun takes one step, and a command in its run the edges of its rounds. -/
theorem pendingCommandsComplete : Obligations.PendingCommandsComplete := by
  intro s hinv hspec hlive hsched hbusy
  obtain ⟨w, hw⟩ := Option.isSome_iff_exists.1 (hinv.busy ▸ hbusy)
  by_cases hphase : s.phase = .idle
  · obtain ⟨t, e, hend⟩ := engineTurn_completes hlive hphase hw
    exact ⟨0, t, run_succ ((step_engine hspec hsched).trans e) 0, hend⟩
  · obtain ⟨t, hreach, hidle, hend⟩ := finishes_of_begun hinv hphase hlive
    obtain ⟨k, hk⟩ := run_reaches hreach hspec hsched
    cases k with
    | zero => cases hk; exact absurd (hbusy.symm.trans hidle) (by simp)
    | succ k => exact ⟨k, t, hk, hidle, hend⟩

end Sys2Proof.Machine
end

section
/-! PROOFS. Reset and power (spec/70_reset_and_hazards.md R260 to R265): the assertion of `rst_n` gives the reset
values, no move changes them while reset is asserted, and before the first reset after power-up no move but that
assertion and another loss of power goes on. -/

namespace Sys2Proof.Machine

/-! ### The reset values (R263, R264) -/

/-- The reset values do not speak of the field, the banks, the reset and power inputs or the other agents. -/
theorem RegistersReset.congr {s s' : State} (h : RegistersReset s)
    (e : s' = { s with
      field := s'.field, mem := s'.mem, rstN := s'.rstN, specified := s'.specified, past := s'.past, rfu := s'.rfu
      schedule := s'.schedule }) : RegistersReset s' := by
  rw [e]
  exact { h with rest := h.rest.congr rfl }

theorem registersReset_initial (f : Field) : RegistersReset (State.initial f) :=
  (registersReset_resetState (State.initial f)).congr rfl

theorem RegistersReset.statusWord_eq_zero {s : State} (h : RegistersReset s) : statusWord s = 0 :=
  BitVec.eq_of_toNat_eq (by
    rw [toNat_statusWord, h.busy, h.done, h.err, h.wrDrop, h.cmdDrop, h.validL, h.validS, h.errCode]
    rfl)

/-- Settles O44: the initial state's own values, and a legal field (R7). -/
theorem resetStateIsTheSpecified : Obligations.ResetStateIsTheSpecified := by
  have hreset : RegistersReset State.reset := registersReset_initial _
  refine ⟨hreset, rfl, rfl, rfl, fieldWf_instanceField, fun off hoff => ?_⟩
  rw [hostRead, (locate_eq_iff (l := .status)).2 hoff, readLoc, hreset.statusWord_eq_zero]

/-! ### The assertion of `rst_n` (R260, R265) -/

/-- Specified or not, the state that follows is the reset state with reset asserted. -/
theorem step_assertReset {s : State} {ms : List Move} (h : s.schedule = .assertReset :: ms) :
    step s = .next { resetState { s with schedule := ms } with rstN := false } := by
  rw [step, h]
  exact ite_self _

theorem registersReset_assertReset (s : State) : RegistersReset { resetState s with rstN := false } :=
  (registersReset_resetState s).congr rfl

/-! ### While reset is asserted (R260) -/

theorem transfer_blocked {s : State} (h : s.rstN = false) (g : State → State) : transfer g s = s :=
  if_neg (by simp [h])

theorem turn_of_not_pending {s : State} (h : s.pending = none)
    (g : Instr → State → Host.Outcome State Fault Refusal) : turn g s = .next s := by rw [turn, h]

theorem rfReqValid_of_idle {s : State} (h : s.phase = .idle) : rfReqValid s = false := by simp [rfReqValid, h]

/-- The host's transfers do not complete, the engine has nothing pending, and the port shows and takes nothing. -/
theorem registersReset_move {m : Move} {s t : State} (h : RegistersReset s) (hrst : s.rstN = false)
    (e : move m s = .next t) : RegistersReset t := by
  cases m with
  | write off v | read off => cases e; rwa [transfer_blocked hrst]
  | engine | start => cases (turn_of_not_pending h.pending _).symm.trans e; exact h
  | rfuTake => cases e; rwa [rfuTake_of_not_rfReqValid (rfReqValid_of_idle h.rest.phase)]
  | rfuRespond => cases e; rw [rfuRespond_of_not_rfOut h.rest.rfOut]; exact h.congr rfl
  | assertReset => cases e; exact registersReset_assertReset s
  | rfuFallSilent | deassertReset | powerCycle => cases e; exact h.congr rfl

theorem registersReset_agentMove {m : Move} {s t : State} (h : RegistersReset s) (hrst : s.rstN = false)
    (e : agentMove m s = .next t) : RegistersReset t := by
  unfold agentMove at e
  split at e
  · exact registersReset_move h hrst e
  · cases m with
    | assertReset => exact registersReset_move (m := .assertReset) h hrst e
    | powerCycle => cases e; exact h
    | write | read | engine | start | rfuTake | rfuRespond | rfuFallSilent | deassertReset => cases e

theorem registersReset_step {s t : State} (h : RegistersReset s) (hrst : s.rstN = false) (e : step s = .next t) :
    RegistersReset t := by
  unfold step at e
  split at e
  · exact registersReset_agentMove h hrst e
  · next m ms _ =>
    have hs : RegistersReset { s with schedule := ms } := h.congr rfl
    exact registersReset_agentMove hs hrst e

/-- Settles O45: the assertion resets every register, and no agent's move reaches one while it lasts. -/
theorem assertedResetHoldsEverything : Obligations.AssertedResetHoldsEverything :=
  ⟨fun _ _ h => ⟨_, step_assertReset h, registersReset_assertReset _, rfl, rfl, rfl⟩,
    fun _ _ e hrst h _ => registersReset_step h hrst e⟩

/-! ### Before the first reset after power-up (R265) -/

theorem agentMove_unspecified {s : State} (h : s.specified = false) (m : Move) :
    agentMove m s = moveUnspecified m s :=
  if_neg (by simp [h])

theorem moveUnspecified_stops {m : Move} (hr : m ≠ .assertReset) (hp : m ≠ .powerCycle) (s : State) :
    moveUnspecified m s = .fault .stateUnspecified := by
  cases m with
  | assertReset => exact absurd rfl hr
  | powerCycle => exact absurd rfl hp
  | write | read | engine | start | rfuTake | rfuRespond | rfuFallSilent | deassertReset => rfl

/-- Settles O46: with the schedule empty the move that stops is the engine's. -/
theorem nothingRunsBeforeTheFirstReset : Obligations.NothingRunsBeforeTheFirstReset := by
  refine fun s ms hspec => ⟨fun m hr hp hsched => ?_, fun hsched => ?_, fun hsched => ?_⟩
  · rw [step, hsched]
    exact (agentMove_unspecified (s := { s with schedule := ms }) hspec m).trans (moveUnspecified_stops hr hp _)
  · rw [step, hsched]
    exact agentMove_unspecified hspec .engine
  · exact ⟨_, step_assertReset hsched, rfl, registersReset_assertReset _⟩

end Sys2Proof.Machine
end
